-- ==== Sys2Proof/Word.lean ====
section
/-! DEFINITION. The plain value types of the spadic10 link core: bytes, bit vectors, channel identifiers, queue
values, frame types, field names, records, polynomial values and frame values. Nothing here computes. -/

namespace Sys2Proof

/-- One byte of a byte string (R73). -/
abbrev Byte := BitVec 8

/-- A bit vector (R140): a finite sequence of bits, leftmost, first-transmitted, most significant bit first (R11).
Two bit vectors are equal exactly when their lengths and their values are, which is equality of lists of bits. -/
abbrev Bv := List Bool

/-- A channel identifier (R72): an opaque key. Nothing but equality is ever asked of it; the order of the
numbers only serves the canonical form of the receive queues. -/
abbrev Chan := Nat

/-- The opaque content of a transport error (R37, R290): the transport's own record, passed on unchanged. -/
abbrev ErrInfo := Nat

/-- A caller thread of HOST (R7). The core gives threads no identifier (R348); this number is the model's. -/
abbrev ThreadId := Nat

/-- A duration (R301, R10). The model measures no time (R15); only whether a duration is 0 is ever asked. -/
abbrev Duration := Nat

/-- An item on a channel: opaque to the demultiplexer (R290). RAP asks only whether it is a byte string (R252). -/
inductive Value where
  /-- A byte string. -/
  | bytes (b : List Byte)
  /-- An item that is no byte string. -/
  | other (n : Nat)
deriving DecidableEq, Repr

/-- The four frame types (R100, R200). -/
inductive FrameType where
  | dl | ack | rd | hit
deriving DecidableEq, Repr

/-- The field names of the frame-type table (R201), and every name outside it. -/
inductive FieldName where
  | chipAddress | sequenceNumber | requestType | payload
  | ack | configParity | throttleAlert | syncAlert | sequenceError | otherError | timestamp
  | data | raw
  /-- A field name that no frame type has (R124: an extra field name is an error of FRAME_BUILD). -/
  | unknown (n : Nat)
deriving DecidableEq, Repr

/-- A `fields` operand: a record with one unsigned number per named field (R124). -/
abbrev Record := List (FieldName × Nat)

/-- A polynomial value `(N, d)`: the normal-form integer and the degree (R170). -/
structure Poly where
  normal : Nat
  degree : Nat
deriving DecidableEq, Repr

/-- A frame value `(type, fields, crc)` (R200): the field values in the declared order of the type (R201), and the
stored crc, which a HIT frame does not have. -/
structure Frame where
  type : FrameType
  fields : List Nat
  crc : Option Nat
deriving DecidableEq, Repr

/-- A value queued for a destination (R43). -/
structure Item where
  value : Value
  dest : Chan
deriving DecidableEq, Repr

end Sys2Proof
end

