-- ==== Sys2Proof/Config.lean ====
section
/-! DEFINITION. What is fixed for the machine: the widths and limits of 00_scope.md R10, the polynomial ROM (R30), the
frame-type table (R31, R201), and the OPEN parameters of R10, which are constants without a body: no proof can
see their values (assumption log 1). -/

namespace Sys2Proof.Config

/-! ### Widths and limits (R10) -/

/-- CHIP_ADDR_W. -/
def chipAddrW : Nat := 4
/-- SEQ_W. -/
def seqW : Nat := 4
/-- RD_SEQ_W. -/
def rdSeqW : Nat := 3
/-- PAYLOAD_W. -/
def payloadW : Nat := 15
/-- CNT_W. -/
def cntW : Nat := 16
/-- DEG_MAX (D3). -/
def degMax : Nat := 16
/-- BV_MAX: unbounded in the model (R140, D6); `some n` would be an implementation's bound. -/
def bvMax : Option Nat := none
/-- SENDQ_CAP: unbounded (R43, D27); `some n` would be an implementation's bound. -/
def sendqCap : Option Nat := none

/-! ### The polynomial ROM (R30) and the frame-type table (R31) -/

/-- POLY_DL in normal form (R30, R180). -/
def polyDl : Poly := ⟨0x4599, 15⟩
/-- POLY_ACK in normal form (R30, R180). -/
def polyAck : Poly := ⟨0x3, 4⟩
/-- POLY_RD in normal form (R30, R180). -/
def polyRd : Poly := ⟨0x3, 3⟩

/-- The CRC polynomial of a frame type; HIT has none (R201). -/
def polyOf : FrameType → Option Poly
  | .dl => some polyDl
  | .ack => some polyAck
  | .rd => some polyRd
  | .hit => none

/-- The width of the trailing crc field: the degree of the type's polynomial (R100). -/
def crcWidth (t : FrameType) : Nat :=
  match polyOf t with
  | some p => p.degree
  | none => 0

/-- The prefix of a frame type as (value, width); width 0 for DL, which has none (R201). -/
def prefixOf : FrameType → Nat × Nat
  | .dl => (0, 0)
  | .ack => (0b100, 3)
  | .rd => (0b101, 3)
  | .hit => (0b0, 1)

/-- The fields of a frame type in declared order, each with its width (R201, R101 to R104). -/
def fieldList : FrameType → List (FieldName × Nat)
  | .dl => [(.chipAddress, 4), (.sequenceNumber, 4), (.requestType, 2), (.payload, 15)]
  | .ack => [(.ack, 2), (.sequenceNumber, 4), (.configParity, 1), (.throttleAlert, 1), (.syncAlert, 1),
      (.sequenceError, 1), (.otherError, 1), (.timestamp, 6)]
  | .rd => [(.data, 15), (.sequenceNumber, 3)]
  | .hit => [(.raw, 23)]

/-- The widths of a frame type's fields in declared order. -/
def fieldWidths (t : FrameType) : List Nat := (fieldList t).map (·.2)

/-- The total width of a frame type (R201). -/
def frameWidth (t : FrameType) : Nat := (prefixOf t).2 + (fieldWidths t).sum + crcWidth t

/-- The order in which UPLINK_RESOLVE probes (R211, R243). -/
def probeOrder : List FrameType := [.hit, .ack, .rd]

/-! ### The OPEN parameters (R10, D10, D11, D16, D23) -/

/-- The three kinds of request (R108). -/
inductive ReqKind where
  | wrAddr | wrData | rdData
deriving DecidableEq, Repr

/-- The OPEN parameters as one record, so that the steps that read them take them as an argument (D10, D11, D16, D23). -/
structure Params where
  reqWrAddr : BitVec 2
  reqWrData : BitVec 2
  reqRdData : BitVec 2
  ackNack : BitVec 2
  ctrlDest : Chan
  ctrlSrc : Chan
  tResp : Duration
  tDrain : Duration
  tAck : Duration
  pollInterval : Duration
  joinTimeout : Duration
deriving DecidableEq, Repr

/-- The `request_type` code of a request kind (R108). -/
def Params.reqCode (p : Params) : ReqKind → BitVec 2
  | .wrAddr => p.reqWrAddr
  | .wrData => p.reqWrData
  | .rdData => p.reqRdData

/-- What R10 asks of the OPEN parameters: three distinct request codes and positive durations. -/
def Params.Legal (p : Params) : Prop :=
  p.reqWrAddr ≠ p.reqWrData ∧ p.reqWrAddr ≠ p.reqRdData ∧ p.reqWrData ≠ p.reqRdData ∧
  0 < p.tResp ∧ 0 < p.tDrain ∧ 0 < p.tAck ∧ 0 < p.pollInterval ∧ 0 < p.joinTimeout

/-- Which of the 24 ways to give the three request kinds distinct 2-bit codes this machine uses (R108). OPEN: no
proof can see it. -/
opaque requestCodes : Fin 24
/-- ACK_NACK (R109). OPEN. -/
opaque ackNack : BitVec 2
/-- CTRL_DEST (R72). OPEN. -/
opaque ctrlDest : Chan
/-- CTRL_SRC (R72). OPEN. -/
opaque ctrlSrc : Chan
/-- T_RESP. OPEN, positive. -/
opaque tResp : ℕ+
/-- T_DRAIN. OPEN, positive. -/
opaque tDrain : ℕ+
/-- T_ACK. OPEN, positive. -/
opaque tAck : ℕ+
/-- POLL_INTERVAL. OPEN, positive. No rule reads it: a poll tick may come at any moment (R307). -/
opaque pollInterval : ℕ+
/-- JOIN_TIMEOUT. OPEN, positive. No rule reads its size: the join timeout may fire at any moment (R316). -/
opaque joinTimeout : ℕ+

/-- The three distinct 2-bit codes that choice `k` stands for: the first by `k / 6`, the second by `k / 2 % 3` among
the three left, the third by `k % 2` among the two left. -/
def requestCodeTriple (k : Fin 24) : BitVec 2 × BitVec 2 × BitVec 2 :=
  let a := k.val / 6
  let left := [0, 1, 2, 3].filter (· != a)
  let b := left.getD (k.val / 2 % 3) 0
  let left' := left.filter (· != b)
  (BitVec.ofNat 2 a, BitVec.ofNat 2 b, BitVec.ofNat 2 (left'.getD (k.val % 2) 0))

/-- The parameters of this machine. -/
def params : Params where
  reqWrAddr := (requestCodeTriple requestCodes).1
  reqWrData := (requestCodeTriple requestCodes).2.1
  reqRdData := (requestCodeTriple requestCodes).2.2
  ackNack := ackNack
  ctrlDest := ctrlDest
  ctrlSrc := ctrlSrc
  tResp := tResp.val
  tDrain := tDrain.val
  tAck := tAck.val
  pollInterval := pollInterval.val
  joinTimeout := joinTimeout.val

end Sys2Proof.Config
end

