-- ==== Sys2Proof/Syntax.lean ====
section
/-! DEFINITION. The commands of the command port (R120) and the wire words of the four frame layouts (R101 to R104), one
constructor per row of the opcode table; and the typed operand values a command carries (R8, R124). -/

namespace Sys2Proof

/-- One operand value at the command port (R8, R124). Every unsigned operand is a natural number that the rule using
it range-checks, never the port. -/
inductive Operand where
  /-- An integer that may be negative: only BV_FROM_VALUE's `value` (R141). -/
  | int (z : Int)
  | nat (n : Nat)
  | bv (v : Bv)
  | bytes (b : List Byte)
  | poly (p : Poly)
  | frame (f : Frame)
  | fields (r : Record)
  /-- WRITE_REGISTERS' list of (address, value) pairs. -/
  | pairs (l : List (Nat × Nat))
  /-- READ_REGISTERS' list of addresses. -/
  | addrs (l : List Nat)
  | bool (b : Bool)
  /-- DEMUX_WRITE's opaque item. -/
  | item (v : Value)
  | chan (c : Chan)
deriving DecidableEq, Repr

/-- The instructions: 28 commands (R120) and the words of the 4 frame layouts (R101 to R104). -/
inductive Instr where
  | bvFromValue (value : Int) (size : Nat)
  | bvToValue (v : Bv)
  | bvFromBytes (b : List Byte)
  | bvToBytes (v : Bv)
  | bvAppendRight (a b : Bv)
  | bvAppendLeft (a b : Bv)
  | bvPopLeft (v : Bv) (k : Nat)
  | bvPopRight (v : Bv) (k : Nat)
  | bvConcat (a b : Bv)
  | bvReverse (v : Bv)
  | bvEq (a b : Bv)
  | bvLen (v : Bv)
  | polyNew (value degree repr : Nat)
  | polyToRepr (p : Poly) (repr : Nat)
  | crc (data : Bv) (p : Poly) (start : Option Nat)
  | frameBuild (type : Nat) (fields : Record)
  | frameBuildCrc (type : Nat) (fields : Record) (crc : Nat)
  | frameEncode (f : Frame)
  | frameDecode (type : Nat) (v : Bv)
  | frameCrcOk (f : Frame)
  | uplinkResolve (b : List Byte)
  | sessionOpen (chipAddress : Nat)
  | sessionClose
  | writeRegisters (ops : List (Nat × Nat))
  | readRegisters (addrs : List Nat) (attemptAlignment : Bool)
  | statusRead
  | demuxWrite (value : Value) (dest : Chan)
  | demuxRead (source : Chan) (timeout : Duration)
  | frameDl40 (chip seq : BitVec 4) (rt : BitVec 2) (payload crc : BitVec 15)
  | frameAck24 (ack : BitVec 2) (seq : BitVec 4) (cp ta sa se oe : BitVec 1) (ts : BitVec 6) (crc : BitVec 4)
  | frameRd24 (data : BitVec 15) (seq crc : BitVec 3)
  | frameHit24 (raw : BitVec 23)
deriving DecidableEq, Repr

end Sys2Proof
end

