-- ==== Sys2Proof/WellFormed.lean ====
section
/-! DEFINITION. Which operand values exist: a polynomial operand is a polynomial value (R170) and a frame operand is a
frame value (R200). Every other operand is any value of its type: its range is checked by the rule that uses it,
and an out-of-range value has the error that rule names (R124). -/

namespace Sys2Proof

/-- R170: `1 <= d <= DEG_MAX`, `0 <= N < 2^d` and `N[0] = 1`. -/
def Poly.wellFormed (p : Poly) : Bool :=
  decide (1 ≤ p.degree) && decide (p.degree ≤ Config.degMax) && decide (p.normal < 2 ^ p.degree) &&
    p.normal.testBit 0

/-- Every field value fits the width declared for it, and there is one value per field (R200). -/
def fitWidths : List Nat → List Nat → Bool
  | [], [] => true
  | w :: ws, x :: xs => decide (x < 2 ^ w) && fitWidths ws xs
  | _, _ => false

/-- R200: one in-range value per field of the type, a crc below `2^d`, and no crc for HIT. -/
def Frame.wellFormed (f : Frame) : Bool :=
  fitWidths (Config.fieldWidths f.type) f.fields &&
    match Config.polyOf f.type, f.crc with
    | some p, some c => decide (c < 2 ^ p.degree)
    | none, none => true
    | _, _ => false

/-- An operand value that exists (R124). -/
def Operand.wellFormed : Operand → Bool
  | .poly p => p.wellFormed
  | .frame f => f.wellFormed
  | .int _ | .nat _ | .bv _ | .bytes _ | .fields _ | .pairs _ | .addrs _ | .bool _ | .item _ | .chan _ => true

/-- An instruction whose operand values exist. -/
def Instr.wellFormed : Instr → Bool
  | .polyToRepr p _ => p.wellFormed
  | .crc _ p _ => p.wellFormed
  | .frameEncode f => f.wellFormed
  | .frameCrcOk f => f.wellFormed
  | .bvFromValue _ _ | .bvToValue _ | .bvFromBytes _ | .bvToBytes _ | .bvAppendRight _ _ | .bvAppendLeft _ _
  | .bvPopLeft _ _ | .bvPopRight _ _ | .bvConcat _ _ | .bvReverse _ | .bvEq _ _ | .bvLen _ | .polyNew _ _ _
  | .frameBuild _ _ | .frameBuildCrc _ _ _ | .frameDecode _ _ | .uplinkResolve _ | .sessionOpen _ | .sessionClose
  | .writeRegisters _ | .readRegisters _ _ | .statusRead | .demuxWrite _ _ | .demuxRead _ _
  | .frameDl40 _ _ _ _ _ | .frameAck24 _ _ _ _ _ _ _ _ _ | .frameRd24 _ _ _ | .frameHit24 _ => true

end Sys2Proof
end

