-- ==== Sys2Proof/Decode.lean ====
section
/-! DEFINITION. From what stands at a port to an instruction, and back. The command port carries transactions: an 8-bit
command code with typed operand values (R8, R120, R124). The spec gives the operands no binary form and this model
invents none (assumption log 3). The transport port carries frame words: 40 bits down, 24 bits up (R111). -/

namespace Sys2Proof

/-- The 28 commands of R120, by name. -/
inductive Command where
  | bvFromValue | bvToValue | bvFromBytes | bvToBytes | bvAppendRight | bvAppendLeft | bvPopLeft | bvPopRight
  | bvConcat | bvReverse | bvEq | bvLen
  | polyNew | polyToRepr | crc
  | frameBuild | frameBuildCrc | frameEncode | frameDecode | frameCrcOk | uplinkResolve
  | sessionOpen | sessionClose | writeRegisters | readRegisters | statusRead
  | demuxWrite | demuxRead
deriving DecidableEq, Repr

/-- The command codes of R120. -/
def Command.code : Command → BitVec 8
  | .bvFromValue => 0x01 | .bvToValue => 0x02 | .bvFromBytes => 0x03 | .bvToBytes => 0x04
  | .bvAppendRight => 0x05 | .bvAppendLeft => 0x06 | .bvPopLeft => 0x07 | .bvPopRight => 0x08
  | .bvConcat => 0x09 | .bvReverse => 0x0A | .bvEq => 0x0B | .bvLen => 0x0C
  | .polyNew => 0x10 | .polyToRepr => 0x11 | .crc => 0x12
  | .frameBuild => 0x20 | .frameBuildCrc => 0x21 | .frameEncode => 0x22 | .frameDecode => 0x23
  | .frameCrcOk => 0x24 | .uplinkResolve => 0x25
  | .sessionOpen => 0x30 | .sessionClose => 0x31 | .writeRegisters => 0x33 | .readRegisters => 0x34
  | .statusRead => 0x35
  | .demuxWrite => 0x40 | .demuxRead => 0x41

/-- Every command, in the order of R120. -/
def Command.all : List Command :=
  [.bvFromValue, .bvToValue, .bvFromBytes, .bvToBytes, .bvAppendRight, .bvAppendLeft, .bvPopLeft, .bvPopRight,
    .bvConcat, .bvReverse, .bvEq, .bvLen] ++
  [.polyNew, .polyToRepr, .crc] ++
  [.frameBuild, .frameBuildCrc, .frameEncode, .frameDecode, .frameCrcOk, .uplinkResolve] ++
  [.sessionOpen, .sessionClose, .writeRegisters, .readRegisters, .statusRead] ++
  [.demuxWrite, .demuxRead]

/-- The command a code names; none for a reserved code (R123). -/
def Command.ofCode (c : BitVec 8) : Option Command := Command.all.find? (fun k => k.code == c)

/-- What stands at a port for the core to take: a command with its operands, or a frame word on the wire. -/
inductive PortWord where
  /-- A code and its operand values at the command port. -/
  | command (code : BitVec 8) (operands : List Operand)
  /-- A 40-bit word handed to the transport (R111). -/
  | down (w : BitVec 40)
  /-- A 24-bit word received from the transport on the control channel (R111). -/
  | up (w : BitVec 24)
deriving DecidableEq, Repr

/-- Why a port word is no instruction. -/
inductive DecodeError where
  /-- A command code outside R120 (R123). -/
  | reservedCode (code : BitVec 8)
  /-- Operands that are not of the number and types the command has in R120: no value of the command type (R8). -/
  | operandShape (c : Command)
  /-- A polynomial or frame operand that is no polynomial or frame value (R170, R200). -/
  | operandValue (c : Command)
  /-- A 24-bit word that begins `110` or `111` (R105). -/
  | noFrame (w : BitVec 24)
deriving DecidableEq, Repr

/-- The operands of each command (R120), an operand left out taking its stated default (R121). -/
def decodeOperands : Command → List Operand → Option Instr
  | .bvFromValue, [.int v, .nat n] => some (.bvFromValue v n)
  | .bvToValue, [.bv v] => some (.bvToValue v)
  | .bvFromBytes, [.bytes b] => some (.bvFromBytes b)
  | .bvToBytes, [.bv v] => some (.bvToBytes v)
  | .bvAppendRight, [.bv a, .bv b] => some (.bvAppendRight a b)
  | .bvAppendLeft, [.bv a, .bv b] => some (.bvAppendLeft a b)
  | .bvPopLeft, [.bv v, .nat k] => some (.bvPopLeft v k)
  | .bvPopRight, [.bv v, .nat k] => some (.bvPopRight v k)
  | .bvConcat, [.bv a, .bv b] => some (.bvConcat a b)
  | .bvReverse, [.bv v] => some (.bvReverse v)
  | .bvEq, [.bv a, .bv b] => some (.bvEq a b)
  | .bvLen, [.bv v] => some (.bvLen v)
  | .polyNew, [.nat v, .nat d, .nat r] => some (.polyNew v d r)
  | .polyToRepr, [.poly p, .nat r] => some (.polyToRepr p r)
  | .crc, [.bv d, .poly p] => some (.crc d p none)
  | .crc, [.bv d, .poly p, .nat i] => some (.crc d p (some i))
  | .frameBuild, [.nat t, .fields r] => some (.frameBuild t r)
  | .frameBuildCrc, [.nat t, .fields r, .nat c] => some (.frameBuildCrc t r c)
  | .frameEncode, [.frame f] => some (.frameEncode f)
  | .frameDecode, [.nat t, .bv v] => some (.frameDecode t v)
  | .frameCrcOk, [.frame f] => some (.frameCrcOk f)
  | .uplinkResolve, [.bytes b] => some (.uplinkResolve b)
  | .sessionOpen, [.nat a] => some (.sessionOpen a)
  | .sessionClose, [] => some .sessionClose
  | .writeRegisters, [.pairs l] => some (.writeRegisters l)
  | .readRegisters, [.addrs l] => some (.readRegisters l true)
  | .readRegisters, [.addrs l, .bool b] => some (.readRegisters l b)
  | .statusRead, [] => some .statusRead
  | .demuxWrite, [.item v, .chan d] => some (.demuxWrite v d)
  | .demuxRead, [.chan c, .nat t] => some (.demuxRead c t)
  | _, _ => none

/-- A code and its operands as an instruction (R120), rejecting by name. -/
def decodeCommand (code : BitVec 8) (ops : List Operand) : Except DecodeError Instr :=
  match Command.ofCode code with
  | none => .error (.reservedCode code)
  | some c =>
    if ops.all Operand.wellFormed then
      match decodeOperands c ops with
      | some i => .ok i
      | none => .error (.operandShape c)
    else .error (.operandValue c)

/-- The Downlink layout (R101): every 40-bit word is one (R105). -/
def decodeDown (w : BitVec 40) : Instr :=
  .frameDl40 (w.extractLsb' 36 4) (w.extractLsb' 32 4) (w.extractLsb' 30 2) (w.extractLsb' 15 15)
    (w.extractLsb' 0 15)

/-- The uplink layouts (R102 to R104), told apart by the prefix (R105) in the order HIT, ACK, RD (R211). -/
def decodeUp (w : BitVec 24) : Except DecodeError Instr :=
  if w.extractLsb' 23 1 = 0#1 then .ok (.frameHit24 (w.extractLsb' 0 23))
  else if w.extractLsb' 21 3 = 0b100#3 then
    .ok (.frameAck24 (w.extractLsb' 19 2) (w.extractLsb' 15 4) (w.extractLsb' 14 1) (w.extractLsb' 13 1)
      (w.extractLsb' 12 1) (w.extractLsb' 11 1) (w.extractLsb' 10 1) (w.extractLsb' 4 6) (w.extractLsb' 0 4))
  else if w.extractLsb' 21 3 = 0b101#3 then
    .ok (.frameRd24 (w.extractLsb' 6 15) (w.extractLsb' 3 3) (w.extractLsb' 0 3))
  else .error (.noFrame w)

/-- The instruction a port word stands for, or the name of why there is none. -/
def decode : PortWord → Except DecodeError Instr
  | .command code ops => decodeCommand code ops
  | .down w => .ok (decodeDown w)
  | .up w => decodeUp w

/-! ### The encoder -/

/-- The 40-bit word of a Downlink frame (R101): `aaaassssttpppppppppppppppccccccccccccccc`. -/
def encodeDl40 (chip seq : BitVec 4) (rt : BitVec 2) (payload crc : BitVec 15) : BitVec 40 :=
  chip ++ seq ++ rt ++ payload ++ crc

/-- The 24-bit word of an UplinkAck frame (R102): `100kkssssPTYEOttttttcccc`. -/
def encodeAck24 (ack : BitVec 2) (seq : BitVec 4) (cp ta sa se oe : BitVec 1) (ts : BitVec 6) (crc : BitVec 4) :
    BitVec 24 :=
  0b100#3 ++ ack ++ seq ++ cp ++ ta ++ sa ++ se ++ oe ++ ts ++ crc

/-- The 24-bit word of an UplinkReadData frame (R103): `101dddddddddddddddsssccc`. -/
def encodeRd24 (data : BitVec 15) (seq crc : BitVec 3) : BitVec 24 :=
  0b101#3 ++ data ++ seq ++ crc

/-- The 24-bit word of an UplinkHitData frame (R104): `0rrrrrrrrrrrrrrrrrrrrrrr`. -/
def encodeHit24 (raw : BitVec 23) : BitVec 24 := 0#1 ++ raw

/-- The port word of an instruction. -/
def encode : Instr → PortWord
  | .bvFromValue v n => .command Command.bvFromValue.code [.int v, .nat n]
  | .bvToValue v => .command Command.bvToValue.code [.bv v]
  | .bvFromBytes b => .command Command.bvFromBytes.code [.bytes b]
  | .bvToBytes v => .command Command.bvToBytes.code [.bv v]
  | .bvAppendRight a b => .command Command.bvAppendRight.code [.bv a, .bv b]
  | .bvAppendLeft a b => .command Command.bvAppendLeft.code [.bv a, .bv b]
  | .bvPopLeft v k => .command Command.bvPopLeft.code [.bv v, .nat k]
  | .bvPopRight v k => .command Command.bvPopRight.code [.bv v, .nat k]
  | .bvConcat a b => .command Command.bvConcat.code [.bv a, .bv b]
  | .bvReverse v => .command Command.bvReverse.code [.bv v]
  | .bvEq a b => .command Command.bvEq.code [.bv a, .bv b]
  | .bvLen v => .command Command.bvLen.code [.bv v]
  | .polyNew v d r => .command Command.polyNew.code [.nat v, .nat d, .nat r]
  | .polyToRepr p r => .command Command.polyToRepr.code [.poly p, .nat r]
  | .crc d p none => .command Command.crc.code [.bv d, .poly p]
  | .crc d p (some i) => .command Command.crc.code [.bv d, .poly p, .nat i]
  | .frameBuild t r => .command Command.frameBuild.code [.nat t, .fields r]
  | .frameBuildCrc t r c => .command Command.frameBuildCrc.code [.nat t, .fields r, .nat c]
  | .frameEncode f => .command Command.frameEncode.code [.frame f]
  | .frameDecode t v => .command Command.frameDecode.code [.nat t, .bv v]
  | .frameCrcOk f => .command Command.frameCrcOk.code [.frame f]
  | .uplinkResolve b => .command Command.uplinkResolve.code [.bytes b]
  | .sessionOpen a => .command Command.sessionOpen.code [.nat a]
  | .sessionClose => .command Command.sessionClose.code []
  | .writeRegisters l => .command Command.writeRegisters.code [.pairs l]
  | .readRegisters l b => .command Command.readRegisters.code [.addrs l, .bool b]
  | .statusRead => .command Command.statusRead.code []
  | .demuxWrite v d => .command Command.demuxWrite.code [.item v, .chan d]
  | .demuxRead c t => .command Command.demuxRead.code [.chan c, .nat t]
  | .frameDl40 a s t p c => .down (encodeDl40 a s t p c)
  | .frameAck24 k s cp ta sa se oe t c => .up (encodeAck24 k s cp ta sa se oe t c)
  | .frameRd24 d s c => .up (encodeRd24 d s c)
  | .frameHit24 r => .up (encodeHit24 r)

/-! ### Words of the opcode table -/

/-- The operands a command has where the opcode table gives it no more than its code: 0, the empty vector, the empty
list, false, and for a polynomial or a frame the least one that exists (assumption log 3). -/
def zeroOperands : Command → List Operand
  | .bvFromValue => [.int 0, .nat 0]
  | .bvToValue | .bvToBytes | .bvReverse | .bvLen => [.bv []]
  | .bvFromBytes | .uplinkResolve => [.bytes []]
  | .bvAppendRight | .bvAppendLeft | .bvConcat | .bvEq => [.bv [], .bv []]
  | .bvPopLeft | .bvPopRight => [.bv [], .nat 0]
  | .polyNew => [.nat 0, .nat 0, .nat 0]
  | .polyToRepr => [.poly ⟨1, 1⟩, .nat 0]
  | .crc => [.bv [], .poly ⟨1, 1⟩]
  | .frameBuild => [.nat 0, .fields []]
  | .frameBuildCrc => [.nat 0, .fields [], .nat 0]
  | .frameEncode | .frameCrcOk => [.frame ⟨.dl, [0, 0, 0, 0], some 0⟩]
  | .frameDecode => [.nat 0, .bv []]
  | .sessionOpen => [.nat 0]
  | .sessionClose | .statusRead => []
  | .writeRegisters => [.pairs []]
  | .readRegisters => [.addrs [], .bool false]
  | .demuxWrite => [.item (.bytes []), .chan 0]
  | .demuxRead => [.chan 0, .nat 0]

/-- The port word of an opcode-table word: a frame word of 40 or 24 bits, or a code of 8 with operands of zeros. A frame is
one word whose bit 0 is its last transmitted bit (R11, R100). -/
def tablePortWord (nbits w : Nat) : PortWord :=
  if nbits = 40 then .down (BitVec.ofNat 40 w)
  else if nbits = 24 then .up (BitVec.ofNat 24 w)
  else .command (BitVec.ofNat 8 w) (((Command.ofCode (BitVec.ofNat 8 w)).map zeroOperands).getD [])

/-- The instruction the decoder reads from an opcode-table word. -/
def decodeTableWord (nbits w : Nat) : Option Instr :=
  match decode (tablePortWord nbits w) with
  | .ok i => some i
  | .error _ => none

end Sys2Proof
end

