-- ==== Sys2Proof/Machine/State.lean ====
section
/-! DEFINITION. The state of the machine as plain data: the session state `S` of 10_state.md (R34 to R48, R51), the
commands in progress in the HOST threads with the point each has reached (R8, R33), the responses, the history of
the transport port, and the choices of HOST, ENV and the scheduler still to come (assumption logs 4 and 5). -/

namespace Sys2Proof.Machine

/-! ### Result flags, statuses and responses (R49, R330, R331) -/

/-- The `kind` result of UPLINK_RESOLVE (R49, R110). -/
inductive Kind where
  | hit | ack | rd | noFrame
deriving DecidableEq, Repr

/-- The sub-causes of CONSTRUCTION_ERROR (R331). -/
inductive SubCause where
  | valueRange | widthMismatch | popUnderflow | polyImplicitBit | badDegree | badRepr | capacity | badFrameType
deriving DecidableEq, Repr

/-- The name of the operand or field that failed (R331). -/
inductive OperandName where
  | value | size | bv | bytes | a | b | v | k | degree | repr | poly | data | init | type | fields | crc | frame
  | chipAddress
  /-- A field of a frame. -/
  | field (f : FieldName)
deriving DecidableEq, Repr

/-- The info record of CONSTRUCTION_ERROR: `(sub-cause, operand, value)` (R331). -/
structure ConstructionError where
  sub : SubCause
  operand : OperandName
  value : Operand
deriving DecidableEq, Repr

/-- The status of a response with the info it records (R330). -/
inductive Status where
  | ok
  | prefixMismatch
  | nodata
  /-- `(S.exp, S.ret)` (R336). -/
  | readFailure (exp : List (BitVec 3)) (ret : List (BitVec 3 × BitVec 15))
  | constructionError (e : ConstructionError)
  /-- `S.fault_info` (R335). -/
  | transportError (info : Option ErrInfo)
  | notOpen
  | alreadyOpen
  | illegalCommand (code : BitVec 8)
  | joinTimeout
deriving DecidableEq, Repr

/-- S.session (R34). -/
inductive SessionMode where
  | closed | opened | stopping
deriving DecidableEq, Repr

/-- S.rap_phase (R38). -/
inductive RapPhase where
  | idle | wSend | wAck | rSend | rCollect | rDrainRd | rDrainAck | rAlign | closing
deriving DecidableEq, Repr

/-- The state of a worker (R48). -/
inductive Worker where
  | running | exited | halted
deriving DecidableEq, Repr

/-- The record STATUS_READ returns (R42). -/
structure StatusRecord where
  session : SessionMode
  chipAddr : BitVec 4
  seq : BitVec 4
  fault : Bool
  rapPhase : RapPhase
  cReq : BitVec 16
  cMatched : BitVec 16
  cNack : BitVec 16
  cAck : BitVec 16
  cCrcBad : BitVec 16
  cHit : BitVec 16
  cUnknown : BitVec 16
  sendqLen : Nat
  readPending : Nat
  wrqLen : Nat
  rxLens : List (Chan × Nat)
deriving DecidableEq, Repr

/-- The result of a command (R120), with its result flags (R49). -/
inductive Result where
  | none
  | bv (v : Bv)
  | nat (n : Nat)
  | bytes (b : List Byte)
  /-- BV_POP_LEFT and BV_POP_RIGHT: `(removed, rest)`. -/
  | popped (removed rest : Bv)
  /-- BV_EQ's `eq` flag and FRAME_CRC_OK's `crc_ok` flag. -/
  | bool (b : Bool)
  | poly (p : Poly)
  | frame (f : Frame)
  /-- FRAME_ENCODE: `(bv, bytes)`. -/
  | encoded (v : Bv) (b : List Byte)
  /-- FRAME_DECODE: the frame and `crc_ok`, which is none for HIT. -/
  | decoded (f : Frame) (crcOk : Option Bool)
  /-- UPLINK_RESOLVE: the kind, and the frame with its `crc_ok` unless the kind is NO_FRAME. -/
  | resolved (kind : Kind) (frame : Option (Frame × Option Bool))
  /-- READ_REGISTERS: one element per address, `Option.none` being MISSING. -/
  | reads (l : List (Option (BitVec 15)))
  | item (v : Value)
  | status (r : StatusRecord)
deriving DecidableEq, Repr

/-- A response: its status code with info, and its result (R330). -/
structure Response where
  status : Status
  result : Result
deriving DecidableEq, Repr

/-! ### The session state S.* -/

/-- A decoded CRC-protected uplink frame with its `crc_ok` flag, as READ_FRAME hands it on (R252). -/
structure RxFrame where
  frame : Frame
  crcOk : Bool
deriving DecidableEq, Repr

/-- The session state (10_state.md): every item `S.*` of rules R34 to R48. The ROM of R30 and R31 is in Config. -/
structure SessionState where
  /-- S.session (R34). -/
  session : SessionMode
  /-- S.chip_addr (R35). -/
  chipAddr : BitVec 4
  /-- S.seq (R36). -/
  seq : BitVec 4
  /-- S.fault (R37). -/
  fault : Bool
  /-- S.fault_info (R37). -/
  faultInfo : Option ErrInfo
  /-- S.rap_phase (R38). -/
  rapPhase : RapPhase
  /-- S.exp (R39). -/
  exp : List (BitVec 3)
  /-- S.ret (R39): `(sequence_number, data)`. -/
  ret : List (BitVec 3 × BitVec 15)
  /-- S.res (R39). -/
  res : List (Option (BitVec 15))
  /-- S.pend[ACK] (R40). -/
  pendAck : List RxFrame
  /-- S.pend[RD] (R40). -/
  pendRd : List RxFrame
  /-- S.c_req (R41). -/
  cReq : BitVec 16
  /-- S.c_matched (R41). -/
  cMatched : BitVec 16
  /-- S.c_nack (R41). -/
  cNack : BitVec 16
  /-- S.c_ack (R41). -/
  cAck : BitVec 16
  /-- S.c_crc_bad (R41). -/
  cCrcBad : BitVec 16
  /-- S.c_hit (R41). -/
  cHit : BitVec 16
  /-- S.c_unknown (R41). -/
  cUnknown : BitVec 16
  /-- S.sendq (R43), head first. -/
  sendq : List Item
  /-- S.stage (R44). -/
  stage : Option Item
  /-- S.wrq (R45), head first. -/
  wrq : List Item
  /-- S.read_pending (R45). -/
  readPending : Nat
  /-- S.rxq[*] (R46): the non-empty queues by source, in rising order of source; a source not listed has an empty queue. -/
  rxq : List (Chan × List Value)
  /-- S.stop (R47). -/
  stop : Bool
  /-- S.w[SENDW] (R48). -/
  wSend : Worker
  /-- S.w[POLLW] (R48). -/
  wPoll : Worker
  /-- S.w[COMM] (R48). -/
  wComm : Worker
deriving DecidableEq, Repr

/-- Every item at its "at block reset" value (R51). -/
def SessionState.reset : SessionState where
  session := .closed
  chipAddr := 0
  seq := 0
  fault := false
  faultInfo := none
  rapPhase := .idle
  exp := []
  ret := []
  res := []
  pendAck := []
  pendRd := []
  cReq := 0
  cMatched := 0
  cNack := 0
  cAck := 0
  cCrcBad := 0
  cHit := 0
  cUnknown := 0
  sendq := []
  stage := none
  wrq := []
  readPending := 0
  rxq := []
  stop := false
  wSend := .exited
  wPoll := .exited
  wComm := .exited

/-! ### Commands in progress (R8, R33, R38)

A command that takes more than one atomic step leaves, between its steps, the point it has reached. These are the
points between the pseudocode lines of 43_protocol.md and 44_arbiter.md (assumption log 6). -/

/-- The control kind a READ_FRAME waits for (R252). -/
inductive CtrlKind where
  | ack | rd
deriving DecidableEq, Repr

/-- Where a READ_FRAME stands (R252). -/
inductive FramePc where
  /-- Before the look into `S.pend[kind]`. -/
  | start
  /-- At the head of the loop: before the fault check. -/
  | check
  /-- Inside the WaitPop on `S.rxq[CTRL_SRC]`. -/
  | wait
  /-- After the WaitPop delivered `x`. -/
  | got (x : Value)
deriving DecidableEq, Repr

/-- Where a WRITE_REGISTERS stands once it holds the phase (R241, R250, R251). -/
inductive WritePc where
  /-- In ADMIT, before the line that sets the seven counters to 0 (R241). -/
  | counters (frames : List (Config.ReqKind × Nat))
  /-- In ADMIT, before the line that empties S.exp, S.ret and S.res (R241). -/
  | lists (frames : List (Config.ReqKind × Nat))
  /-- Before SEND_DL's fault check for the head of `frames`; with no frame left, before `S.rap_phase <- W_ACK`. -/
  | send (frames : List (Config.ReqKind × Nat))
  /-- Before SEQ_NEXT, SEND_DL's step 1. -/
  | draw (rt : Config.ReqKind) (payload : Nat) (frames : List (Config.ReqKind × Nat))
  /-- Before the build and push, SEND_DL's step 2, with the number drawn. -/
  | push (s : BitVec 4) (rt : Config.ReqKind) (payload : Nat) (frames : List (Config.ReqKind × Nat))
  /-- In DRAIN(ACK, T_ACK, discard). -/
  | drain (pc : FramePc)
  /-- Before `return OK`. -/
  | ret
deriving DecidableEq, Repr

/-- Where a READ_REGISTERS stands once it holds the phase (R241, R255 to R261). -/
inductive ReadPc where
  /-- In ADMIT, before the line that sets the seven counters to 0 (R241). -/
  | counters (addrs : List Nat)
  /-- In ADMIT, before the line that empties S.exp, S.ret and S.res (R241). -/
  | lists (addrs : List Nat)
  /-- Before SEND_DL's fault check for the head of `addrs`; with none left, before `S.rap_phase <- R_COLLECT`. -/
  | send (addrs : List Nat)
  /-- Before SEQ_NEXT. -/
  | draw (a : Nat) (addrs : List Nat)
  /-- Before the build and push, with the number drawn. -/
  | push (s : BitVec 4) (a : Nat) (addrs : List Nat)
  /-- Before `Inc(S.c_req)`. -/
  | count (addrs : List Nat)
  /-- In step 2 with `left` attempts still to make, the running one among them. -/
  | collect (left : Nat) (pc : FramePc)
  /-- Before the first GUARD (R259). -/
  | guardFirst
  /-- In step 4's DRAIN(RD, T_DRAIN, KEEP). -/
  | drainRd (pc : FramePc)
  /-- Before `S.rap_phase <- R_DRAIN_ACK`. -/
  | toDrainAck
  /-- In step 4's DRAIN(ACK, T_ACK, discard). -/
  | drainAck (pc : FramePc)
  /-- Before the second GUARD. -/
  | guardAgain
  /-- Before `S.rap_phase <- R_DRAIN_RD`. -/
  | toDrainRd
  /-- Before step 5 (R261). -/
  | stepFive
  /-- Before ALIGN (R276: one atomic step). -/
  | align
  /-- In step 5's loop, with the mapping's entries still to take. -/
  | fill (m : List (Option Nat))
  /-- In FAST, before the assignments (R259). -/
  | fast
  /-- Before `return S.res`. -/
  | ret
deriving DecidableEq, Repr

/-- A blocking command whose lines before its wait are taken one at a time: the second check, and what follows it
(R241, R301). -/
inductive Apart where
  | write (ops : List (Nat × Nat))
  | read (addrs : List Nat) (attemptAlignment : Bool)
  | demux (source : Chan) (timeout : Duration)
  /-- A WRITE_REGISTERS or READ_REGISTERS whose session has left OPEN since its check (R244; assumption log 12). -/
  | admitEnded
  /-- A DEMUX_READ whose session has left OPEN since its check (R301; assumption log 12). -/
  | demuxEnded
deriving DecidableEq, Repr

/-- A command in progress in a HOST thread. -/
inductive Task where
  /-- A blocking command between its check of S.session and its check of S.fault (R241, R301; assumption log 7). -/
  | apart (c : Apart)
  /-- WRITE_REGISTERS waiting in ADMIT (R241, R249). -/
  | admitWrite (ops : List (Nat × Nat))
  /-- READ_REGISTERS waiting in ADMIT. -/
  | admitRead (addrs : List Nat) (attemptAlignment : Bool)
  /-- WRITE_REGISTERS or READ_REGISTERS waiting in ADMIT, whose session has left OPEN since it came there (R244). -/
  | admitEnded
  /-- WRITE_REGISTERS that holds the phase (R241, R249). -/
  | write (pc : WritePc)
  /-- READ_REGISTERS of `n` addresses that holds the phase. -/
  | read (n : Nat) (attemptAlignment : Bool) (pc : ReadPc)
  /-- SESSION_CLOSE waiting for the running RAP command (R244). -/
  | closeWait
  /-- SESSION_CLOSE that waited while another close stopped the session (R244, D44). -/
  | closeEnded
  /-- SESSION_CLOSE with the phase at CLOSING, before SHUTDOWN's step 1 (R315). -/
  | closeStop
  /-- SESSION_CLOSE in JOIN (R316). -/
  | closeJoin
  /-- SESSION_CLOSE after JOIN, before `return that status` (R244). -/
  | closeRet (st : Status)
  /-- DEMUX_READ in its WaitPop (R301). -/
  | demuxWait (source : Chan) (timeout : Duration)
  /-- DEMUX_READ whose wait ended because the session left OPEN (R301, R315). -/
  | demuxEnded
  /-- DEMUX_WRITE waiting for room in a send queue with a finite SENDQ_CAP (R300, R318). -/
  | demuxRoom (value : Value) (dest : Chan)
deriving DecidableEq, Repr

/-! ### The choices of the other agents -/

/-- ENV's answer to a TP_Read (R290). -/
inductive ReadAnswer where
  | nodata
  | data (src : Chan) (value : Value)
  | err (info : ErrInfo)
deriving DecidableEq, Repr

/-- ENV's answer to a TP_Write (R290). -/
inductive WriteAnswer where
  | ok
  | err (info : ErrInfo)
deriving DecidableEq, Repr

/-- One operation on the transport port with its outcome: the model's record of what crossed the port (R290). -/
inductive TpEvent where
  | wrote (item : Item) (answer : WriteAnswer)
  | read (answer : ReadAnswer)
deriving DecidableEq, Repr

/-- One choice of who steps next and of what HOST, ENV or time does in that step (R7, R15, R292, R293). A choice that
names a step that is not enabled changes nothing. -/
inductive Input where
  /-- HOST thread `thread` issues a command (R8). -/
  | issue (thread : ThreadId) (code : BitVec 8) (operands : List Operand)
  /-- HOST thread `thread` issues a command, and other agents may step between the lines before its wait (R8;
  assumption log 7). -/
  | issueApart (thread : ThreadId) (code : BitVec 8) (operands : List Operand)
  /-- The 40-bit Downlink word `w`, whose bytes stand at the head of `S.wrq`, crosses the port: COMM's TP_Write, answered
  `ok` (R290, R310). -/
  | down (w : BitVec 40)
  /-- The 24-bit uplink word `w` crosses the port on CTRL_SRC: COMM's TP_Read, answered with it (R290, R311). -/
  | up (w : BitVec 24)
  /-- The command in progress in `thread` takes its next step. -/
  | advance (thread : ThreadId)
  /-- The timeout that the command in progress in `thread` waits under fires (R15, R316). -/
  | timeout (thread : ThreadId)
  /-- SENDW takes a step (R305). -/
  | sendw
  /-- POLLW takes a step (R307). -/
  | pollw
  /-- COMM takes a step, ENV answering a TP_Write by `onWrite` and a TP_Read by `onRead` (R309). -/
  | comm (onWrite : WriteAnswer) (onRead : ReadAnswer)
  /-- RST is asserted (R360). -/
  | rst
deriving DecidableEq, Repr

/-! ### The machine's state -/

/-- The state of the machine. -/
structure State where
  /-- The session state (10_state.md). -/
  S : SessionState
  /-- The commands in progress by thread, in rising order of thread; a thread not listed has none (R8). -/
  threads : List (ThreadId × Task)
  /-- The thread whose command is being issued: the MODEL's own field, set by step before exec. -/
  caller : ThreadId
  /-- The responses given so far, oldest first (R8, R32): the MODEL's own record. -/
  out : List (ThreadId × Response)
  /-- The operations on the transport port so far, oldest first (R290): the MODEL's own record. -/
  wire : List TpEvent
  /-- The choices still to come, next first (R293): the MODEL's own field. -/
  inputs : List Input
deriving DecidableEq, Repr

/-- The machine right after RST or power-on (R360, R51): every item of `S` at its block-reset value, no command in
progress, nothing yet said at any port, and no choice made. -/
def State.reset : State where
  S := SessionState.reset
  threads := []
  caller := 0
  out := []
  wire := []
  inputs := []

/-- Faults: there are none. The core has no trap and nothing of its own stops it (R342, R343): every error the spec
names is a status of a response. -/
inductive Fault where
deriving DecidableEq, Repr

/-- Refusals of a step. -/
inductive Refusal where
  /-- An arm of exec without a meaning. No arm raises it. Safe: the machine stops. -/
  | notModelled (mnemonic : String)
  /-- Raised by step where a thread hands the port a code of R120 with operands that are no value of the command type
  (R8, R124): a wrong number or type, or a polynomial or frame that does not exist (R170, R200). No such command can
  be issued, so the spec gives it no effect. Safe: the machine stops. -/
  | notACommand (e : DecodeError)
deriving DecidableEq, Repr

end Sys2Proof.Machine
end

