-- ==== Sys2Proof/Machine/Assoc.lean ====
section
/-! DEFINITION. Finite maps from numbers as lists of pairs in one canonical form: keys strictly rising. The receive queues
(R46) and the commands in progress are held so. -/

namespace Sys2Proof.Machine

/-- The entry of key `k`. -/
def assocGet {α : Type} (k : Nat) : List (Nat × α) → Option α
  | [] => none
  | e :: es => if e.1 = k then some e.2 else assocGet k es

/-- The map without the entry of key `k`. -/
def assocErase {α : Type} (k : Nat) (l : List (Nat × α)) : List (Nat × α) :=
  l.filter (fun e => e.1 != k)

/-- The map with `v` as the entry of key `k`. -/
def assocInsert {α : Type} (k : Nat) (v : α) : List (Nat × α) → List (Nat × α)
  | [] => [(k, v)]
  | e :: es =>
    if k < e.1 then (k, v) :: e :: es
    else if e.1 = k then (k, v) :: es
    else e :: assocInsert k v es

/-- The canonical form: keys strictly rising. -/
def assocWf {α : Type} : List (Nat × α) → Bool
  | [] => true
  | e :: es => es.all (fun f => decide (e.1 < f.1)) && assocWf es

end Sys2Proof.Machine
end

