-- ==== Sys2Proof/Machine/Ops.lean ====
section
/-! DEFINITION. The named operations over the state: receive queues, counters, commands in progress, responses, the one
operation by which a command ends by an exception (R342) and the one by which it ends normally, the block reset
(R360) and the values at SESSION_OPEN (R361). The core has no memory (R70). -/

namespace Sys2Proof.Machine

/-! ### Receive queues (R46) -/

/-- S.rxq[src]: every source has a queue (R46, D28). -/
def SessionState.rx (S : SessionState) (src : Chan) : List Value := (assocGet src S.rxq).getD []

/-- The queues with S.rxq[src] set to `q`, in the canonical form: an empty queue is not listed. -/
def SessionState.setRx (S : SessionState) (src : Chan) (q : List Value) : SessionState :=
  { S with rxq := if q.isEmpty then assocErase src S.rxq else assocInsert src q S.rxq }

/-- Push(S.rxq[src], v) (R14, R311). -/
def SessionState.pushRx (S : SessionState) (src : Chan) (v : Value) : SessionState :=
  S.setRx src (S.rx src ++ [v])

/-- The canonical form of the receive queues: sources strictly rising and no empty queue listed. -/
def SessionState.rxWf (S : SessionState) : Bool :=
  assocWf S.rxq && S.rxq.all (fun e => !e.2.isEmpty)

/-- How a WaitPop stands after a look at its queue (R15). -/
inductive WaitResult where
  /-- The head was popped. -/
  | popped (v : Value) (S : SessionState)
  | nodata
  /-- The queue is empty and the agent stays waiting. -/
  | waiting

/-- A look at S.rxq[src] inside `WaitPop(S.rxq[src], t)` (R15): a non-empty queue is popped, and with the queue empty a
wait with t = 0 ends with NODATA in the same step. -/
def SessionState.waitPop (S : SessionState) (src : Chan) (t : Duration) : WaitResult :=
  match S.rx src with
  | v :: q => .popped v (S.setRx src q)
  | [] => if t = 0 then .nodata else .waiting

/-! ### Pending buffers and counters (R40, R41, R254) -/

/-- S.pend[kind] (R40). -/
def SessionState.pend (S : SessionState) : CtrlKind → List RxFrame
  | .ack => S.pendAck
  | .rd => S.pendRd

/-- S.pend[kind] set to `q`. -/
def SessionState.setPend (S : SessionState) (k : CtrlKind) (q : List RxFrame) : SessionState :=
  match k with
  | .ack => { S with pendAck := q }
  | .rd => { S with pendRd := q }

/-- Inc(c): one more, saturating at 2^CNT_W - 1 (R254). -/
def inc (c : BitVec 16) : BitVec 16 := BitVec.ofNat 16 (min (c.toNat + 1) (2 ^ Config.cntW - 1))

/-- A number as a counter holds it: saturated at 2^CNT_W - 1 (R41). -/
def saturate (n : Nat) : BitVec 16 := BitVec.ofNat 16 (min n (2 ^ Config.cntW - 1))

/-- ADMIT's line that sets all seven counters to 0 (R241). -/
def SessionState.clearCounters (S : SessionState) : SessionState :=
  { S with cReq := 0, cMatched := 0, cNack := 0, cAck := 0, cCrcBad := 0, cHit := 0, cUnknown := 0 }

/-- ADMIT's line that empties the three transaction registers (R241). -/
def SessionState.clearLists (S : SessionState) : SessionState := { S with exp := [], ret := [], res := [] }

/-! ### The send queue (R43) -/

/-- Push(S.sendq, item) (R300, R251). -/
def SessionState.pushSend (S : SessionState) (item : Item) : SessionState :=
  { S with sendq := S.sendq ++ [item] }

/-- `len(S.sendq) < SENDQ_CAP` (R300): always, with SENDQ_CAP unbounded (D27). -/
def SessionState.sendHasRoom (S : SessionState) : Bool :=
  match Config.sendqCap with
  | none => true
  | some cap => decide (S.sendq.length < cap)

/-! ### Commands in progress and responses (R8) -/

/-- The command in progress in a thread. -/
def State.taskOf (s : State) (t : ThreadId) : Option Task := assocGet t s.threads

/-- The thread has `task` in progress. -/
def State.setTask (s : State) (t : ThreadId) (task : Task) : State :=
  { s with threads := assocInsert t task s.threads }

/-- The thread has no command in progress. -/
def State.dropTask (s : State) (t : ThreadId) : State :=
  { s with threads := assocErase t s.threads }

/-- The session state replaced. -/
def State.withS (s : State) (S : SessionState) : State := { s with S := S }

/-- A response is given to a thread. -/
def State.respond (s : State) (t : ThreadId) (r : Response) : State :=
  { s with out := s.out ++ [(t, r)] }

/-- A transport operation is recorded. -/
def State.record (s : State) (e : TpEvent) : State := { s with wire := s.wire ++ [e] }

/-- A RAP command that passed ADMIT: it holds S.rap_phase (R241, R249). -/
def Task.holdsPhase : Task → Bool
  | .write _ | .read _ _ _ => true
  | .apart _ | .admitWrite _ | .admitRead _ _ | .admitEnded | .closeWait | .closeEnded | .closeStop | .closeJoin
  | .closeRet _ | .demuxWait _ _ | .demuxEnded | .demuxRoom _ _ => false

/-- `S.rap_phase <- IDLE` where the command ending in the thread is a RAP command after ADMIT (R241); otherwise S
as it is. -/
def State.phaseAfter (s : State) (t : ThreadId) : SessionState :=
  match s.taskOf t with
  | some task => if task.holdsPhase then { s.S with rapPhase := .idle } else s.S
  | none => s.S

/-- The command of a thread ends with a response: S.rap_phase returns to IDLE in the same step for a RAP command after
ADMIT (R241), and the thread has no command in progress any more (R8). -/
def State.endCommand (s : State) (t : ThreadId) (r : Response) : State :=
  (({ s with S := s.phaseAfter t }).dropTask t).respond t r

/-- Taking an exception (R342): the command ends in the step that detects it, with the status and its info and no result.
Nothing is saved, no mode changes, no handler runs, and every effect of the steps before stays. -/
def State.takeException (s : State) (t : ThreadId) (st : Status) : State := s.endCommand t ⟨st, .none⟩

/-- The normal end of a command (R14 `return r`): status OK and the result. The core has no return from an exception (R343). -/
def State.finish (s : State) (t : ThreadId) (r : Result) : State := s.endCommand t ⟨.ok, r⟩

/-- A pure command (R9): one atomic step that answers its result, or takes the exception its check raises. -/
def State.answerPure (s : State) (r : Except ConstructionError Result) : Host.Outcome State Fault Refusal :=
  match r with
  | .ok x => .next (s.finish s.caller x)
  | .error e => .next (s.takeException s.caller (.constructionError e))

/-! ### Block reset and session open (R360, R361) -/

/-- RST (R360): every item of S at its block-reset value, and every command in progress ends with NOT_OPEN. The transport
is not touched. -/
def State.blockReset (s : State) : State :=
  { s with
    S := SessionState.reset
    threads := []
    out := s.out ++ s.threads.map (fun e => (e.1, ⟨.notOpen, .none⟩)) }

/-- Every item at its "at SESSION_OPEN" value (R51), S.chip_addr from the operand (R242). -/
def SessionState.atOpen (chip : BitVec 4) : SessionState :=
  { SessionState.reset with
    session := .opened
    chipAddr := chip
    wSend := .running
    wPoll := .running
    wComm := .running }

end Sys2Proof.Machine
end

