-- ==== Sys2Proof/Machine/Operands.lean ====
section
/-! DEFINITION. The pure datapath on operand values: bit vectors (40_bitvector.md), the polynomial converter and the CRC
generator (41_poly_crc.md), and the frame codec (42_frame_codec.md). Each function answers a value or the
ConstructionError of the first check that fails, in the order of its rule (R341). -/

namespace Sys2Proof.Machine

/-- The error of a check (R331). -/
def constructionError {α : Type} (sub : SubCause) (operand : OperandName) (value : Operand) :
    Except ConstructionError α :=
  .error ⟨sub, operand, value⟩

/-! ### Bits and bytes (R11, R13, R73) -/

/-- value(v) (R11): the leftmost bit is the most significant. -/
def bvValue (v : Bv) : Nat := v.foldl (fun acc b => 2 * acc + b.toNat) 0

/-- bits_w(v) (R13): the w bits of v, most significant first. -/
def bits : Nat → Nat → Bv
  | 0, _ => []
  | w + 1, v => v.testBit w :: bits w v

/-- rev_n(v) (R13). -/
def revBits (n v : Nat) : Nat := bvValue (bits n v).reverse

/-- The bits of a byte string, big-endian (R74). -/
def bitsOfBytes (b : List Byte) : Bv := b.flatMap (fun x => bits 8 x.toNat)

/-- The first k bytes of a vector, big-endian (R73). -/
def bytesOfBits : Nat → Bv → List Byte
  | 0, _ => []
  | k + 1, v => BitVec.ofNat 8 (bvValue (v.take 8)) :: bytesOfBits k (v.drop 8)

/-- A result longer than BV_MAX (R140). -/
def overCapacity (n : Nat) : Bool :=
  match Config.bvMax with
  | none => false
  | some m => decide (m < n)

/-! ### Bit vectors (R141 to R150) -/

/-- BV_FROM_VALUE (R141). -/
def bvFromValue (value : Int) (size : Nat) : Except ConstructionError Bv :=
  if value < 0 ∨ (2 ^ size : Nat) ≤ value then constructionError .valueRange .value (.int value)
  else if overCapacity size then constructionError .capacity .size (.nat size)
  else .ok (bits size value.toNat)

/-- BV_FROM_BYTES (R143). -/
def bvFromBytes (b : List Byte) : Except ConstructionError Bv :=
  if overCapacity (8 * b.length) then constructionError .capacity .bytes (.bytes b)
  else .ok (bitsOfBytes b)

/-- BV_TO_BYTES (R144). R144 calls the operand v and R120 calls it bv; that the info record names bv is the model's choice
(assumption log 9). -/
def bvToBytes (v : Bv) : Except ConstructionError (List Byte) :=
  if v.length % 8 ≠ 0 then constructionError .widthMismatch .bv (.bv v)
  else .ok (bytesOfBits (v.length / 8) v)

/-- `a ++ b` with the capacity check (R145, R149), `b` being the operand named where it fails. -/
def bvJoin (a b : Bv) (named : OperandName) (culprit : Bv) : Except ConstructionError Bv :=
  if overCapacity (a ++ b).length then constructionError .capacity named (.bv culprit)
  else .ok (a ++ b)

/-- BV_APPEND_RIGHT (R145). -/
def bvAppendRight (a b : Bv) : Except ConstructionError Bv := bvJoin a b .b b

/-- BV_APPEND_LEFT (R146). -/
def bvAppendLeft (a b : Bv) : Except ConstructionError Bv := bvJoin b a .b b

/-- BV_CONCAT (R149). -/
def bvConcat (a b : Bv) : Except ConstructionError Bv := bvJoin a b .b b

/-- BV_POP_LEFT (R147): `(removed, rest)`. -/
def bvPopLeft (v : Bv) (k : Nat) : Except ConstructionError (Bv × Bv) :=
  if v.length < k then constructionError .popUnderflow .k (.nat k)
  else .ok (v.take k, v.drop k)

/-- BV_POP_RIGHT (R148): `(removed, rest)`. -/
def bvPopRight (v : Bv) (k : Nat) : Except ConstructionError (Bv × Bv) :=
  if v.length < k then constructionError .popUnderflow .k (.nat k)
  else .ok (v.drop (v.length - k), v.take (v.length - k))

/-! ### Polynomials (R170 to R175) -/

/-- The representations (R110). -/
inductive Repn where
  | normal | reversed | koopman
deriving DecidableEq, Repr

/-- The representation a code names (R110); every other code is none. -/
def Repn.ofCode : Nat → Option Repn
  | 0 => some .normal
  | 1 => some .reversed
  | 2 => some .koopman
  | _ => none

/-- ImplicitBitOk (R173). -/
def implicitBitOk (value d : Nat) : Repn → Bool
  | .normal => value.testBit 0
  | .reversed => value.testBit (d - 1)
  | .koopman => value.testBit (d - 1)

/-- The normal form of a value in a representation (R172). -/
def toNormal (value d : Nat) : Repn → Nat
  | .normal => value
  | .reversed => revBits d value
  | .koopman => ((value <<< 1) ||| 1) % 2 ^ d

/-- The value of a polynomial in a representation (R174). -/
def ofNormal (p : Poly) : Repn → Nat
  | .normal => p.normal
  | .reversed => revBits p.degree p.normal
  | .koopman => (p.normal >>> 1) ||| 2 ^ (p.degree - 1)

/-- POLY_NEW (R172). -/
def polyNew (value d repr : Nat) : Except ConstructionError Poly :=
  if d < 1 ∨ Config.degMax < d then constructionError .badDegree .degree (.nat d)
  else
    match Repn.ofCode repr with
    | none => constructionError .badRepr .repr (.nat repr)
    | some r =>
      if 2 ^ d ≤ value then constructionError .valueRange .value (.nat value)
      else if !implicitBitOk value d r then constructionError .polyImplicitBit .value (.nat value)
      else .ok ⟨toNormal value d r, d⟩

/-- POLY_TO_REPR (R174). -/
def polyToRepr (p : Poly) (repr : Nat) : Except ConstructionError Nat :=
  match Repn.ofCode repr with
  | none => constructionError .badRepr .repr (.nat repr)
  | some r => .ok (ofNormal p r)

/-! ### The CRC generator (R176, R177) -/

/-- CRC_STEP (R176). -/
def crcStep (p : Poly) (reg : Nat) (b : Bool) : Nat :=
  let c := (reg.testBit (p.degree - 1)).xor b
  let shifted := (reg <<< 1) % 2 ^ p.degree
  if c then shifted ^^^ p.normal else shifted

/-- The register after all bits of the data, from a given start (R177). -/
def crcFrom (p : Poly) (start : Nat) (data : Bv) : Nat := data.foldl (crcStep p) start

/-- CRC_INIT: all ones (R10, R177). -/
def crcInit (p : Poly) : Nat := 2 ^ p.degree - 1

/-- The CRC with the default start (R177). -/
def crcOf (p : Poly) (data : Bv) : Nat := crcFrom p (crcInit p) data

/-- CRC (R177). -/
def crc (data : Bv) (p : Poly) (start : Option Nat) : Except ConstructionError Nat :=
  match start with
  | none => .ok (crcOf p data)
  | some i =>
    if 2 ^ p.degree ≤ i then constructionError .valueRange .init (.nat i)
    else .ok (crcFrom p i data)

/-! ### Frames (R200 to R211) -/

/-- The frame type a code names (R110). -/
def frameTypeOf : Nat → Option FrameType
  | 0 => some .dl
  | 1 => some .ack
  | 2 => some .rd
  | 3 => some .hit
  | _ => none

/-- The bits of values in the widths of a field list, in order (R202). -/
def packFields : List Nat → List Nat → Bv
  | w :: ws, x :: xs => bits w x ++ packFields ws xs
  | _, _ => []

/-- The values popped from the left of a vector in the widths of a field list, and the rest (R209). -/
def unpackFields : List Nat → Bv → List Nat × Bv
  | [], v => ([], v)
  | w :: ws, v =>
    let (xs, rest) := unpackFields ws (v.drop w)
    (bvValue (v.take w) :: xs, rest)

/-- Prefix(type) (R202). -/
def prefixBits (t : FrameType) : Bv := bits (Config.prefixOf t).2 (Config.prefixOf t).1

/-- Body(f) from the type and its field values (R202). -/
def bodyBits (t : FrameType) (fields : List Nat) : Bv := prefixBits t ++ packFields (Config.fieldWidths t) fields

/-- Bits(f) (R202). -/
def frameBits (f : Frame) : Bv :=
  bodyBits f.type f.fields ++
    match f.crc with
    | some c => bits (Config.crcWidth f.type) c
    | none => []

/-- The value a record gives a name. -/
def recordGet (r : Record) (n : FieldName) : Nat := (r.lookup n).getD 0

/-- `names(fields) = names(type)` (R205, R124): one entry per field of the type, in any order, and no other. -/
def namesMatch (r : Record) (t : FrameType) : Bool :=
  r.length == (Config.fieldList t).length &&
    (Config.fieldList t).all (fun e => r.any (fun x => x.1 == e.1))

/-- The first field out of range, in declared order (R205). -/
def firstOutOfRange (r : Record) : List (FieldName × Nat) → Option FieldName
  | [] => none
  | (n, w) :: rest => if 2 ^ w ≤ recordGet r n then some n else firstOutOfRange r rest

/-- The checks FRAME_BUILD and FRAME_BUILD_CRC share (R205, R206): the CRC-protected type, its polynomial and the field
values in declared order. -/
def frameOperands (type : Nat) (r : Record) : Except ConstructionError (FrameType × Poly × List Nat) :=
  match frameTypeOf type with
  | none => constructionError .badFrameType .type (.nat type)
  | some t =>
    match Config.polyOf t with
    | none => constructionError .badFrameType .type (.nat type)
    | some p =>
      if !namesMatch r t then constructionError .widthMismatch .fields (.fields r)
      else
        match firstOutOfRange r (Config.fieldList t) with
        | some n => constructionError .valueRange (.field n) (.nat (recordGet r n))
        | none => .ok (t, p, (Config.fieldList t).map (fun e => recordGet r e.1))

/-- FRAME_BUILD (R205). -/
def frameBuild (type : Nat) (r : Record) : Except ConstructionError Frame :=
  match frameOperands type r with
  | .error e => .error e
  | .ok (t, p, xs) => .ok ⟨t, xs, some (crcOf p (bodyBits t xs))⟩

/-- FRAME_BUILD_CRC (R206). -/
def frameBuildCrc (type : Nat) (r : Record) (c : Nat) : Except ConstructionError Frame :=
  match frameOperands type r with
  | .error e => .error e
  | .ok (t, p, xs) =>
    if 2 ^ p.degree ≤ c then constructionError .valueRange .crc (.nat c)
    else .ok ⟨t, xs, some c⟩

/-- The bytes of a frame (R207). -/
def frameBytes (f : Frame) : List Byte := bytesOfBits ((frameBits f).length / 8) (frameBits f)

/-- The result of FRAME_DECODE (R209). -/
inductive DecodeResult where
  | prefixMismatch
  | frame (f : Frame) (crcOk : Option Bool)
deriving DecidableEq, Repr

end Sys2Proof.Machine
end

