-- ==== Sys2Proof/Machine/Flags.lean ====
section
/-! DEFINITION. The result flags (R49): `eq`, `crc_ok`, `kind` and MISSING, with the decoding they come from (R209 to R211),
and the sequence-number guard (R258). No flag is stored. -/

namespace Sys2Proof.Machine

/-- The numeric code of a kind (R110). -/
def Kind.code : Kind → Nat
  | .hit => 0
  | .ack => 1
  | .rd => 2
  | .noFrame => 3

/-- The code of a status (R330). -/
def Status.code : Status → BitVec 8
  | .ok => 0x00
  | .prefixMismatch => 0x01
  | .nodata => 0x02
  | .readFailure _ _ => 0x03
  | .constructionError _ => 0x04
  | .transportError _ => 0x05
  | .notOpen => 0x06
  | .alreadyOpen => 0x07
  | .illegalCommand _ => 0x08
  | .joinTimeout => 0x09

/-- The number of a sub-cause (R331). -/
def SubCause.code : SubCause → Nat
  | .valueRange => 1
  | .widthMismatch => 2
  | .popUnderflow => 3
  | .polyImplicitBit => 4
  | .badDegree => 5
  | .badRepr => 6
  | .capacity => 7
  | .badFrameType => 8

/-- The encoding of S.session (R34). -/
def SessionMode.code : SessionMode → BitVec 2
  | .closed => 0
  | .opened => 1
  | .stopping => 2

/-- The `eq` flag (R151). -/
def bvEqFlag (a b : Bv) : Bool := a.length == b.length && bvValue a == bvValue b

/-- The `crc_ok` flag of a frame (R210): the residue is zero. None for HIT. -/
def crcOkFlag (f : Frame) : Option Bool := (Config.polyOf f.type).map (fun p => crcOf p (frameBits f) == 0)

/-- FRAME_CRC_OK (R210). -/
def frameCrcOk (f : Frame) : Except ConstructionError Bool :=
  match crcOkFlag f with
  | none => constructionError .badFrameType .frame (.frame f)
  | some ok => .ok ok

/-- The fields and the trailing crc of a vector after its prefix, as a frame (R209). -/
def parseBody (t : FrameType) (v : Bv) : Frame :=
  let (xs, c) := unpackFields (Config.fieldWidths t) v
  ⟨t, xs, (Config.polyOf t).map (fun _ => bvValue c)⟩

/-- FRAME_DECODE of a frame type (R209): the prefix before the length (D45). -/
def frameDecode (t : FrameType) (v : Bv) : Except ConstructionError DecodeResult :=
  let pw := (Config.prefixOf t).2
  if v.length < pw then constructionError .popUnderflow .bv (.bv v)
  else if bvValue (v.take pw) ≠ (Config.prefixOf t).1 then .ok .prefixMismatch
  else if (v.drop pw).length ≠ Config.frameWidth t - pw then constructionError .widthMismatch .bv (.bv v)
  else
    let f := parseBody t (v.drop pw)
    .ok (.frame f (crcOkFlag f))

/-- The kind of a frame type that UPLINK_RESOLVE answers (R110, R211). -/
def kindOf : FrameType → Kind
  | .hit => .hit
  | .ack => .ack
  | .rd => .rd
  | .dl => .noFrame

/-- The first decoder of a list whose prefix matches (R211). -/
def resolveIn (v : Bv) : List FrameType → Except ConstructionError (Kind × Option (Frame × Option Bool))
  | [] => .ok (.noFrame, none)
  | t :: ts =>
    match frameDecode t v with
    | .error e => .error e
    | .ok .prefixMismatch => resolveIn v ts
    | .ok (.frame f ok) => .ok (kindOf t, some (f, ok))

/-- UPLINK_RESOLVE (R211). R211 calls the operand B and R120 describes it as 3 bytes; that the info record names bytes is
the model's choice (assumption log 9). -/
def uplinkResolve (b : List Byte) : Except ConstructionError (Kind × Option (Frame × Option Bool)) :=
  if b.length ≠ 3 then constructionError .widthMismatch .bytes (.bytes b)
  else resolveIn (bitsOfBytes b) Config.probeOrder

/-- GUARD(exp, ret) (R258). -/
def guardHolds (exp : List (BitVec 3)) (ret : List (BitVec 3 × BitVec 15)) : Bool := exp == ret.map (·.1)

end Sys2Proof.Machine
end

