-- ==== Sys2Proof/Machine/BitVector.lean ====
section
/-! DEFINITION. The meanings of the BV commands (40_bitvector.md): pure, one atomic step, no state read or written but the
response (R9). -/

namespace Sys2Proof.Machine

/-- BV_FROM_VALUE (R141). -/
def execBvFromValue (value : Int) (size : Nat) (s : State) : Host.Outcome State Fault Refusal :=
  s.answerPure ((bvFromValue value size).map .bv)

/-- BV_TO_VALUE (R142). -/
def execBvToValue (v : Bv) (s : State) : Host.Outcome State Fault Refusal :=
  s.answerPure (.ok (.nat (bvValue v)))

/-- BV_FROM_BYTES (R143). -/
def execBvFromBytes (b : List Byte) (s : State) : Host.Outcome State Fault Refusal :=
  s.answerPure ((bvFromBytes b).map .bv)

/-- BV_TO_BYTES (R144). -/
def execBvToBytes (v : Bv) (s : State) : Host.Outcome State Fault Refusal :=
  s.answerPure ((bvToBytes v).map .bytes)

/-- BV_APPEND_RIGHT (R145). -/
def execBvAppendRight (a b : Bv) (s : State) : Host.Outcome State Fault Refusal :=
  s.answerPure ((bvAppendRight a b).map .bv)

/-- BV_APPEND_LEFT (R146). -/
def execBvAppendLeft (a b : Bv) (s : State) : Host.Outcome State Fault Refusal :=
  s.answerPure ((bvAppendLeft a b).map .bv)

/-- BV_POP_LEFT (R147). -/
def execBvPopLeft (v : Bv) (k : Nat) (s : State) : Host.Outcome State Fault Refusal :=
  s.answerPure ((bvPopLeft v k).map (fun p => .popped p.1 p.2))

/-- BV_POP_RIGHT (R148). -/
def execBvPopRight (v : Bv) (k : Nat) (s : State) : Host.Outcome State Fault Refusal :=
  s.answerPure ((bvPopRight v k).map (fun p => .popped p.1 p.2))

/-- BV_CONCAT (R149). -/
def execBvConcat (a b : Bv) (s : State) : Host.Outcome State Fault Refusal :=
  s.answerPure ((bvConcat a b).map .bv)

/-- BV_REVERSE (R150). -/
def execBvReverse (v : Bv) (s : State) : Host.Outcome State Fault Refusal :=
  s.answerPure (.ok (.bv v.reverse))

/-- BV_EQ (R151). -/
def execBvEq (a b : Bv) (s : State) : Host.Outcome State Fault Refusal :=
  s.answerPure (.ok (.bool (bvEqFlag a b)))

/-- BV_LEN (R152). -/
def execBvLen (v : Bv) (s : State) : Host.Outcome State Fault Refusal :=
  s.answerPure (.ok (.nat v.length))

end Sys2Proof.Machine
end

