-- ==== Sys2Proof/Machine/Codec.lean ====
section
/-! DEFINITION. The meanings of the FCODEC commands (42_frame_codec.md): pure, one atomic step, reading only the ROM (R9). -/

namespace Sys2Proof.Machine

/-- FRAME_BUILD (R205). -/
def execFrameBuild (type : Nat) (fields : Record) (s : State) : Host.Outcome State Fault Refusal :=
  s.answerPure ((frameBuild type fields).map .frame)

/-- FRAME_BUILD_CRC (R206). -/
def execFrameBuildCrc (type : Nat) (fields : Record) (crc : Nat) (s : State) : Host.Outcome State Fault Refusal :=
  s.answerPure ((frameBuildCrc type fields crc).map .frame)

/-- FRAME_ENCODE (R207). -/
def execFrameEncode (f : Frame) (s : State) : Host.Outcome State Fault Refusal :=
  s.answerPure (.ok (.encoded (frameBits f) (frameBytes f)))

/-- FRAME_DECODE (R209). PREFIX_MISMATCH is a status of its own and no error (R332). A type code above 3 is
BAD_FRAME_TYPE (93_implementation_defined.md I3). -/
def execFrameDecode (type : Nat) (v : Bv) (s : State) : Host.Outcome State Fault Refusal :=
  match frameTypeOf type with
  | none => s.answerPure (constructionError .badFrameType .type (.nat type))
  | some t =>
    match frameDecode t v with
    | .error e => s.answerPure (.error e)
    | .ok .prefixMismatch => .next (s.endCommand s.caller ⟨.prefixMismatch, .none⟩)
    | .ok (.frame f ok) => s.answerPure (.ok (.decoded f ok))

/-- FRAME_CRC_OK (R210). -/
def execFrameCrcOk (f : Frame) (s : State) : Host.Outcome State Fault Refusal :=
  s.answerPure ((frameCrcOk f).map .bool)

/-- UPLINK_RESOLVE (R211): a word of no recognizable type is status OK with kind NO_FRAME (R330). -/
def execUplinkResolve (b : List Byte) (s : State) : Host.Outcome State Fault Refusal :=
  s.answerPure ((uplinkResolve b).map (fun r => .resolved r.1 r.2))

end Sys2Proof.Machine
end

