-- ==== Sys2Proof/Machine/PolyCrc.lean ====
section
/-! DEFINITION. The meanings of the PCONV/CRCGEN commands (41_poly_crc.md): pure, one atomic step (R9). -/

namespace Sys2Proof.Machine

/-- POLY_NEW (R172). -/
def execPolyNew (value degree repr : Nat) (s : State) : Host.Outcome State Fault Refusal :=
  s.answerPure ((polyNew value degree repr).map .poly)

/-- POLY_TO_REPR (R174). -/
def execPolyToRepr (p : Poly) (repr : Nat) (s : State) : Host.Outcome State Fault Refusal :=
  s.answerPure ((polyToRepr p repr).map .nat)

/-- CRC (R177). -/
def execCrc (data : Bv) (p : Poly) (start : Option Nat) (s : State) : Host.Outcome State Fault Refusal :=
  s.answerPure ((crc data p start).map .nat)

end Sys2Proof.Machine
end

