-- ==== Sys2Proof/Machine/Align.lean ====
section
/-! DEFINITION. The sequence-alignment unit ALIGN (43_protocol.md §7): score matrix (R271), start cell (R272) and traceback
(R273). As in the spec, rows and columns count from 1 and the mapping's entries from 0. -/

namespace Sys2Proof.Machine

/-- s(i,j) (R271): MATCH = +3, MISMATCH = -3 (R270). -/
def alignScore (x y : Nat) : Int := if x = y then 3 else -3

/-- H[i][j] of a matrix held as its list of rows. -/
def cellAt (h : List (List Nat)) (i j : Nat) : Nat := (h.getD i []).getD j 0

/-- H[i][j] from the rows above (`i` of them) and the cells to its left (`j` of them), for `a_i = x` and `b_j = y` (R271). -/
def cell (rows : List (List Nat)) (row : List Nat) (x y : Nat) : Nat :=
  let i := rows.length
  let j := row.length
  let diagonal : Int := cellAt rows (i - 1) (j - 1) + alignScore x y
  let vertical := (List.range i).map (fun g => (cellAt rows (i - (g + 1)) j : Int) - 2 * (g + 1))
  let horizontal := (List.range j).map (fun g => (row.getD (j - (g + 1)) 0 : Int) - 2 * (g + 1))
  ((diagonal :: (vertical ++ horizontal)).foldl max 0).toNat

/-- One row of H below `rows`, for `a_i = x`. -/
def scoreRow (rows : List (List Nat)) (x : Nat) (b : List Nat) : List Nat :=
  b.foldl (fun row y => row ++ [cell rows row x y]) [0]

/-- The score matrix H (R271), filled in row-major order. -/
def scoreMatrix (a b : List Nat) : List (List Nat) :=
  a.foldl (fun rows x => rows ++ [scoreRow rows x b]) [List.replicate (b.length + 1) 0]

/-- The cells (i, j) with 1 <= i <= n and 1 <= j <= m in row-major order. -/
def cellsInOrder (n m : Nat) : List (Nat × Nat) :=
  (List.range n).flatMap (fun i => (List.range m).map (fun j => (i + 1, j + 1)))

/-- The start cell (R272): the last cell in row-major order with the largest value; none where that is 0. -/
def startCell (h : List (List Nat)) (n m : Nat) : Option (Nat × Nat) :=
  (cellsInOrder n m).foldl
    (fun best c =>
      if cellAt h c.1 c.2 = 0 then best
      else
        match best with
        | none => some c
        | some d => if cellAt h d.1 d.2 ≤ cellAt h c.1 c.2 then some c else best)
    none

/-- The smallest gap g in 1..bound for which `source g` gives the cell's value (R273). -/
def smallestGap (value : Nat) (source : Nat → Nat) (bound : Nat) : Option Nat :=
  ((List.range bound).map (· + 1)).find? (fun g => value + 2 * g == source g)

/-- The traceback (R273) from cell (i, j); every move lowers i + j, so `i + j` moves are always enough. -/
def traceback (a b : List Nat) (h : List (List Nat)) : Nat → Nat → Nat → List (Option Nat) → List (Option Nat)
  | 0, _, _, m => m
  | moves + 1, i, j, m =>
    if i = 0 ∨ j = 0 ∨ cellAt h i j = 0 then m
    else if (cellAt h i j : Int) = cellAt h (i - 1) (j - 1) + alignScore (a.getD (i - 1) 0) (b.getD (j - 1) 0) then
      traceback a b h moves (i - 1) (j - 1)
        (if a.getD (i - 1) 0 = b.getD (j - 1) 0 then m.set (i - 1) (some (j - 1)) else m)
    else
      match smallestGap (cellAt h i j) (fun g => cellAt h (i - g) j) i with
      | some g => traceback a b h moves (i - g) j m
      | none =>
        match smallestGap (cellAt h i j) (fun g => cellAt h i (j - g)) j with
        | some g => traceback a b h moves i (j - g) m
        | none => m

/-- ALIGN(a, b) (R270): for every position of `a`, an index into `b` or UNMATCHED (`none`). -/
def align (a b : List Nat) : List (Option Nat) :=
  let h := scoreMatrix a b
  match startCell h a.length b.length with
  | none => List.replicate a.length none
  | some c => traceback a b h (c.1 + c.2) c.1 c.2 (List.replicate a.length none)

end Sys2Proof.Machine
end

