-- ==== Sys2Proof/Machine/Arbiter.lean ====
section
/-! DEFINITION. ARB (44_arbiter.md): the host commands DEMUX_WRITE and DEMUX_READ, the workers SENDW, POLLW and COMM, the
transport fault, and the frame words that cross the transport port on the control channel (R101 to R104, R111). -/

namespace Sys2Proof.Machine

/-- The checks before the first effect of a RAP command or a DEMUX command (R241, R300, R301), in their order (R341). -/
def SessionState.notReady (S : SessionState) : Option Status :=
  if S.session ≠ .opened then some .notOpen
  else if S.fault then some (.transportError S.faultInfo)
  else none

/-! ### Host commands -/

/-- DEMUX_WRITE in a thread (R300): checks and push in one atomic step. -/
def demuxWrite (t : ThreadId) (value : Value) (dest : Chan) (s : State) : State :=
  match s.S.notReady with
  | some st => s.takeException t st
  | none =>
    if s.S.sendHasRoom then (s.withS (s.S.pushSend ⟨value, dest⟩)).finish t .none
    else s.setTask t (.demuxRoom value dest)

/-- DEMUX_WRITE (R300). -/
def execDemuxWrite (value : Value) (dest : Chan) (s : State) : Host.Outcome State Fault Refusal :=
  .next (demuxWrite s.caller value dest s)

/-- DEMUX_READ's wait in a thread (R301, R15). It ends with NODATA once the session has left OPEN (D44). -/
def demuxWaitStep (t : ThreadId) (source : Chan) (timeout : Duration) (s : State) : State :=
  if s.S.session ≠ .opened then s.endCommand t ⟨.nodata, .none⟩
  else
    match s.S.waitPop source timeout with
    | .popped v S' => (s.withS S').finish t (.item v)
    | .nodata => s.endCommand t ⟨.nodata, .none⟩
    | .waiting => s.setTask t (.demuxWait source timeout)

/-- The timeout of DEMUX_READ's wait fires (R15): enabled only while the queue is empty. -/
def demuxTimeout (t : ThreadId) (source : Chan) (s : State) : State :=
  if (s.S.rx source).isEmpty then s.endCommand t ⟨.nodata, .none⟩ else s

/-- DEMUX_READ (R301): the checks and the first look at the queue in one atomic step (assumption log 7). -/
def execDemuxRead (source : Chan) (timeout : Duration) (s : State) : Host.Outcome State Fault Refusal :=
  match s.S.notReady with
  | some st => .next (s.takeException s.caller st)
  | none => .next (demuxWaitStep s.caller source timeout s)

/-! ### SENDW and POLLW -/

/-- SENDW_STEP (R305, R306): no change where no branch is enabled. -/
def sendwStep (S : SessionState) : SessionState :=
  if S.wSend ≠ .running then S
  else
    match S.stage, S.sendq with
    | some item, _ => { S with wrq := S.wrq ++ [item], stage := none }
    | none, item :: rest => { S with stage := some item, sendq := rest }
    | none, [] => if S.stop then { S with wSend := .exited } else S

/-- POLLW_STEP (R307). -/
def pollwStep (S : SessionState) : SessionState :=
  if S.wPoll ≠ .running then S
  else if S.stop then { S with wPoll := .exited }
  else { S with readPending := S.readPending + 1 }

/-! ### COMM, the arbiter -/

/-- FAULT(info) (R313). -/
def transportFault (info : ErrInfo) (S : SessionState) : SessionState :=
  { S with fault := true, faultInfo := some info, wComm := .halted }

/-- REARM (R312). -/
def rearm (S : SessionState) : SessionState :=
  if S.stop then S else { S with readPending := S.readPending + 1 }

/-- COMM_WRITE of an item popped from S.wrq (R310). -/
def commWrite (item : Item) (answer : WriteAnswer) (s : State) : State :=
  match answer with
  | .ok => s.record (.wrote item .ok)
  | .err info => (s.withS (transportFault info s.S)).record (.wrote item (.err info))

/-- COMM_READ (R311): a READ that ends in an error is not re-armed (assumption log 13). -/
def commRead (answer : ReadAnswer) (s : State) : State :=
  match answer with
  | .nodata => (s.withS (rearm s.S)).record (.read .nodata)
  | .data src v => (s.withS (rearm (s.S.pushRx src v))).record (.read (.data src v))
  | .err info => (s.withS (transportFault info s.S)).record (.read (.err info))

/-- COMM may take a READ task (R309): it runs, no WRITE task is pending, a READ task is, and there is no stop. -/
def SessionState.commReads (S : SessionState) : Bool :=
  S.wComm == .running && S.wrq.isEmpty && decide (0 < S.readPending) && !S.stop

/-- COMM takes a READ task and performs it (R309, R311). -/
def commTakeRead (answer : ReadAnswer) (s : State) : State :=
  commRead answer (s.withS { s.S with readPending := s.S.readPending - 1 })

/-- COMM_STEP (R309): WRITE before READ before EXITED; no change where COMM is blocked or has ended. -/
def commStep (onWrite : WriteAnswer) (onRead : ReadAnswer) (s : State) : State :=
  if s.S.wComm ≠ .running then s
  else
    match s.S.wrq with
    | item :: rest => commWrite item onWrite (s.withS { s.S with wrq := rest })
    | [] =>
      if s.S.commReads then commTakeRead onRead s
      else if s.S.stop && s.S.wSend == .exited then s.withS { s.S with wComm := .exited }
      else s

/-! ### Frame words on the transport port

A wire word is no command. It crosses the transport port in a step of COMM, in the direction of its layout (R111):
a Downlink word is what TP_Write hands over (R310), an uplink word what TP_Read answers on CTRL_SRC (R311). COMM
routes it and never decodes it (R311). ENV cannot push data and COMM writes only the head of S.wrq (R294, R309), so
where COMM is not at that operation the word does not cross and nothing changes. -/

/-- The bytes of a 40-bit word, first transmitted first (R73). -/
def bytesOfDown (w : BitVec 40) : List Byte := bytesOfBits 5 (bits 40 w.toNat)

/-- The bytes of a 24-bit word, first transmitted first (R73). -/
def bytesOfUp (w : BitVec 24) : List Byte := bytesOfBits 3 (bits 24 w.toNat)

/-- COMM's next operation is the TP_Write of the word `w` (R309): it runs, and the head of S.wrq holds its bytes. -/
def SessionState.commWrites (S : SessionState) (w : BitVec 40) : Bool :=
  S.wComm == .running && (S.wrq.head?.map (·.value)) == some (.bytes (bytesOfDown w))

/-- A 40-bit word crosses the port: COMM's TP_Write of it, answered `ok` (R290, R310). -/
def downlinkCrosses (w : BitVec 40) (s : State) : State :=
  if s.S.commWrites w then commStep .ok .nodata s else s

/-- A 24-bit word crosses the port: COMM's TP_Read answered with it on CTRL_SRC (R290, R311). -/
def uplinkCrosses (w : BitVec 24) (s : State) : State :=
  if s.S.commReads then commTakeRead (.data Config.params.ctrlSrc (.bytes (bytesOfUp w))) s else s

/-- FRAME_DL40 (R101). -/
def execFrameDl40 (chip seq : BitVec 4) (rt : BitVec 2) (payload crc : BitVec 15) (s : State) :
    Host.Outcome State Fault Refusal :=
  .next (downlinkCrosses (encodeDl40 chip seq rt payload crc) s)

/-- FRAME_ACK24 (R102). -/
def execFrameAck24 (ack : BitVec 2) (seq : BitVec 4) (cp ta sa se oe : BitVec 1) (ts : BitVec 6) (crc : BitVec 4)
    (s : State) : Host.Outcome State Fault Refusal :=
  .next (uplinkCrosses (encodeAck24 ack seq cp ta sa se oe ts crc) s)

/-- FRAME_RD24 (R103). -/
def execFrameRd24 (data : BitVec 15) (seq crc : BitVec 3) (s : State) : Host.Outcome State Fault Refusal :=
  .next (uplinkCrosses (encodeRd24 data seq crc) s)

/-- FRAME_HIT24 (R104). -/
def execFrameHit24 (raw : BitVec 23) (s : State) : Host.Outcome State Fault Refusal :=
  .next (uplinkCrosses (encodeHit24 raw) s)

end Sys2Proof.Machine
end

