-- ==== Sys2Proof/Machine/Protocol.lean ====
section
/-! DEFINITION. RAP (43_protocol.md) and the session (R242, R244), STATUS_READ (R42), and the steps of every command in
progress. A command of several atomic steps is issued by its meaning, which takes its first step, and goes on by
`advance` and `timeout`. The OPEN parameters are an argument `P` (R10). -/

namespace Sys2Proof.Machine

/-! ### Issue of the session commands -/

/-- SESSION_OPEN (R242): the operand check, then ALREADY_OPEN, then everything in one atomic step. -/
def execSessionOpen (chipAddress : Nat) (s : State) : Host.Outcome State Fault Refusal :=
  if 2 ^ Config.chipAddrW ≤ chipAddress then
    .next (s.takeException s.caller (.constructionError ⟨.valueRange, .chipAddress, .nat chipAddress⟩))
  else if s.S.session ≠ .closed then .next (s.takeException s.caller .alreadyOpen)
  else .next ((s.withS (SessionState.atOpen (BitVec.ofNat 4 chipAddress))).finish s.caller .none)

/-- SESSION_CLOSE in a thread up to `S.rap_phase <- CLOSING` (R244). The session check is made again in the step in which
the wait completes (assumption log 8); a close whose session ends meanwhile is `closeEnded`. -/
def closeBegin (t : ThreadId) (s : State) : State :=
  if s.S.session ≠ .opened then s.takeException t .notOpen
  else if s.S.rapPhase = .idle then (s.withS { s.S with rapPhase := .closing }).setTask t .closeStop
  else s.setTask t .closeWait

/-- SESSION_CLOSE (R244). -/
def execSessionClose (s : State) : Host.Outcome State Fault Refusal := .next (closeBegin s.caller s)

/-- The record of STATUS_READ (R42) of a session state. -/
def SessionState.statusRecord (S : SessionState) : StatusRecord where
  session := S.session
  chipAddr := S.chipAddr
  seq := S.seq
  fault := S.fault
  rapPhase := S.rapPhase
  cReq := S.cReq
  cMatched := S.cMatched
  cNack := S.cNack
  cAck := S.cAck
  cCrcBad := S.cCrcBad
  cHit := S.cHit
  cUnknown := S.cUnknown
  sendqLen := S.sendq.length
  readPending := S.readPending
  wrqLen := S.wrq.length
  rxLens := S.rxq.map (fun e => (e.1, e.2.length))

/-- STATUS_READ (R42): accepted in every session state; in CLOSED every field but `session` reads as its reset value. -/
def execStatusRead (s : State) : Host.Outcome State Fault Refusal :=
  match s.S.session with
  | .closed => .next (s.finish s.caller (.status SessionState.reset.statusRecord))
  | .opened => .next (s.finish s.caller (.status s.S.statusRecord))
  | .stopping => .next (s.finish s.caller (.status s.S.statusRecord))

/-! ### ADMIT (R241) -/

/-- ADMIT in a thread up to `S.rap_phase <- phase` (R241): it raises, or is admitted as `running`, or waits as `waiting`
(R249). The two checks stand in the step of that assignment; the two lines after it are steps of `running`. -/
def rapBegin (t : ThreadId) (phase : RapPhase) (waiting running : Task) (s : State) : State :=
  match s.S.notReady with
  | some st => s.takeException t st
  | none =>
    if s.S.rapPhase = .idle then (s.withS { s.S with rapPhase := phase }).setTask t running
    else s.setTask t waiting

/-- The frames of a WRITE_REGISTERS in order (R250). -/
def writeFrames (ops : List (Nat × Nat)) : List (Config.ReqKind × Nat) :=
  ops.flatMap (fun o => [(.wrAddr, o.1), (.wrData, o.2)])

/-- ADMIT(W_SEND) of a WRITE_REGISTERS (R250). -/
def writeBegin (t : ThreadId) (ops : List (Nat × Nat)) (s : State) : State :=
  rapBegin t .wSend (.admitWrite ops) (.write (.counters (writeFrames ops))) s

/-- WRITE_REGISTERS (R250): issued, with ADMIT its first step. -/
def execWriteRegisters (ops : List (Nat × Nat)) (s : State) : Host.Outcome State Fault Refusal :=
  .next (writeBegin s.caller ops s)

/-- ADMIT(R_SEND) of a READ_REGISTERS (R255). -/
def readBegin (t : ThreadId) (addrs : List Nat) (attemptAlignment : Bool) (s : State) : State :=
  rapBegin t .rSend (.admitRead addrs attemptAlignment) (.read addrs.length attemptAlignment (.counters addrs)) s

/-- READ_REGISTERS (R255): issued, with ADMIT its first step. -/
def execReadRegisters (addrs : List Nat) (attemptAlignment : Bool) (s : State) : Host.Outcome State Fault Refusal :=
  .next (readBegin s.caller addrs attemptAlignment s)

/-! ### SEQ_NEXT and SEND_DL (R246, R251) -/

/-- SEQ_NEXT's effect (R246): modulo 2^SEQ_W. The number drawn is S.seq before it. -/
def SessionState.seqNext (S : SessionState) : SessionState := { S with seq := S.seq + 1 }

/-- The expected response number of a request (R247): the low 3 bits. -/
def expectedOf (s : BitVec 4) : BitVec 3 := BitVec.ofNat 3 (s.toNat % 2 ^ Config.rdSeqW)

/-- The item SEND_DL pushes (R251): the frame's bytes for CTRL_DEST, or the error of building it. -/
def downlinkItem (P : Config.Params) (S : SessionState) (seq : BitVec 4) (rt : Config.ReqKind) (payload : Nat) :
    Except ConstructionError Item :=
  (frameBuild 0 [(.chipAddress, S.chipAddr.toNat), (.sequenceNumber, seq.toNat),
    (.requestType, (P.reqCode rt).toNat), (.payload, payload)]).map
    (fun f => ⟨.bytes (frameBytes f), P.ctrlDest⟩)

/-! ### READ_FRAME (R252) -/

/-- The value of a frame's field, by name. -/
def frameField (f : Frame) (n : FieldName) : Nat :=
  ((((Config.fieldList f.type).map (·.1)).zip f.fields).lookup n).getD 0

/-- How one step of a READ_FRAME ends. -/
inductive FrameOut where
  /-- It goes on at this point. -/
  | more (pc : FramePc)
  /-- It returns a frame. -/
  | frame (f : RxFrame)
  | nodata
  | raised (st : Status)
deriving DecidableEq, Repr

/-- The counting of a control frame at its first decode (R252, D41). -/
def countFrame (P : Config.Params) (k : CtrlKind) (f : RxFrame) (S : SessionState) : SessionState :=
  if !f.crcOk then { S with cCrcBad := inc S.cCrcBad }
  else
    match k with
    | .rd => S
    | .ack =>
      if frameField f.frame .ack = P.ackNack.toNat then { S with cAck := inc S.cAck, cNack := inc S.cNack }
      else { S with cAck := inc S.cAck }

/-- A decoded control frame of kind `k` where `kind` is wanted (R252): counted, then returned or set aside in order. -/
def takeFrame (P : Config.Params) (kind k : CtrlKind) (f : RxFrame) (S : SessionState) : FrameOut × SessionState :=
  let S' := countFrame P k f S
  if k = kind then (.frame f, S') else (.more .check, S'.setPend k (S'.pend k ++ [f]))

/-- The atomic step of READ_FRAME after a WaitPop delivered `x` (R252). -/
def acceptValue (P : Config.Params) (kind : CtrlKind) (x : Value) (S : SessionState) : FrameOut × SessionState :=
  let unknown : FrameOut × SessionState := (.more .check, { S with cUnknown := inc S.cUnknown })
  match x with
  | .other _ => unknown
  | .bytes b =>
    match uplinkResolve b with
    | .error _ => unknown
    | .ok (.hit, _) => (.more .check, { S with cHit := inc S.cHit })
    | .ok (.ack, some (f, ok)) => takeFrame P kind .ack ⟨f, ok.getD false⟩ S
    | .ok (.rd, some (f, ok)) => takeFrame P kind .rd ⟨f, ok.getD false⟩ S
    | .ok (.noFrame, _) => unknown
    | .ok (.ack, none) => unknown
    | .ok (.rd, none) => unknown

/-- One step of READ_FRAME(kind, t) (R252). -/
def readFrameStep (P : Config.Params) (kind : CtrlKind) (t : Duration) (pc : FramePc) (S : SessionState) :
    FrameOut × SessionState :=
  match pc with
  | .start =>
    match S.pend kind with
    | f :: q => (.frame f, S.setPend kind q)
    | [] => (.more .check, S)
  | .check => if S.fault then (.raised (.transportError S.faultInfo), S) else (.more .wait, S)
  | .wait =>
    match S.waitPop P.ctrlSrc t with
    | .popped x S' => (.more (.got x), S')
    | .nodata => (.nodata, S)
    | .waiting => (.more .wait, S)
  | .got x => acceptValue P kind x S

/-- The per-read timeout of READ_FRAME fires (R15, R252): enabled only inside the WaitPop with the queue empty. -/
def readFrameTimeout (P : Config.Params) (pc : FramePc) (S : SessionState) : FrameOut × SessionState :=
  match pc with
  | .start => (.more .start, S)
  | .check => (.more .check, S)
  | .wait => if (S.rx P.ctrlSrc).isEmpty then (.nodata, S) else (.more .wait, S)
  | .got x => (.more (.got x), S)

/-! ### Steps of WRITE_REGISTERS once admitted (R241, R250) -/

/-- DRAIN(ACK, T_ACK, discard) after one step of its READ_FRAME (R253). -/
def writeDrain (t : ThreadId) (r : FrameOut × SessionState) (s : State) : State :=
  match r.1 with
  | .more pc => (s.withS r.2).setTask t (.write (.drain pc))
  | .frame _ => (s.withS r.2).setTask t (.write (.drain .start))
  | .nodata => (s.withS r.2).setTask t (.write .ret)
  | .raised st => (s.withS r.2).takeException t st

/-- One step of a WRITE_REGISTERS (R241, R250, R251). -/
def writeStep (P : Config.Params) (t : ThreadId) (pc : WritePc) (s : State) : State :=
  match pc with
  | .counters frames => (s.withS s.S.clearCounters).setTask t (.write (.lists frames))
  | .lists frames => (s.withS s.S.clearLists).setTask t (.write (.send frames))
  | .send [] => (s.withS { s.S with rapPhase := .wAck }).setTask t (.write (.drain .start))
  | .send ((rt, payload) :: frames) =>
    if s.S.fault then s.takeException t (.transportError s.S.faultInfo)
    else s.setTask t (.write (.draw rt payload frames))
  | .draw rt payload frames => (s.withS s.S.seqNext).setTask t (.write (.push s.S.seq rt payload frames))
  | .push q rt payload frames =>
    match downlinkItem P s.S q rt payload with
    | .error e => s.takeException t (.constructionError e)
    | .ok item => if s.S.sendHasRoom then (s.withS (s.S.pushSend item)).setTask t (.write (.send frames)) else s
  | .drain fpc => writeDrain t (readFrameStep P .ack P.tAck fpc s.S) s
  | .ret => s.finish t .none

/-! ### Steps of READ_REGISTERS once admitted (R241, R255 to R261) -/

/-- The pair a ReadData frame adds to S.ret (R257). -/
def readPair (f : Frame) : BitVec 3 × BitVec 15 :=
  (BitVec.ofNat 3 (frameField f .sequenceNumber), BitVec.ofNat 15 (frameField f .data))

/-- KEEP (R257, R260): a CRC-valid ReadData frame is appended to S.ret, any other is discarded. -/
def SessionState.keep (S : SessionState) (f : RxFrame) : SessionState :=
  if f.crcOk then { S with ret := S.ret ++ [readPair f.frame] } else S

/-- Where step 2 goes on when an attempt is over, `left` counting that attempt (R257). -/
def nextAttempt (left : Nat) : ReadPc := if left ≤ 1 then .guardFirst else .collect (left - 1) .start

/-- Step 2 after one step of its READ_FRAME (R257): a timed-out attempt counts as an attempt. -/
def readCollect (t : ThreadId) (n : Nat) (al : Bool) (left : Nat) (r : FrameOut × SessionState) (s : State) : State :=
  match r.1 with
  | .more pc => (s.withS r.2).setTask t (.read n al (.collect left pc))
  | .frame f => (s.withS (r.2.keep f)).setTask t (.read n al (nextAttempt left))
  | .nodata => (s.withS r.2).setTask t (.read n al (nextAttempt left))
  | .raised st => (s.withS r.2).takeException t st

/-- Step 4's DRAIN(RD, T_DRAIN, KEEP) after one step of its READ_FRAME (R253, R260). -/
def readDrainRd (t : ThreadId) (n : Nat) (al : Bool) (r : FrameOut × SessionState) (s : State) : State :=
  match r.1 with
  | .more pc => (s.withS r.2).setTask t (.read n al (.drainRd pc))
  | .frame f => (s.withS (r.2.keep f)).setTask t (.read n al (.drainRd .start))
  | .nodata => (s.withS r.2).setTask t (.read n al .toDrainAck)
  | .raised st => (s.withS r.2).takeException t st

/-- Step 4's DRAIN(ACK, T_ACK, discard) after one step of its READ_FRAME (R253, R260). -/
def readDrainAck (t : ThreadId) (n : Nat) (al : Bool) (r : FrameOut × SessionState) (s : State) : State :=
  match r.1 with
  | .more pc => (s.withS r.2).setTask t (.read n al (.drainAck pc))
  | .frame _ => (s.withS r.2).setTask t (.read n al (.drainAck .start))
  | .nodata => (s.withS r.2).setTask t (.read n al .guardAgain)
  | .raised st => (s.withS r.2).takeException t st

/-- The guard's verdict chooses the fast path or goes on at `otherwise` (R255, R258). -/
def readGuard (t : ThreadId) (n : Nat) (al : Bool) (otherwise : ReadPc) (s : State) : State :=
  s.setTask t (.read n al (if guardHolds s.S.exp s.S.ret then .fast else otherwise))

/-- FAST's assignments (R259); the counter saturates (R41). -/
def SessionState.fastPath (S : SessionState) (n : Nat) : SessionState :=
  { S with res := S.ret.map (fun r => some r.2), cMatched := saturate n }

/-- One turn of step 5's loop (R261): the result of one position. -/
def SessionState.fillOne (S : SessionState) (m : Option Nat) : SessionState :=
  match m with
  | none => { S with res := S.res ++ [none] }
  | some j => { S with res := S.res ++ [(S.ret[j]?).map (·.2)], cMatched := inc S.cMatched }

/-- One step of a READ_REGISTERS of `n` addresses (R241, R255 to R261). -/
def readStep (P : Config.Params) (t : ThreadId) (n : Nat) (al : Bool) (pc : ReadPc) (s : State) : State :=
  match pc with
  | .counters addrs => (s.withS s.S.clearCounters).setTask t (.read n al (.lists addrs))
  | .lists addrs => (s.withS s.S.clearLists).setTask t (.read n al (.send addrs))
  | .send [] =>
    (s.withS { s.S with rapPhase := .rCollect }).setTask t
      (.read n al (if n = 0 then .guardFirst else .collect n .start))
  | .send (a :: rest) =>
    if s.S.fault then s.takeException t (.transportError s.S.faultInfo)
    else s.setTask t (.read n al (.draw a rest))
  | .draw a rest => (s.withS s.S.seqNext).setTask t (.read n al (.push s.S.seq a rest))
  | .push q a rest =>
    match downlinkItem P s.S q .rdData a with
    | .error e => s.takeException t (.constructionError e)
    | .ok item =>
      if s.S.sendHasRoom then
        (s.withS { s.S.pushSend item with exp := s.S.exp ++ [expectedOf q] }).setTask t (.read n al (.count rest))
      else s
  | .count rest => (s.withS { s.S with cReq := inc s.S.cReq }).setTask t (.read n al (.send rest))
  | .collect left fpc => readCollect t n al left (readFrameStep P .rd P.tResp fpc s.S) s
  | .guardFirst => readGuard t n al .toDrainRd s
  | .toDrainRd => (s.withS { s.S with rapPhase := .rDrainRd }).setTask t (.read n al (.drainRd .start))
  | .drainRd fpc => readDrainRd t n al (readFrameStep P .rd P.tDrain fpc s.S) s
  | .toDrainAck => (s.withS { s.S with rapPhase := .rDrainAck }).setTask t (.read n al (.drainAck .start))
  | .drainAck fpc => readDrainAck t n al (readFrameStep P .ack P.tAck fpc s.S) s
  | .guardAgain => readGuard t n al .stepFive s
  | .stepFive =>
    if al then (s.withS { s.S with rapPhase := .rAlign }).setTask t (.read n al .align)
    else s.takeException t (.readFailure s.S.exp s.S.ret)
  | .align =>
    s.setTask t (.read n al (.fill (Sys2Proof.Machine.align (s.S.exp.map (·.toNat)) (s.S.ret.map (·.1.toNat)))))
  | .fill [] => s.finish t (.reads s.S.res)
  | .fill (m :: ms) => (s.withS (s.S.fillOne m)).setTask t (.read n al (.fill ms))
  | .fast => (s.withS (s.S.fastPath n)).setTask t (.read n al .ret)
  | .ret => s.finish t (.reads s.S.res)

/-! ### SHUTDOWN and JOIN (R315, R316) -/

/-- What the stop step makes of a command in progress: one that waits on the session that now ends waits no more. A
DEMUX_READ gets NODATA (R301, R315), a second SESSION_CLOSE and a RAP command in ADMIT get NOT_OPEN (R244, D44), whatever
session is open when they take their next step (R350); every other command goes on (assumption logs 8 and 12). -/
def Task.sessionLeft : Task → Task
  | .apart (.write _) => .apart .admitEnded
  | .apart (.read _ _) => .apart .admitEnded
  | .apart (.demux _ _) => .apart .demuxEnded
  | .apart .admitEnded => .apart .admitEnded
  | .apart .demuxEnded => .apart .demuxEnded
  | .admitWrite _ => .admitEnded
  | .admitRead _ _ => .admitEnded
  | .admitEnded => .admitEnded
  | .write pc => .write pc
  | .read n al pc => .read n al pc
  | .closeWait => .closeEnded
  | .closeEnded => .closeEnded
  | .closeStop => .closeStop
  | .closeJoin => .closeJoin
  | .closeRet st => .closeRet st
  | .demuxWait _ _ => .demuxEnded
  | .demuxEnded => .demuxEnded
  | .demuxRoom v d => .demuxRoom v d

/-- The waits of all threads end once the session leaves OPEN (R244, R301, R315). -/
def endWaits (threads : List (ThreadId × Task)) : List (ThreadId × Task) :=
  threads.map (fun e => (e.1, e.2.sessionLeft))

/-- SHUTDOWN's step 1 (R315). -/
def shutdownStop (t : ThreadId) (s : State) : State :=
  ({ s with
    S := { s.S with stop := true, session := .stopping, readPending := 0 }
    threads := endWaits s.threads } : State).setTask t .closeJoin

/-- Every worker is EXITED or HALTED (R316). -/
def SessionState.workersEnded (S : SessionState) : Bool :=
  S.wSend != .running && S.wPoll != .running && S.wComm != .running

/-- JOIN's last step (R316): every item at its block-reset value, and the status is returned to SESSION_CLOSE, whose own
return is its next line (R244). -/
def joinEnd (t : ThreadId) (st : Status) (s : State) : State :=
  (s.withS SessionState.reset).setTask t (.closeRet st)

/-! ### One step of the command in progress in a thread -/

/-- The check of S.fault of a blocking command whose lines are taken apart (R241, R301), after which it waits. -/
def apartStep (t : ThreadId) (c : Apart) (s : State) : State :=
  if s.S.fault then s.takeException t (.transportError s.S.faultInfo)
  else
    match c with
    | .write ops => s.setTask t (.admitWrite ops)
    | .read addrs al => s.setTask t (.admitRead addrs al)
    | .demux src timeout => s.setTask t (.demuxWait src timeout)
    | .admitEnded => s.setTask t .admitEnded
    | .demuxEnded => s.setTask t .demuxEnded

/-- The next step of a command in progress; no change while it waits. -/
def taskStep (P : Config.Params) (t : ThreadId) (task : Task) (s : State) : State :=
  match task with
  | .apart c => apartStep t c s
  | .admitWrite ops => if s.S.rapPhase = .idle then writeBegin t ops s else s
  | .admitRead addrs al => if s.S.rapPhase = .idle then readBegin t addrs al s else s
  | .admitEnded => if s.S.rapPhase = .idle then s.takeException t .notOpen else s
  | .write pc => writeStep P t pc s
  | .read n al pc => readStep P t n al pc s
  | .closeWait => if s.S.rapPhase = .idle then closeBegin t s else s
  | .closeEnded => s.takeException t .notOpen
  | .closeStop => shutdownStop t s
  | .closeJoin => if s.S.workersEnded then joinEnd t .ok s else s
  | .closeRet st => s.endCommand t ⟨st, .none⟩
  | .demuxWait src timeout => demuxWaitStep t src timeout s
  | .demuxEnded => s.endCommand t ⟨.nodata, .none⟩
  | .demuxRoom v d => demuxWrite t v d s

/-- The timeout a command in progress waits under fires (R15, R316); no change where none is enabled. -/
def taskTimeout (P : Config.Params) (t : ThreadId) (task : Task) (s : State) : State :=
  match task with
  | .write (.drain fpc) => writeDrain t (readFrameTimeout P fpc s.S) s
  | .read n al (.collect left fpc) => readCollect t n al left (readFrameTimeout P fpc s.S) s
  | .read n al (.drainRd fpc) => readDrainRd t n al (readFrameTimeout P fpc s.S) s
  | .read n al (.drainAck fpc) => readDrainAck t n al (readFrameTimeout P fpc s.S) s
  | .closeJoin => if s.S.workersEnded then s else joinEnd t .joinTimeout s
  | .demuxWait src _ => demuxTimeout t src s
  | _ => s

/-- A thread's command takes its next step (R8); no change where the thread has none in progress. -/
def advanceThread (P : Config.Params) (t : ThreadId) (s : State) : State :=
  match s.taskOf t with
  | some task => taskStep P t task s
  | none => s

/-- The timeout of a thread's command fires; no change where the thread has none in progress. -/
def timeoutThread (P : Config.Params) (t : ThreadId) (s : State) : State :=
  match s.taskOf t with
  | some task => taskTimeout P t task s
  | none => s

end Sys2Proof.Machine
end

