-- ==== Sys2Proof/Machine/Dispatch.lean ====
section
/-! DEFINITION. exec: one arm per instruction, each one call of its meaning. -/

namespace Sys2Proof.Machine

def exec (i : Instr) (s : State) : Host.Outcome State Fault Refusal :=
  match i with
  | .bvFromValue value size => Sys2Proof.Machine.execBvFromValue value size s
  | .bvToValue v => Sys2Proof.Machine.execBvToValue v s
  | .bvFromBytes b => Sys2Proof.Machine.execBvFromBytes b s
  | .bvToBytes v => Sys2Proof.Machine.execBvToBytes v s
  | .bvAppendRight a b => Sys2Proof.Machine.execBvAppendRight a b s
  | .bvAppendLeft a b => Sys2Proof.Machine.execBvAppendLeft a b s
  | .bvPopLeft v k => Sys2Proof.Machine.execBvPopLeft v k s
  | .bvPopRight v k => Sys2Proof.Machine.execBvPopRight v k s
  | .bvConcat a b => Sys2Proof.Machine.execBvConcat a b s
  | .bvReverse v => Sys2Proof.Machine.execBvReverse v s
  | .bvEq a b => Sys2Proof.Machine.execBvEq a b s
  | .bvLen v => Sys2Proof.Machine.execBvLen v s
  | .polyNew value degree repr => Sys2Proof.Machine.execPolyNew value degree repr s
  | .polyToRepr p repr => Sys2Proof.Machine.execPolyToRepr p repr s
  | .crc data p start => Sys2Proof.Machine.execCrc data p start s
  | .frameBuild type fields => Sys2Proof.Machine.execFrameBuild type fields s
  | .frameBuildCrc type fields crc => Sys2Proof.Machine.execFrameBuildCrc type fields crc s
  | .frameEncode f => Sys2Proof.Machine.execFrameEncode f s
  | .frameDecode type v => Sys2Proof.Machine.execFrameDecode type v s
  | .frameCrcOk f => Sys2Proof.Machine.execFrameCrcOk f s
  | .uplinkResolve b => Sys2Proof.Machine.execUplinkResolve b s
  | .sessionOpen chip => Sys2Proof.Machine.execSessionOpen chip s
  | .sessionClose => Sys2Proof.Machine.execSessionClose s
  | .writeRegisters ops => Sys2Proof.Machine.execWriteRegisters ops s
  | .readRegisters addrs al => Sys2Proof.Machine.execReadRegisters addrs al s
  | .statusRead => Sys2Proof.Machine.execStatusRead s
  | .demuxWrite value dest => Sys2Proof.Machine.execDemuxWrite value dest s
  | .demuxRead source timeout => Sys2Proof.Machine.execDemuxRead source timeout s
  | .frameDl40 chip seq rt payload crc => Sys2Proof.Machine.execFrameDl40 chip seq rt payload crc s
  | .frameAck24 ack seq cp ta sa se oe ts crc => Sys2Proof.Machine.execFrameAck24 ack seq cp ta sa se oe ts crc s
  | .frameRd24 data seq crc => Sys2Proof.Machine.execFrameRd24 data seq crc s
  | .frameHit24 raw => Sys2Proof.Machine.execFrameHit24 raw s

end Sys2Proof.Machine
end

