-- ==== Sys2Proof/Machine/Agents.lean ====
section
/-! DEFINITION. What one choice makes the machine do: a thread issues a command, a frame word crosses the transport port,
or an agent takes its step (R7, R293). Where the choice is not enabled nothing changes. -/

namespace Sys2Proof.Machine

/-- The port word a choice brings to the core. -/
def portWordOf : Input → Option PortWord
  | .issue _ code ops => some (.command code ops)
  | .issueApart _ code ops => some (.command code ops)
  | .down w => some (.down w)
  | .up w => some (.up w)
  | .advance _ | .timeout _ | .sendw | .pollw | .comm _ _ | .rst => none

/-- A thread issues a command (R8), which is taken by `run`. A thread with a command outstanding issues none. A reserved
code is answered with ILLEGAL_COMMAND and changes nothing (R123, R338). -/
def issueBy (run : Instr → State → Host.Outcome State Fault Refusal) (t : ThreadId) (code : BitVec 8)
    (ops : List Operand) (s : State) : Host.Outcome State Fault Refusal :=
  if (s.taskOf t).isSome then .next s
  else
    match decode (.command code ops) with
    | .ok i => run i { s with caller := t }
    | .error (.reservedCode c) => .next (({ s with caller := t } : State).takeException t (.illegalCommand c))
    | .error e => .refused (.notACommand e)

/-- A thread issues a command, which is executed. -/
def issueCommand (t : ThreadId) (code : BitVec 8) (ops : List Operand) (s : State) :
    Host.Outcome State Fault Refusal := issueBy exec t code ops s

/-- A blocking command whose check of S.session has not been made yet (R241, R301); none for every other instruction. -/
def apartOf : Instr → Option Apart
  | .writeRegisters ops => some (.write ops)
  | .readRegisters addrs al => some (.read addrs al)
  | .demuxRead src timeout => some (.demux src timeout)
  | .bvFromValue _ _ | .bvToValue _ | .bvFromBytes _ | .bvToBytes _ | .bvAppendRight _ _ | .bvAppendLeft _ _
  | .bvPopLeft _ _ | .bvPopRight _ _ | .bvConcat _ _ | .bvReverse _ | .bvEq _ _ | .bvLen _ | .polyNew _ _ _
  | .polyToRepr _ _ | .crc _ _ _ | .frameBuild _ _ | .frameBuildCrc _ _ _ | .frameEncode _ | .frameDecode _ _
  | .frameCrcOk _ | .uplinkResolve _ | .sessionOpen _ | .sessionClose | .statusRead | .demuxWrite _ _
  | .frameDl40 _ _ _ _ _ | .frameAck24 _ _ _ _ _ _ _ _ _ | .frameRd24 _ _ _ | .frameHit24 _ => none

/-- The first line of a blocking command, its check of S.session, in a step of its own (R241, R301); every other
instruction is executed. -/
def execApart (i : Instr) (s : State) : Host.Outcome State Fault Refusal :=
  match apartOf i with
  | some c => .next (if s.S.session ≠ .opened then s.takeException s.caller .notOpen else s.setTask s.caller (.apart c))
  | none => exec i s

/-- A 24-bit word crosses the port: a word of one of the uplink layouts is that instruction; a word beginning `110` or
`111` is no instruction and is routed like any other value (R105, R311). -/
def uplinkWord (w : BitVec 24) (s : State) : Host.Outcome State Fault Refusal :=
  match decode (.up w) with
  | .ok i => exec i s
  | .error _ => .next (uplinkCrosses w s)

/-- A 40-bit word crosses the port: always a Downlink word (R105). -/
def downlinkWord (w : BitVec 40) (s : State) : Host.Outcome State Fault Refusal :=
  match decode (.down w) with
  | .ok i => exec i s
  | .error e => .refused (.notACommand e)

/-- What one choice does, under the OPEN parameters `P`. -/
def stepInput (P : Config.Params) (i : Input) (s : State) : Host.Outcome State Fault Refusal :=
  match i with
  | .issue t code ops => issueCommand t code ops s
  | .issueApart t code ops => issueBy execApart t code ops s
  | .down w => downlinkWord w s
  | .up w => uplinkWord w s
  | .advance t => .next (advanceThread P t s)
  | .timeout t => .next (timeoutThread P t s)
  | .sendw => .next (s.withS (sendwStep s.S))
  | .pollw => .next (s.withS (pollwStep s.S))
  | .comm onWrite onRead => .next (commStep onWrite onRead s)
  | .rst => .next s.blockReset

/-- One step under the OPEN parameters `P`: the next choice is taken. With no choice made, the core waits (R362). -/
def stepWith (P : Config.Params) (s : State) : Host.Outcome State Fault Refusal :=
  match s.inputs with
  | [] => .next s
  | i :: rest => stepInput P i { s with inputs := rest }

/-- A thread with no command in progress. -/
def State.idleThread (s : State) : ThreadId := (s.threads.map (·.1)).foldl (fun m t => max m (t + 1)) 0

/-- The choice that brings a port word to the core, a command from an idle thread. -/
def inputOfPortWord (t : ThreadId) : PortWord → Input
  | .command code ops => .issue t code ops
  | .down w => .down w
  | .up w => .up w

/-- The transport port where a word of this kind is what crosses it next. A command needs nothing. An uplink word is taken by
a READ of COMM, and a Downlink word by a WRITE of it from the head of S.wrq (R309). -/
def SessionState.portAt (S : SessionState) : PortWord → SessionState
  | .command _ _ => S
  | .down w =>
    { S with wComm := .running, wrq := ⟨.bytes (bytesOfDown w), Config.params.ctrlDest⟩ :: S.wrq }
  | .up _ => { S with wComm := .running, wrq := [], readPending := S.readPending + 1, stop := false }

end Sys2Proof.Machine
end

