-- ==== Sys2Proof/Machine/Step.lean ====
section
/-! DEFINITION. One step of the machine. -/

namespace Sys2Proof.Machine

/-- One step of the machine (R7, R293): the next choice is taken under the machine's parameters. -/
def step (s : State) : Host.Outcome State Fault Refusal := stepWith Config.params s

/-- The state in which the very next step takes the instruction of an opcode-table word: it stands first among the
choices, a command as issued by a thread that has none in progress, a frame word with COMM at the operation by
which it crosses the transport port (assumption log 5). -/
def State.withFetchWord (s : State) (nbits w : Nat) : State :=
  { s with
    S := s.S.portAt (tablePortWord nbits w)
    inputs := inputOfPortWord s.idleThread (tablePortWord nbits w) :: s.inputs }

end Sys2Proof.Machine
end

