-- ==== Sys2Proof/Safety.lean ====
section
/-! DEFINITION. The terms in which claims about the machine are stated: what a state that runs reach looks like, what has
been handed to the transport and what still waits, and runs of one thread. -/

namespace Sys2Proof.Machine

/-- The phases S.rap_phase may have while a command stands at this point (R249); none for a command that does not hold
the phase. -/
def Task.phases : Task → List RapPhase
  | .write (.counters _) => [.wSend]
  | .write (.lists _) => [.wSend]
  | .write (.send _) => [.wSend]
  | .write (.draw _ _ _) => [.wSend]
  | .write (.push _ _ _ _) => [.wSend]
  | .write (.drain _) => [.wAck]
  | .write .ret => [.wAck]
  | .read _ _ (.counters _) => [.rSend]
  | .read _ _ (.lists _) => [.rSend]
  | .read _ _ (.send _) => [.rSend]
  | .read _ _ (.draw _ _) => [.rSend]
  | .read _ _ (.push _ _ _) => [.rSend]
  | .read _ _ (.count _) => [.rSend]
  | .read _ _ (.collect _ _) => [.rCollect]
  | .read _ _ .guardFirst => [.rCollect]
  | .read _ _ .toDrainRd => [.rCollect]
  | .read _ _ (.drainRd _) => [.rDrainRd]
  | .read _ _ .toDrainAck => [.rDrainRd]
  | .read _ _ (.drainAck _) => [.rDrainAck]
  | .read _ _ .guardAgain => [.rDrainAck]
  | .read _ _ .stepFive => [.rDrainAck]
  | .read _ _ .align => [.rAlign]
  | .read _ _ (.fill _) => [.rAlign]
  | .read _ _ .fast => [.rCollect, .rDrainAck]
  | .read _ _ .ret => [.rCollect, .rDrainAck]
  | .closeStop => [.closing]
  | .closeJoin => [.closing]
  | .apart _ | .admitWrite _ | .admitRead _ _ | .admitEnded | .closeWait | .closeEnded | .closeRet _ | .demuxWait _ _
  | .demuxEnded | .demuxRoom _ _ => []

/-- The session state in which a command may stand at this point: a RAP command in ADMIT or after it, a close before its
stop and a DEMUX_READ in its wait stand in OPEN, a close in JOIN in STOPPING (R244, R301, R315, R337). So no command that
waits on one session is found in a later one. -/
def Task.sessionFits (S : SessionState) : Task → Prop
  | .write _ => S.session = .opened
  | .read _ _ _ => S.session = .opened
  | .apart (.write _) => S.session = .opened
  | .apart (.read _ _) => S.session = .opened
  | .apart (.demux _ _) => S.session = .opened
  | .admitWrite _ => S.session = .opened
  | .admitRead _ _ => S.session = .opened
  | .closeWait => S.session = .opened
  | .closeStop => S.session = .opened
  | .closeJoin => S.session = .stopping
  | .demuxWait _ _ => S.session = .opened
  | .apart .admitEnded | .apart .demuxEnded | .admitEnded | .closeEnded | .closeRet _ | .demuxEnded
  | .demuxRoom _ _ => True

/-- What every state that a run from reset reaches has, and every step keeps. -/
structure State.Inv (s : State) : Prop where
  /-- One command in progress per thread, in canonical form (R8). -/
  threadsWf : assocWf s.threads = true
  /-- The receive queues are in canonical form (R46). -/
  rxWf : s.S.rxWf = true
  /-- At most one command holds S.rap_phase (R249). -/
  oneHolder : ∀ t t' k k', s.taskOf t = some k → s.taskOf t' = some k' → k.phases ≠ [] → k'.phases ≠ [] → t = t'
  /-- The phase is one that the command holding it moves through (R249). -/
  holderPhase : ∀ t k, s.taskOf t = some k → k.phases ≠ [] → s.S.rapPhase ∈ k.phases
  /-- IDLE means that no RAP command is running, and any other phase that one is (R38). -/
  phaseHolder : s.S.rapPhase ≠ .idle → ∃ t k, s.taskOf t = some k ∧ k.phases ≠ []
  /-- The session state fits the commands in progress (R337). -/
  holderSession : ∀ t k, s.taskOf t = some k → k.sessionFits s.S
  /-- CLOSED holds no session state (R350, R51). -/
  closedReset : s.S.session = .closed → s.S = SessionState.reset
  /-- The stop signal is up exactly in STOPPING (R47, R315). -/
  stopMeansStopping : s.S.stop = true ↔ s.S.session = .stopping
  /-- A fault means that COMM is HALTED (R313). -/
  faultMeansHalted : s.S.fault = true ↔ s.S.wComm = .halted
  /-- The fault's info is held exactly while there is a fault (R37). -/
  faultInfoHeld : s.S.faultInfo.isSome = s.S.fault
  /-- HALTED is held only by COMM (R48). -/
  onlyCommHalts : s.S.wSend ≠ .halted ∧ s.S.wPoll ≠ .halted
  /-- While OPEN no worker has exited (R48, R51). -/
  openWorkers : s.S.session = .opened → s.S.wSend = .running ∧ s.S.wPoll = .running ∧ s.S.wComm ≠ .exited
  /-- SENDW exits with nothing left to send (R305). -/
  sendwLeavesNothing : s.S.wSend = .exited → s.S.sendq = [] ∧ s.S.stage = none
  /-- COMM exits after SENDW, with every WRITE task served (R309). -/
  commLeavesNothing : s.S.wComm = .exited → s.S.wSend = .exited ∧ s.S.wrq = []

/-- The items TP_Write was called with in a history of the transport port, oldest first, whatever ENV answered. -/
def handedOver (wire : List TpEvent) : List Item :=
  wire.filterMap (fun e =>
    match e with
    | .wrote item _ => some item
    | .read _ => none)

/-- Every item on its way or handed over, in the order of its push: handed to TP_Write, in S.wrq, staged, in S.sendq. -/
def State.pipeline (s : State) : List Item :=
  handedOver s.wire ++ s.S.wrq ++ s.S.stage.toList ++ s.S.sendq

/-- One more response to the calling thread, and nothing else changed. -/
def State.answered (s : State) (st : Status) (r : Result) : State :=
  { s with out := s.out ++ [(s.caller, ⟨st, r⟩)] }

/-- The calling thread has no command in progress, as R8 and D33 ask of a thread that issues one. -/
def State.callerIdle (s : State) : Prop := s.taskOf s.caller = none

/-- `k` steps of the command in progress in a thread, with no other agent between them. -/
def runThread (P : Config.Params) (t : ThreadId) : Nat → State → State
  | 0, s => s
  | k + 1, s => runThread P t k (advanceThread P t s)

/-- The Downlink frame of R101 with a fresh CRC. -/
def downlinkFrame (chip seq : BitVec 4) (rt : BitVec 2) (payload : Nat) : Frame :=
  ⟨.dl, [chip.toNat, seq.toNat, rt.toNat, payload],
    some (crcOf Config.polyDl (bodyBits .dl [chip.toNat, seq.toNat, rt.toNat, payload]))⟩

/-- The ReadData frame of R103 with a fresh CRC. -/
def readDataFrame (seq : BitVec 3) (data : BitVec 15) : Frame :=
  ⟨.rd, [data.toNat, seq.toNat], some (crcOf Config.polyRd (bodyBits .rd [data.toNat, seq.toNat]))⟩

/-- The items SEND_DL pushes for a list of requests, the first with sequence number `seq` and each next with one more. -/
def downlinkItems (P : Config.Params) (chip : BitVec 4) : BitVec 4 → List (Config.ReqKind × Nat) → List Item
  | _, [] => []
  | seq, f :: fs =>
    ⟨.bytes (frameBytes (downlinkFrame chip seq (P.reqCode f.1) f.2)), P.ctrlDest⟩ ::
      downlinkItems P chip (seq + 1) fs

end Sys2Proof.Machine
end

