-- ==== Sys2Proof/Certificates/Slice0/Obligations.lean ====
section
/-! DEFINITION. The statements for the provers. -/

open Sys2Proof Sys2Proof.Machine

/-! ### Decoding and stepping -/

/-- Decoding the port word of a well-formed instruction gives the instruction back: every operand of every command, and
every field of every frame word. That commands carry typed operands is the model's reading (assumption log 3). -/
def Obligations.DecodeEncodeRoundTrip : Prop :=
  ∀ i : Instr, i.wellFormed = true → decode (encode i) = .ok i

/-- R105, the spec's own inference: the first three bits of a 24-bit word tell its type, each such word is the word of
the instruction it decodes to, `110` and `111` are no frame and UPLINK_RESOLVE answers NO_FRAME for them; every 40-bit
word is a Downlink word. -/
def Obligations.UplinkPrefixSpace : Prop :=
  (∀ w : BitVec 24,
    (w.getMsbD 0 = false → ∃ r, decode (.up w) = .ok (.frameHit24 r) ∧ encode (.frameHit24 r) = .up w) ∧
    (w.extractLsb' 21 3 = 0b100#3 → ∃ k s cp ta sa se oe t c,
      decode (.up w) = .ok (.frameAck24 k s cp ta sa se oe t c) ∧
      encode (.frameAck24 k s cp ta sa se oe t c) = .up w) ∧
    (w.extractLsb' 21 3 = 0b101#3 → ∃ d s c,
      decode (.up w) = .ok (.frameRd24 d s c) ∧ encode (.frameRd24 d s c) = .up w) ∧
    (w.extractLsb' 21 3 = 0b110#3 ∨ w.extractLsb' 21 3 = 0b111#3 →
      decode (.up w) = .error (.noFrame w) ∧ uplinkResolve (bytesOfUp w) = .ok (.noFrame, none))) ∧
  (∀ w : BitVec 40, ∃ a s t p c,
    decode (.down w) = .ok (.frameDl40 a s t p c) ∧ encode (.frameDl40 a s t p c) = .down w)

/-- A few words of each kind, written out from the spec, decode to the instruction they stand for. -/
def Obligations.WrittenWordsDecode : Prop :=
  decode (.command 0x01 [.int 5, .nat 4]) = .ok (.bvFromValue 5 4) ∧
  decode (.command 0x10 [.nat 0x62cc, .nat 15, .nat 2]) = .ok (.polyNew 0x62cc 15 2) ∧
  decode (.command 0x25 [.bytes [0xa0, 0x00, 0xa4]]) = .ok (.uplinkResolve [0xa0, 0x00, 0xa4]) ∧
  decode (.command 0x34 [.addrs [0x10, 0x18, 0x20]]) = .ok (.readRegisters [0x10, 0x18, 0x20] true) ∧
  decode (.command 0x41 [.chan 1, .nat 0]) = .ok (.demuxRead 1 0) ∧
  decode (.command 0x32 []) = .error (.reservedCode 0x32) ∧
  decode (.down 0x97bb2a615c) = .ok (.frameDl40 9 7 2 0x7654 0x615c) ∧
  decode (.up 0xa000a4) = .ok (.frameRd24 2 4 4) ∧
  decode (.up 0x8a82a0) = .ok (.frameAck24 1 5 0 0 0 0 0 0x2a 0) ∧
  decode (.up 0x123456) = .ok (.frameHit24 0x123456)

/-- R338: every code outside R120 is answered with ILLEGAL_COMMAND in every state, whatever operands stand beside it,
and changes no state. -/
def Obligations.ReservedCodeIsIllegalCommand : Prop :=
  ∀ (s : State) (t : ThreadId) (code : BitVec 8) (ops : List Operand) (rest : List Input),
    code.toNat ∉ [0x01, 0x02, 0x03, 0x04, 0x05, 0x06, 0x07, 0x08, 0x09, 0x0A, 0x0B, 0x0C, 0x10, 0x11, 0x12,
      0x20, 0x21, 0x22, 0x23, 0x24, 0x25, 0x30, 0x31, 0x33, 0x34, 0x35, 0x40, 0x41] →
    s.taskOf t = none → s.inputs = .issue t code ops :: rest ∨ s.inputs = .issueApart t code ops :: rest →
    step s = .next { s with
      inputs := rest
      caller := t
      out := s.out ++ [(t, ⟨.illegalCommand code, .none⟩)] }

/-- What a step is, choice by choice (R293). A step runs the decoded instruction: a command issued by an idle thread, or a
frame word on the wire, is taken off the choices and executed, the issuing thread being the caller. A step of a thread's
command, of its timeout, of SENDW, POLLW or COMM is the step of that agent under the machine's parameters (R305, R307,
R309), and with no choice left the core waits (R362). That a step takes its choice from a list (assumption log 4), that a frame word is
executed as an instruction when it crosses the port (assumption log 5), and that a command that blocks may be issued with
its lines apart, its check of S.session in this step and the rest later (assumption log 7), is the model's choice; any
other command is executed the same way under both. -/
def Obligations.StepRunsDecodedInstruction : Prop :=
  (∀ (s : State) (i : Instr) (rest : List Input),
    (∀ t code ops, s.inputs = .issue t code ops :: rest → s.taskOf t = none → decode (.command code ops) = .ok i →
      step s = exec i { s with inputs := rest, caller := t }) ∧
    (∀ t code ops, s.inputs = .issueApart t code ops :: rest → s.taskOf t = none →
      decode (.command code ops) = .ok i →
      (apartOf i = none → step s = exec i { s with inputs := rest, caller := t }) ∧
      (∀ c, apartOf i = some c → s.S.session = .opened →
        step s = .next (({ s with inputs := rest, caller := t } : State).setTask t (.apart c))) ∧
      (∀ c, apartOf i = some c → s.S.session ≠ .opened →
        step s = .next { s with inputs := rest, caller := t, out := s.out ++ [(t, ⟨.notOpen, .none⟩)] })) ∧
    (∀ w, s.inputs = .up w :: rest → decode (.up w) = .ok i → step s = exec i { s with inputs := rest }) ∧
    (∀ w, s.inputs = .down w :: rest → decode (.down w) = .ok i → step s = exec i { s with inputs := rest })) ∧
  ∀ (s : State) (rest : List Input),
    (s.inputs = [] → step s = .next s) ∧
    (∀ t, s.inputs = .advance t :: rest →
      step s = .next (advanceThread Config.params t { s with inputs := rest })) ∧
    (∀ t, s.inputs = .timeout t :: rest →
      step s = .next (timeoutThread Config.params t { s with inputs := rest })) ∧
    (s.inputs = .sendw :: rest → step s = .next { s with inputs := rest, S := sendwStep s.S }) ∧
    (s.inputs = .pollw :: rest → step s = .next { s with inputs := rest, S := pollwStep s.S }) ∧
    (∀ x y, s.inputs = .comm x y :: rest → step s = .next (commStep x y { s with inputs := rest })) ∧
    (∀ t code ops, s.inputs = .issue t code ops :: rest ∨ s.inputs = .issueApart t code ops :: rest →
      s.taskOf t ≠ none → step s = .next { s with inputs := rest }) ∧
    (∀ t, s.inputs = .advance t :: rest ∨ s.inputs = .timeout t :: rest →
      s.taskOf t = none → step s = .next { s with inputs := rest }) ∧
    (∀ w : BitVec 24, s.inputs = .up w :: rest → w.extractLsb' 22 2 = 0b11#2 →
      (s.S.wComm = .running → s.S.wrq = [] → 0 < s.S.readPending → s.S.stop = false → step s = .next { s with
        inputs := rest
        S := s.S.pushRx Config.ctrlSrc (.bytes (bytesOfUp w))
        wire := s.wire ++ [.read (.data Config.ctrlSrc (.bytes (bytesOfUp w)))] }) ∧
      (s.S.wComm ≠ .running ∨ s.S.wrq ≠ [] ∨ s.S.readPending = 0 ∨ s.S.stop = true →
        step s = .next { s with inputs := rest }))

/-- The frame words of R101 to R104 and the bits FCODEC gives the same frame (R202, R207) are the same bytes. -/
def Obligations.FrameWordsAreCodecBytes : Prop :=
  (∀ a s t p c, bytesOfDown (encodeDl40 a s t p c) =
    frameBytes ⟨.dl, [a.toNat, s.toNat, t.toNat, p.toNat], some c.toNat⟩) ∧
  (∀ k s cp ta sa se oe t c, bytesOfUp (encodeAck24 k s cp ta sa se oe t c) =
    frameBytes ⟨.ack, [k.toNat, s.toNat, cp.toNat, ta.toNat, sa.toNat, se.toNat, oe.toNat, t.toNat],
      some c.toNat⟩) ∧
  (∀ d s c, bytesOfUp (encodeRd24 d s c) = frameBytes ⟨.rd, [d.toNat, s.toNat], some c.toNat⟩) ∧
  (∀ r, bytesOfUp (encodeHit24 r) = frameBytes ⟨.hit, [r.toNat], none⟩)

/-! ### Bit vectors -/

/-- R141, R11: BV_FROM_VALUE answers the vector of that length and value, or VALUE_RANGE. -/
def Obligations.BvFromValueMeaning : Prop :=
  ∀ (value : Int) (size : Nat) (s : State), s.callerIdle →
    (0 ≤ value ∧ value < 2 ^ size → ∃ v : Bv, v.length = size ∧ (bvValue v : Int) = value ∧
      exec (.bvFromValue value size) s = .next (s.answered .ok (.bv v))) ∧
    (value < 0 ∨ 2 ^ size ≤ value → exec (.bvFromValue value size) s =
      .next (s.answered (.constructionError ⟨.valueRange, .value, .int value⟩) .none))

/-- R142, R11: code 0x02 is BV_TO_VALUE, which answers the sum of the bits, the leftmost weighing most. -/
def Obligations.BvToValueMeaning : Prop :=
  ∀ (v : Bv) (s : State), decode (.command 0x02 [.bv v]) = .ok (.bvToValue v) ∧ (s.callerIdle →
    exec (.bvToValue v) s = .next (s.answered .ok
      (.nat ((List.range v.length).map (fun p => (v.getD p false).toNat * 2 ^ (v.length - 1 - p))).sum)))

/-- R143, R144, R74: byte i is bits 8i to 8i+7, most significant first, and a length that is no multiple of 8 has no
bytes; that its info names `bv` is the model's choice (assumption log 9), as R144 calls the operand v. -/
def Obligations.BvBytesMeaning : Prop :=
  (∀ (b : List Byte) (s : State), s.callerIdle → ∃ v : Bv, v.length = 8 * b.length ∧
    (∀ i < b.length, bvValue ((v.drop (8 * i)).take 8) = (b.getD i 0).toNat) ∧
    exec (.bvFromBytes b) s = .next (s.answered .ok (.bv v))) ∧
  (∀ (v : Bv) (s : State), s.callerIdle → v.length % 8 ≠ 0 →
    exec (.bvToBytes v) s = .next (s.answered (.constructionError ⟨.widthMismatch, .bv, .bv v⟩) .none)) ∧
  (∀ (v : Bv) (s : State), s.callerIdle → v.length % 8 = 0 → ∃ b : List Byte, b.length = v.length / 8 ∧
    (∀ i < b.length, (b.getD i 0).toNat = bvValue ((v.drop (8 * i)).take 8)) ∧
    exec (.bvToBytes v) s = .next (s.answered .ok (.bytes b)))

/-- R145, R146, R149: the three joins, with the value of what they answer. -/
def Obligations.BvJoinMeaning : Prop :=
  ∀ (a b : Bv) (s : State), s.callerIdle →
    (∃ r : Bv, r.length = a.length + b.length ∧ bvValue r = bvValue a * 2 ^ b.length + bvValue b ∧
      exec (.bvAppendRight a b) s = .next (s.answered .ok (.bv r)) ∧
      exec (.bvConcat a b) s = .next (s.answered .ok (.bv r))) ∧
    (∃ r : Bv, r.length = a.length + b.length ∧ bvValue r = bvValue b * 2 ^ a.length + bvValue a ∧
      exec (.bvAppendLeft a b) s = .next (s.answered .ok (.bv r)))

/-- R147, R148: the removed bits and the rest make up the vector, and a pop of more bits than it holds is an error;
that its info names k is the model's choice (assumption log 9). -/
def Obligations.BvPopMeaning : Prop :=
  ∀ (v : Bv) (k : Nat) (s : State), s.callerIdle →
    (k ≤ v.length → ∃ removed rest : Bv, removed.length = k ∧ removed ++ rest = v ∧
      exec (.bvPopLeft v k) s = .next (s.answered .ok (.popped removed rest))) ∧
    (k ≤ v.length → ∃ removed rest : Bv, removed.length = k ∧ rest ++ removed = v ∧
      bvValue removed = bvValue v % 2 ^ k ∧
      exec (.bvPopRight v k) s = .next (s.answered .ok (.popped removed rest))) ∧
    (v.length < k →
      exec (.bvPopLeft v k) s = .next (s.answered (.constructionError ⟨.popUnderflow, .k, .nat k⟩) .none) ∧
      exec (.bvPopRight v k) s = .next (s.answered (.constructionError ⟨.popUnderflow, .k, .nat k⟩) .none))

/-- R150 to R152, R140: the codes of BV_REVERSE, BV_EQ and BV_LEN; reversal position by position, equality of vectors,
and length. -/
def Obligations.BvReverseEqLenMeaning : Prop :=
  (∀ a b : Bv, decode (.command 0x0A [.bv a]) = .ok (.bvReverse a) ∧
    decode (.command 0x0B [.bv a, .bv b]) = .ok (.bvEq a b) ∧
    decode (.command 0x0C [.bv a]) = .ok (.bvLen a)) ∧
  (∀ (v : Bv) (s : State), s.callerIdle → ∃ w : Bv, w.length = v.length ∧
    (∀ p < v.length, w.getD p false = v.getD (v.length - 1 - p) false) ∧
    exec (.bvReverse v) s = .next (s.answered .ok (.bv w))) ∧
  (∀ (a b : Bv) (s : State), s.callerIdle →
    exec (.bvEq a b) s = .next (s.answered .ok (.bool (decide (a = b))))) ∧
  (∀ (v : Bv) (s : State), s.callerIdle → exec (.bvLen v) s = .next (s.answered .ok (.nat v.length)))

/-! ### Polynomials and CRC -/

/-- R172, R173, R341: code 0x10 is POLY_NEW; its checks in their order, and the coefficients of the normal form it
answers (R171). -/
def Obligations.PolyNewMeaning : Prop :=
  (∀ value d repr, decode (.command 0x10 [.nat value, .nat d, .nat repr]) = .ok (.polyNew value d repr)) ∧
  ∀ (value d repr : Nat) (s : State), s.callerIdle →
    (d < 1 ∨ 16 < d → exec (.polyNew value d repr) s =
      .next (s.answered (.constructionError ⟨.badDegree, .degree, .nat d⟩) .none)) ∧
    (1 ≤ d → d ≤ 16 → 2 < repr → exec (.polyNew value d repr) s =
      .next (s.answered (.constructionError ⟨.badRepr, .repr, .nat repr⟩) .none)) ∧
    (1 ≤ d → d ≤ 16 → repr ≤ 2 → 2 ^ d ≤ value → exec (.polyNew value d repr) s =
      .next (s.answered (.constructionError ⟨.valueRange, .value, .nat value⟩) .none)) ∧
    (1 ≤ d → d ≤ 16 → repr ≤ 2 → value < 2 ^ d →
      value.testBit (if repr = 0 then 0 else d - 1) = false → exec (.polyNew value d repr) s =
      .next (s.answered (.constructionError ⟨.polyImplicitBit, .value, .nat value⟩) .none)) ∧
    (1 ≤ d → d ≤ 16 → repr ≤ 2 → value < 2 ^ d →
      value.testBit (if repr = 0 then 0 else d - 1) = true → ∃ N, N < 2 ^ d ∧ N.testBit 0 = true ∧
      (repr = 0 → N = value) ∧
      (repr = 1 → ∀ i < d, N.testBit i = value.testBit (d - 1 - i)) ∧
      (repr = 2 → ∀ i < d, 0 < i → N.testBit i = value.testBit (i - 1)) ∧
      exec (.polyNew value d repr) s = .next (s.answered .ok (.poly ⟨N, d⟩)))

/-- R174: code 0x11 is POLY_TO_REPR; its coefficients, and BAD_REPR for a reserved code. -/
def Obligations.PolyToReprMeaning : Prop :=
  ∀ (p : Poly) (repr : Nat) (s : State), p.wellFormed = true → s.callerIdle →
    decode (.command 0x11 [.poly p, .nat repr]) = .ok (.polyToRepr p repr) ∧
    (2 < repr → exec (.polyToRepr p repr) s =
      .next (s.answered (.constructionError ⟨.badRepr, .repr, .nat repr⟩) .none)) ∧
    (repr ≤ 2 → ∃ n, n < 2 ^ p.degree ∧
      (repr = 0 → n = p.normal) ∧
      (repr = 1 → ∀ i < p.degree, n.testBit i = p.normal.testBit (p.degree - 1 - i)) ∧
      (repr = 2 → n.testBit (p.degree - 1) = true ∧ ∀ i < p.degree - 1, n.testBit i = p.normal.testBit (i + 1)) ∧
      exec (.polyToRepr p repr) s = .next (s.answered .ok (.nat n)))

/-- R175, the spec's own inference: both round trips between polynomial values and representations. -/
def Obligations.PolyRoundTrip : Prop :=
  (∀ (p : Poly) (repr : Nat), p.wellFormed = true → repr ≤ 2 →
    ∃ v, polyToRepr p repr = .ok v ∧ polyNew v p.degree repr = .ok p) ∧
  (∀ (value d repr : Nat) (p : Poly), polyNew value d repr = .ok p →
    p.wellFormed = true ∧ polyToRepr p repr = .ok value)

/-- R177, R176: code 0x12 is CRC; its default start, its range check, and its register bit by bit. -/
def Obligations.CrcMeaning : Prop :=
  ∀ (p : Poly) (s : State), p.wellFormed = true → s.callerIdle →
    (∀ data, decode (.command 0x12 [.bv data, .poly p]) = .ok (.crc data p none)) ∧
    (∀ data i, decode (.command 0x12 [.bv data, .poly p, .nat i]) = .ok (.crc data p (some i))) ∧
    (∀ data, exec (.crc data p none) s = exec (.crc data p (some (2 ^ p.degree - 1))) s) ∧
    (∀ data i, 2 ^ p.degree ≤ i → exec (.crc data p (some i)) s =
      .next (s.answered (.constructionError ⟨.valueRange, .init, .nat i⟩) .none)) ∧
    (∀ i, i < 2 ^ p.degree → exec (.crc [] p (some i)) s = .next (s.answered .ok (.nat i))) ∧
    (∀ data b i, i < 2 ^ p.degree → ∃ r, r < 2 ^ p.degree ∧
      exec (.crc data p (some i)) s = .next (s.answered .ok (.nat r)) ∧
      exec (.crc (data ++ [b]) p (some i)) s = .next (s.answered .ok
        (.nat ((2 * r % 2 ^ p.degree) ^^^ (if r.testBit (p.degree - 1) = b then 0 else p.normal)))))

/-- R178, the spec's own inference: the register is `(init * x^n + D(x) * x^d) mod G(x)` over GF(2). -/
def Obligations.CrcClosedForm : Prop :=
  ∀ (p : Poly) (start : Nat) (data : Bv), p.wellFormed = true → start < 2 ^ p.degree →
    crcFrom p start data < 2 ^ p.degree ∧
    ((Polynomial.X : Polynomial (ZMod 2)) ^ p.degree +
        ∑ i ∈ Finset.range p.degree, if p.normal.testBit i then Polynomial.X ^ i else 0) ∣
      (∑ i ∈ Finset.range p.degree, if (crcFrom p start data).testBit i then Polynomial.X ^ i else 0) -
        ((∑ i ∈ Finset.range p.degree, if start.testBit i then Polynomial.X ^ i else 0) *
            Polynomial.X ^ data.length +
          (∑ q ∈ Finset.range data.length,
            if data.getD q false then Polynomial.X ^ (data.length - 1 - q) else 0) * Polynomial.X ^ p.degree)

/-- R179, the spec's own inference: feeding a crc back leaves the residue zero exactly when it is the crc of the data.
-/
def Obligations.CrcResidue : Prop :=
  ∀ (p : Poly) (start c : Nat) (data : Bv), p.wellFormed = true → start < 2 ^ p.degree → c < 2 ^ p.degree →
    crcFrom p start (data ++ bits p.degree (crcFrom p start data)) = 0 ∧
    (crcFrom p start (data ++ bits p.degree c) = 0 ↔ c = crcFrom p start data)

/-- R30, and R180, the spec's own inference: the three polynomials of the ROM in the three representations. -/
def Obligations.RomPolynomials : Prop :=
  polyNew 0x62cc 15 2 = .ok Config.polyDl ∧ polyNew 0x9 4 2 = .ok Config.polyAck ∧
  polyNew 0x5 3 2 = .ok Config.polyRd ∧
  [0, 1, 2].map (polyToRepr Config.polyDl) = [.ok 0x4599, .ok 0x4cd1, .ok 0x62cc] ∧
  [0, 1, 2].map (polyToRepr Config.polyAck) = [.ok 0x3, .ok 0xc, .ok 0x9] ∧
  [0, 1, 2].map (polyToRepr Config.polyRd) = [.ok 0x3, .ok 0x6, .ok 0x5] ∧
  [Config.polyDl.degree, Config.polyAck.degree, Config.polyRd.degree] = [15, 4, 3]

/-! ### The frame codec -/

/-- R205, R206, R124: FRAME_BUILD and FRAME_BUILD_CRC of a CRC-protected type, from a record in any order: the fields in
declared order with the computed or the given crc, and the checks in their order. Three clauses are the model's choice:
that a wrong set of names is reported against `fields` (assumption log 9), that a name given twice is a wrong set
(assumption log 15), and that a code above 3 is BAD_FRAME_TYPE as HIT is (assumption log 10, after I3). -/
def Obligations.FrameBuildMeaning : Prop :=
  ∀ (code : Nat) (r : Record) (c : Nat) (s : State), s.callerIdle →
    (3 ≤ code →
      exec (.frameBuild code r) s =
        .next (s.answered (.constructionError ⟨.badFrameType, .type, .nat code⟩) .none) ∧
      exec (.frameBuildCrc code r c) s =
        .next (s.answered (.constructionError ⟨.badFrameType, .type, .nat code⟩) .none)) ∧
    (∀ t p, frameTypeOf code = some t → Config.polyOf t = some p →
      (¬ (r.map (·.1)).Perm ((Config.fieldList t).map (·.1)) →
        exec (.frameBuild code r) s =
          .next (s.answered (.constructionError ⟨.widthMismatch, .fields, .fields r⟩) .none) ∧
        exec (.frameBuildCrc code r c) s =
          .next (s.answered (.constructionError ⟨.widthMismatch, .fields, .fields r⟩) .none)) ∧
      (∀ xs, r.Perm (((Config.fieldList t).map (·.1)).zip xs) → fitWidths (Config.fieldWidths t) xs = true →
        exec (.frameBuild code r) s =
          .next (s.answered .ok (.frame ⟨t, xs, some (crcFrom p (2 ^ p.degree - 1) (bodyBits t xs))⟩)) ∧
        (c < 2 ^ p.degree →
          exec (.frameBuildCrc code r c) s = .next (s.answered .ok (.frame ⟨t, xs, some c⟩))) ∧
        (2 ^ p.degree ≤ c → exec (.frameBuildCrc code r c) s =
          .next (s.answered (.constructionError ⟨.valueRange, .crc, .nat c⟩) .none))) ∧
      (∀ xs before n w after x, r.Perm (((Config.fieldList t).map (·.1)).zip xs) →
        xs.length = (Config.fieldList t).length → Config.fieldList t = before ++ (n, w) :: after →
        fitWidths (before.map (·.2)) (xs.take before.length) = true → xs[before.length]? = some x → 2 ^ w ≤ x →
        exec (.frameBuild code r) s =
          .next (s.answered (.constructionError ⟨.valueRange, .field n, .nat x⟩) .none) ∧
        exec (.frameBuildCrc code r c) s =
          .next (s.answered (.constructionError ⟨.valueRange, .field n, .nat x⟩) .none)))

/-- R207, R202, R201: code 0x22 is FRAME_ENCODE, which answers prefix, fields and crc as bits, and the same bits as
bytes. -/
def Obligations.FrameEncodeMeaning : Prop :=
  ∀ (f : Frame) (s : State), f.wellFormed = true → s.callerIdle →
    decode (.command 0x22 [.frame f]) = .ok (.frameEncode f) ∧ ∃ (v : Bv) (b : List Byte),
    v = bits (Config.prefixOf f.type).2 (Config.prefixOf f.type).1 ++ packFields (Config.fieldWidths f.type) f.fields ++
      (f.crc.map (bits (Config.crcWidth f.type))).getD [] ∧
    v.length = Config.frameWidth f.type ∧ v.length % 8 = 0 ∧ 8 * b.length = v.length ∧ bitsOfBytes b = v ∧
    exec (.frameEncode f) s = .next (s.answered .ok (.encoded v b))

/-- R209, R332: FRAME_DECODE's checks in their order (the prefix before the length), and the frame it answers. That
both a vector too short for its prefix and one of the wrong width are reported against `bv` with the whole vector given,
where R209 calls the operand v and has popped the prefix by then (assumption log 9), and that a type code above 3 is
BAD_FRAME_TYPE (assumption log 10), are the model's choices. -/
def Obligations.FrameDecodeMeaning : Prop :=
  ∀ (code : Nat) (v : Bv) (s : State), s.callerIdle →
    (3 < code → exec (.frameDecode code v) s =
      .next (s.answered (.constructionError ⟨.badFrameType, .type, .nat code⟩) .none)) ∧
    (∀ t, frameTypeOf code = some t →
      (v.length < (Config.prefixOf t).2 → exec (.frameDecode code v) s =
        .next (s.answered (.constructionError ⟨.popUnderflow, .bv, .bv v⟩) .none)) ∧
      ((Config.prefixOf t).2 ≤ v.length → v.take (Config.prefixOf t).2 ≠ prefixBits t →
        exec (.frameDecode code v) s = .next (s.answered .prefixMismatch .none)) ∧
      (v.take (Config.prefixOf t).2 = prefixBits t → v.length ≠ Config.frameWidth t →
        exec (.frameDecode code v) s =
          .next (s.answered (.constructionError ⟨.widthMismatch, .bv, .bv v⟩) .none)) ∧
      (v.take (Config.prefixOf t).2 = prefixBits t → v.length = Config.frameWidth t →
        ∃ f : Frame, f.type = t ∧ f.wellFormed = true ∧ frameBits f = v ∧
          exec (.frameDecode code v) s = .next (s.answered .ok (.decoded f (crcOkFlag f)))))

/-- R214, the spec's own inference: decoding the bits of a frame gives the frame back, and the bits of a decoded
vector are the vector. -/
def Obligations.FrameRoundTrip : Prop :=
  (∀ f : Frame, f.wellFormed = true →
    frameDecode f.type (frameBits f) = .ok (.frame f (crcOkFlag f)) ∧
    (f.type ≠ .hit → ∃ ok, crcOkFlag f = some ok ∧ frameCrcOk f = .ok ok)) ∧
  (∀ (t : FrameType) (v : Bv), v.length = Config.frameWidth t → v.take (Config.prefixOf t).2 = prefixBits t →
    ∃ f ok, frameDecode t v = .ok (.frame f ok) ∧ frameBits f = v)

/-- R213, the spec's own inference: a frame FRAME_BUILD builds verifies. -/
def Obligations.FreshFrameVerifies : Prop :=
  ∀ (code : Nat) (r : Record) (f : Frame), frameBuild code r = .ok f → frameCrcOk f = .ok true

/-- R210: FRAME_CRC_OK is whether the stored crc is the CRC of the bits before it, which is R210's corner case of its
zero residue (R179, the spec's own inference); BAD_FRAME_TYPE for HIT. That its info names `frame`, as R120 does, where R210
calls the operand f, is the model's choice (assumption log 9). -/
def Obligations.FrameCrcOkMeaning : Prop :=
  ∀ (f : Frame) (s : State), f.wellFormed = true → s.callerIdle →
    (f.type = .hit → exec (.frameCrcOk f) s =
      .next (s.answered (.constructionError ⟨.badFrameType, .frame, .frame f⟩) .none)) ∧
    (∀ p c, Config.polyOf f.type = some p → f.crc = some c → exec (.frameCrcOk f) s =
      .next (s.answered .ok (.bool (decide (c = crcFrom p (2 ^ p.degree - 1) (bodyBits f.type f.fields))))))

/-- R210: a frame that verifies, with any one bit after its prefix changed, decodes with a crc_ok of false. -/
def Obligations.SingleBitErrorIsDetected : Prop :=
  ∀ (f : Frame) (k : Nat), f.wellFormed = true → crcOkFlag f = some true →
    (Config.prefixOf f.type).2 ≤ k → k < Config.frameWidth f.type →
    ∃ g, frameDecode f.type ((frameBits f).set k (!(frameBits f).getD k false)) = .ok (.frame g (some false))

/-- R211: UPLINK_RESOLVE of 3 bytes answers the kind its prefix tells with the frame of that layout and its crc_ok,
and any other number of bytes is WIDTH_MISMATCH; that its info names `bytes` is the model's choice (assumption log 9), as
R211 calls the operand B. -/
def Obligations.UplinkResolveMeaning : Prop :=
  ∀ s : State, s.callerIdle →
    (∀ b : List Byte, b.length ≠ 3 → exec (.uplinkResolve b) s =
      .next (s.answered (.constructionError ⟨.widthMismatch, .bytes, .bytes b⟩) .none)) ∧
    (∀ b : List Byte, b.length = 3 → ∃ w, bytesOfUp w = b) ∧
    (∀ r, exec (.uplinkResolve (bytesOfUp (encodeHit24 r))) s =
      .next (s.answered .ok (.resolved .hit (some (⟨.hit, [r.toNat], none⟩, none))))) ∧
    (∀ k q cp ta sa se oe t c, exec (.uplinkResolve (bytesOfUp (encodeAck24 k q cp ta sa se oe t c))) s =
      .next (s.answered .ok (.resolved .ack (some
        (⟨.ack, [k.toNat, q.toNat, cp.toNat, ta.toNat, sa.toNat, se.toNat, oe.toNat, t.toNat], some c.toNat⟩,
          some (decide (c.toNat = crcFrom Config.polyAck 15 (bodyBits .ack
            [k.toNat, q.toNat, cp.toNat, ta.toNat, sa.toNat, se.toNat, oe.toNat, t.toNat])))))))) ∧
    (∀ d q c, exec (.uplinkResolve (bytesOfUp (encodeRd24 d q c))) s =
      .next (s.answered .ok (.resolved .rd (some (⟨.rd, [d.toNat, q.toNat], some c.toNat⟩,
        some (decide (c.toNat = crcFrom Config.polyRd 7 (bodyBits .rd [d.toNat, q.toNat])))))))) ∧
    (∀ w : BitVec 24, w.extractLsb' 22 2 = 0b11#2 →
      exec (.uplinkResolve (bytesOfUp w)) s = .next (s.answered .ok (.resolved .noFrame none)))

/-! ### Session and status -/

/-- R242, R361: code 0x30 is SESSION_OPEN; its checks in their order, and every item of the session state after it. -/
def Obligations.SessionOpenMeaning : Prop :=
  ∀ (a : Nat) (s : State), s.callerIdle →
    decode (.command 0x30 [.nat a]) = .ok (.sessionOpen a) ∧
    (16 ≤ a → exec (.sessionOpen a) s =
      .next (s.answered (.constructionError ⟨.valueRange, .chipAddress, .nat a⟩) .none)) ∧
    (a < 16 → s.S.session ≠ .closed → exec (.sessionOpen a) s = .next (s.answered .alreadyOpen .none)) ∧
    (a < 16 → s.S.session = .closed → ∃ S' : SessionState,
      exec (.sessionOpen a) s = .next (({ s with S := S' } : State).answered .ok .none) ∧
      S'.session = .opened ∧ S'.chipAddr.toNat = a ∧ S'.seq = 0 ∧ S'.fault = false ∧ S'.faultInfo = none ∧
      S'.rapPhase = .idle ∧ S'.exp = [] ∧ S'.ret = [] ∧ S'.res = [] ∧ S'.pendAck = [] ∧ S'.pendRd = [] ∧
      S'.cReq = 0 ∧ S'.cMatched = 0 ∧ S'.cNack = 0 ∧ S'.cAck = 0 ∧ S'.cCrcBad = 0 ∧ S'.cHit = 0 ∧
      S'.cUnknown = 0 ∧ S'.sendq = [] ∧ S'.stage = none ∧ S'.wrq = [] ∧ S'.readPending = 0 ∧
      (∀ src, S'.rx src = []) ∧ S'.stop = false ∧ S'.wSend = .running ∧ S'.wPoll = .running ∧
      S'.wComm = .running)

/-- R244, R337: SESSION_CLOSE is refused outside OPEN, waits for a running RAP command, and otherwise holds the phase. A
close that waited checks S.session again in the step that finds the phase IDLE, and one that waited while another close
stopped the session answers NOT_OPEN in whatever session is open by then (D44): the model's reading (assumption log 8). -/
def Obligations.SessionCloseMeaning : Prop :=
  (∀ s : State, s.callerIdle →
    (s.S.session ≠ .opened → exec .sessionClose s = .next (s.answered .notOpen .none)) ∧
    (s.S.session = .opened → s.S.rapPhase ≠ .idle → ∃ s', exec .sessionClose s = .next s' ∧
      s'.S = s.S ∧ s'.taskOf s.caller = some .closeWait ∧ (∀ t, t ≠ s.caller → s'.taskOf t = s.taskOf t) ∧
      s'.out = s.out ∧ s'.wire = s.wire ∧ s'.inputs = s.inputs ∧ s'.caller = s.caller) ∧
    (s.S.session = .opened → s.S.rapPhase = .idle → ∃ s', exec .sessionClose s = .next s' ∧
      s'.S = { s.S with rapPhase := .closing } ∧ s'.taskOf s.caller = some .closeStop ∧
      (∀ t, t ≠ s.caller → s'.taskOf t = s.taskOf t) ∧
      s'.out = s.out ∧ s'.wire = s.wire ∧ s'.inputs = s.inputs ∧ s'.caller = s.caller)) ∧
  ∀ (P : Config.Params) (t : ThreadId) (s : State),
    (s.taskOf t = some .closeWait →
      (s.S.rapPhase ≠ .idle → advanceThread P t s = s) ∧
      (s.S.rapPhase = .idle → s.S.session ≠ .opened →
        advanceThread P t s = (s.dropTask t).respond t ⟨.notOpen, .none⟩) ∧
      (s.S.rapPhase = .idle → s.S.session = .opened →
        advanceThread P t s = ({ s with S := { s.S with rapPhase := .closing } } : State).setTask t .closeStop) ∧
      timeoutThread P t s = s) ∧
    (s.taskOf t = some .closeEnded →
      advanceThread P t s = (s.dropTask t).respond t ⟨.notOpen, .none⟩ ∧ timeoutThread P t s = s)

/-- R315, R316, R301, R244: the stop step of a close, what it makes of the commands that wait, the two ends of its JOIN,
and its return.
A waiting DEMUX_READ, even one with a value queued, is to answer NODATA, a second close and a RAP command in ADMIT
NOT_OPEN, whatever session is open when they take their next step (D44, R350); that a command which has only made its check
of S.session is ended like one that waits is the model's reading (assumption logs 8 and 12). -/
def Obligations.ShutdownAndJoin : Prop :=
  ∀ (P : Config.Params) (t : ThreadId) (s : State),
    (s.taskOf t = some .closeStop →
      (advanceThread P t s).S = { s.S with stop := true, session := .stopping, readPending := 0 } ∧
      (advanceThread P t s).taskOf t = some .closeJoin ∧
      (∀ t', t' ≠ t → let after := (advanceThread P t s).taskOf t'
        (∀ src d, s.taskOf t' = some (.demuxWait src d) → after = some .demuxEnded) ∧
        (∀ src d, s.taskOf t' = some (.apart (.demux src d)) → after = some (.apart .demuxEnded)) ∧
        (∀ ops, s.taskOf t' = some (.admitWrite ops) → after = some .admitEnded) ∧
        (∀ addrs al, s.taskOf t' = some (.admitRead addrs al) → after = some .admitEnded) ∧
        (∀ ops, s.taskOf t' = some (.apart (.write ops)) → after = some (.apart .admitEnded)) ∧
        (∀ addrs al, s.taskOf t' = some (.apart (.read addrs al)) → after = some (.apart .admitEnded)) ∧
        (s.taskOf t' = some .closeWait → after = some .closeEnded) ∧
        ((∀ src d, s.taskOf t' ≠ some (.demuxWait src d)) → (∀ ops, s.taskOf t' ≠ some (.admitWrite ops)) →
          (∀ addrs al, s.taskOf t' ≠ some (.admitRead addrs al)) → s.taskOf t' ≠ some .closeWait →
          (∀ c, s.taskOf t' = some (.apart c) → c = .admitEnded ∨ c = .demuxEnded) →
          after = s.taskOf t')) ∧
      (advanceThread P t s).out = s.out ∧ (advanceThread P t s).wire = s.wire) ∧
    (s.taskOf t = some .closeJoin → s.S.wSend ≠ .running → s.S.wPoll ≠ .running → s.S.wComm ≠ .running →
      advanceThread P t s = ({ s with S := SessionState.reset } : State).setTask t (.closeRet .ok) ∧
      timeoutThread P t s = s) ∧
    (s.taskOf t = some .closeJoin →
      s.S.wSend = .running ∨ s.S.wPoll = .running ∨ s.S.wComm = .running →
      advanceThread P t s = s ∧
      timeoutThread P t s = ({ s with S := SessionState.reset } : State).setTask t (.closeRet .joinTimeout)) ∧
    (∀ st, s.taskOf t = some (.closeRet st) →
      advanceThread P t s = (s.dropTask t).respond t ⟨st, .none⟩ ∧ timeoutThread P t s = s) ∧
    (s.taskOf t = some .demuxEnded →
      advanceThread P t s = (s.dropTask t).respond t ⟨.nodata, .none⟩ ∧ timeoutThread P t s = s) ∧
    (∀ src d, s.taskOf t = some (.demuxWait src d) → s.S.session ≠ .opened →
      advanceThread P t s = (s.dropTask t).respond t ⟨.nodata, .none⟩)

/-- R42: STATUS_READ answers the registers, the counters and the queue lengths in every session state; in CLOSED every
field but the session is its reset value. -/
def Obligations.StatusReadMeaning : Prop :=
  ∀ s : State, s.callerIdle →
    (s.S.session = .closed → exec .statusRead s = .next (s.answered .ok (.status
      { session := .closed, chipAddr := 0, seq := 0, fault := false, rapPhase := .idle, cReq := 0, cMatched := 0,
        cNack := 0, cAck := 0, cCrcBad := 0, cHit := 0, cUnknown := 0, sendqLen := 0, readPending := 0,
        wrqLen := 0, rxLens := [] }))) ∧
    (s.S.session ≠ .closed → s.S.rxWf = true → ∃ lens : List (Chan × Nat), lens.Nodup ∧
      (∀ src n, (src, n) ∈ lens ↔ n = (s.S.rx src).length ∧ s.S.rx src ≠ []) ∧
      exec .statusRead s = .next (s.answered .ok (.status
        { session := s.S.session, chipAddr := s.S.chipAddr, seq := s.S.seq, fault := s.S.fault,
          rapPhase := s.S.rapPhase, cReq := s.S.cReq, cMatched := s.S.cMatched, cNack := s.S.cNack,
          cAck := s.S.cAck, cCrcBad := s.S.cCrcBad, cHit := s.S.cHit, cUnknown := s.S.cUnknown,
          sendqLen := s.S.sendq.length, readPending := s.S.readPending, wrqLen := s.S.wrq.length,
          rxLens := lens })))

/-! ### Register transactions -/

/-- R241, R249, R337: WRITE_REGISTERS and READ_REGISTERS are refused with NOT_OPEN, then with TRANSPORT_ERROR; they wait
while another RAP command runs, and otherwise take the phase in the step of the checks, clear the counters in the next step
and the transaction registers in the one after, other agents stepping between them (R293). One that
waited makes both checks again in the step that admits it; one whose session has ended meanwhile (R244) answers NOT_OPEN
once the phase is IDLE, in whatever session is open by then (assumption log 12). With its lines apart the check of S.fault
is a step of its own (assumption log 7). -/
def Obligations.RapAdmission : Prop :=
  ∀ (ops : List (Nat × Nat)) (addrs : List Nat) (al : Bool) (s : State),
    let admitted (ph : RapPhase) : State := { s with S := { s.S with rapPhase := ph } }
    let cleared : State := { s with S := { s.S with
      cReq := 0, cMatched := 0, cNack := 0, cAck := 0, cCrcBad := 0, cHit := 0, cUnknown := 0 } }
    let emptied : State := { s with S := { s.S with exp := [], ret := [], res := [] } }
    let frames : List (Config.ReqKind × Nat) := ops.flatMap (fun o => [(.wrAddr, o.1), (.wrData, o.2)])
    let writing : Task := .write (.counters frames)
    let reading : Task := .read addrs.length al (.counters addrs)
    (s.callerIdle →
      (s.S.session ≠ .opened →
        exec (.writeRegisters ops) s = .next (s.answered .notOpen .none) ∧
        exec (.readRegisters addrs al) s = .next (s.answered .notOpen .none)) ∧
      (s.S.session = .opened → s.S.fault = true →
        exec (.writeRegisters ops) s = .next (s.answered (.transportError s.S.faultInfo) .none) ∧
        exec (.readRegisters addrs al) s = .next (s.answered (.transportError s.S.faultInfo) .none)) ∧
      (s.S.session = .opened → s.S.fault = false → s.S.rapPhase ≠ .idle →
        exec (.writeRegisters ops) s = .next (s.setTask s.caller (.admitWrite ops)) ∧
        exec (.readRegisters addrs al) s = .next (s.setTask s.caller (.admitRead addrs al))) ∧
      (s.S.session = .opened → s.S.fault = false → s.S.rapPhase = .idle →
        exec (.writeRegisters ops) s = .next ((admitted .wSend).setTask s.caller writing) ∧
        exec (.readRegisters addrs al) s = .next ((admitted .rSend).setTask s.caller reading))) ∧
    ∀ (P : Config.Params) (t : ThreadId),
      (s.taskOf t = some (.apart (.write ops)) → s.S.fault = false →
        advanceThread P t s = s.setTask t (.admitWrite ops)) ∧
      (s.taskOf t = some (.apart (.read addrs al)) → s.S.fault = false →
        advanceThread P t s = s.setTask t (.admitRead addrs al)) ∧
      (∀ c, s.taskOf t = some (.apart c) → s.S.fault = true →
        advanceThread P t s = (s.dropTask t).respond t ⟨.transportError s.S.faultInfo, .none⟩) ∧
      (s.taskOf t = some (.admitWrite ops) ∨ s.taskOf t = some (.admitRead addrs al) →
        timeoutThread P t s = s ∧
        (s.S.rapPhase ≠ .idle → advanceThread P t s = s) ∧
        (s.S.rapPhase = .idle → s.S.session ≠ .opened →
          advanceThread P t s = (s.dropTask t).respond t ⟨.notOpen, .none⟩) ∧
        (s.S.rapPhase = .idle → s.S.session = .opened → s.S.fault = true →
          advanceThread P t s = (s.dropTask t).respond t ⟨.transportError s.S.faultInfo, .none⟩)) ∧
      (s.taskOf t = some (.apart .admitEnded) → s.S.fault = false →
        advanceThread P t s = s.setTask t .admitEnded) ∧
      (s.taskOf t = some .admitEnded →
        timeoutThread P t s = s ∧
        (s.S.rapPhase ≠ .idle → advanceThread P t s = s) ∧
        (s.S.rapPhase = .idle → advanceThread P t s = (s.dropTask t).respond t ⟨.notOpen, .none⟩)) ∧
      (s.S.rapPhase = .idle → s.S.session = .opened → s.S.fault = false →
        (s.taskOf t = some (.admitWrite ops) → advanceThread P t s = (admitted .wSend).setTask t writing) ∧
        (s.taskOf t = some (.admitRead addrs al) → advanceThread P t s = (admitted .rSend).setTask t reading)) ∧
      (s.taskOf t = some writing →
        timeoutThread P t s = s ∧ advanceThread P t s = cleared.setTask t (.write (.lists frames))) ∧
      (s.taskOf t = some reading →
        timeoutThread P t s = s ∧ advanceThread P t s = cleared.setTask t (.read addrs.length al (.lists addrs))) ∧
      (s.taskOf t = some (.write (.lists frames)) →
        timeoutThread P t s = s ∧ advanceThread P t s = emptied.setTask t (.write (.send frames))) ∧
      (s.taskOf t = some (.read addrs.length al (.lists addrs)) →
        timeoutThread P t s = s ∧
        advanceThread P t s = emptied.setTask t (.read addrs.length al (.send addrs)))

/-- R250, R251, R246, and R248, the spec's own inference: a WRITE_REGISTERS whose addresses and values fit queues, for
each pair, a WR_ADDR and a WR_DATA frame for CTRL_DEST, with consecutive sequence numbers from S.seq, and changes
nothing else of the session state. With a fault the next frame is not drawn and the command ends with TRANSPORT_ERROR
(R335). -/
def Obligations.WriteQueuesEveryFrame : Prop :=
  ∀ (P : Config.Params) (t : ThreadId) (ops : List (Nat × Nat)) (s : State),
    (s.taskOf t = some (.write (.send (writeFrames ops))) → s.S.fault = false →
      (∀ o ∈ ops, o.1 < 2 ^ 15 ∧ o.2 < 2 ^ 15) →
      (runThread P t (6 * ops.length) s).S = { s.S with
        seq := s.S.seq + BitVec.ofNat 4 (2 * ops.length)
        sendq := s.S.sendq ++ downlinkItems P s.S.chipAddr s.S.seq (writeFrames ops) } ∧
      (runThread P t (6 * ops.length) s).taskOf t = some (.write (.send [])) ∧
      (∀ t', t' ≠ t → (runThread P t (6 * ops.length) s).taskOf t' = s.taskOf t') ∧
      (runThread P t (6 * ops.length) s).out = s.out ∧ (runThread P t (6 * ops.length) s).wire = s.wire) ∧
    (∀ frame frames, s.taskOf t = some (.write (.send (frame :: frames))) → s.S.fault = true →
      advanceThread P t s = (({ s with S := { s.S with rapPhase := .idle } } : State).dropTask t).respond t
        ⟨.transportError s.S.faultInfo, .none⟩)

/-- R255, R256, R247: a READ_REGISTERS whose addresses fit queues one RD_DATA frame each with consecutive sequence
numbers, expects the low 3 bits of each, and counts the requests. With a fault the next request is not drawn and the
command ends with TRANSPORT_ERROR (R251, R335). -/
def Obligations.ReadQueuesEveryRequest : Prop :=
  ∀ (P : Config.Params) (t : ThreadId) (n : Nat) (al : Bool) (addrs : List Nat) (s : State),
    (s.taskOf t = some (.read n al (.send addrs)) → s.S.fault = false → (∀ a ∈ addrs, a < 2 ^ 15) →
      (runThread P t (4 * addrs.length) s).S = { s.S with
        seq := s.S.seq + BitVec.ofNat 4 addrs.length
        exp := s.S.exp ++ (List.range addrs.length).map (fun k => (s.S.seq + BitVec.ofNat 4 k).truncate 3)
        cReq := saturate (s.S.cReq.toNat + addrs.length)
        sendq := s.S.sendq ++ downlinkItems P s.S.chipAddr s.S.seq (addrs.map (fun a => (.rdData, a))) } ∧
      (runThread P t (4 * addrs.length) s).taskOf t = some (.read n al (.send [])) ∧
      (∀ t', t' ≠ t → (runThread P t (4 * addrs.length) s).taskOf t' = s.taskOf t') ∧
      (runThread P t (4 * addrs.length) s).out = s.out ∧ (runThread P t (4 * addrs.length) s).wire = s.wire) ∧
    (∀ a rest, s.taskOf t = some (.read n al (.send (a :: rest))) → s.S.fault = true →
      advanceThread P t s = (({ s with S := { s.S with rapPhase := .idle } } : State).dropTask t).respond t
        ⟨.transportError s.S.faultInfo, .none⟩)

/-- R251, R342: a payload that does not fit raises VALUE_RANGE on `payload` in the step that builds the frame: the phase
returns to IDLE, the number drawn stays consumed and everything queued stays. -/
def Obligations.OutOfRangePayloadEndsCommand : Prop :=
  ∀ (P : Config.Params) (t : ThreadId) (q : BitVec 4) (payload : Nat) (s : State), 2 ^ 15 ≤ payload →
    (∀ rt frames, s.taskOf t = some (.write (.push q rt payload frames)) →
      (advanceThread P t s).S = { s.S with rapPhase := .idle } ∧ (advanceThread P t s).taskOf t = none ∧
      (advanceThread P t s).out = s.out ++
        [(t, ⟨.constructionError ⟨.valueRange, .field .payload, .nat payload⟩, .none⟩)] ∧
      (advanceThread P t s).wire = s.wire) ∧
    (∀ n al addrs, s.taskOf t = some (.read n al (.push q payload addrs)) →
      (advanceThread P t s).S = { s.S with rapPhase := .idle } ∧ (advanceThread P t s).taskOf t = none ∧
      (advanceThread P t s).out = s.out ++
        [(t, ⟨.constructionError ⟨.valueRange, .field .payload, .nat payload⟩, .none⟩)] ∧
      (advanceThread P t s).wire = s.wire)

/-- R250, R252, R253: a write whose control channel is quiet drains nothing, times out once and returns OK. -/
def Obligations.QuietWriteReturnsOk : Prop :=
  ∀ (P : Config.Params) (t : ThreadId) (s : State), P.Legal →
    s.taskOf t = some (.write (.send [])) → s.S.fault = false → s.S.pendAck = [] → s.S.rx P.ctrlSrc = [] →
    let w := runThread P t 3 s
    advanceThread P t w = w ∧
    (runThread P t 1 (timeoutThread P t w)).S = { s.S with rapPhase := .idle } ∧
    (runThread P t 1 (timeoutThread P t w)).taskOf t = none ∧
    (runThread P t 1 (timeoutThread P t w)).out = s.out ++ [(t, ⟨.ok, .none⟩)]

/-- R252, R335, R370: READ_FRAME. A frame set aside earlier is popped and returned first, uncounted; then the fault is
checked before every wait, and a command that finds it ends with TRANSPORT_ERROR and the phase at IDLE; each value the
control channel delivers is counted once, returned when of the wanted kind, set aside in order when of the other. The
drain of a write (R253) discards each frame so returned and ends at the first NODATA. -/
def Obligations.ReadFrameClassifiesAndCounts : Prop :=
  (∀ (P : Config.Params) (d : Duration) (S : SessionState),
    (∀ f q, S.pendAck = f :: q → readFrameStep P .ack d .start S = (.frame f, { S with pendAck := q })) ∧
    (∀ f q, S.pendRd = f :: q → readFrameStep P .rd d .start S = (.frame f, { S with pendRd := q })) ∧
    (S.pendAck = [] → readFrameStep P .ack d .start S = (.more .check, S)) ∧
    (S.pendRd = [] → readFrameStep P .rd d .start S = (.more .check, S)) ∧
    (∀ kind, readFrameStep P kind d .check S =
      if S.fault then (.raised (.transportError S.faultInfo), S) else (.more .wait, S)) ∧
    (∀ kind x q, S.rx P.ctrlSrc = x :: q →
      readFrameStep P kind d .wait S = (.more (.got x), S.setRx P.ctrlSrc q) ∧
      readFrameTimeout P .wait S = (.more .wait, S)) ∧
    (∀ kind, S.rx P.ctrlSrc = [] →
      readFrameStep P kind d .wait S = (if d = 0 then .nodata else .more .wait, S) ∧
      readFrameTimeout P .wait S = (.nodata, S)) ∧
    (∀ kind x, readFrameStep P kind d (.got x) S = acceptValue P kind x S)) ∧
  (∀ (P : Config.Params) (t : ThreadId) (s : State), s.S.fault = true →
    s.taskOf t = some (.write (.drain .check)) ∨
    (∃ n al pc, s.taskOf t = some (.read n al pc) ∧
      ((∃ left, pc = .collect left .check) ∨ pc = .drainRd .check ∨ pc = .drainAck .check)) →
    advanceThread P t s = (({ s with S := { s.S with rapPhase := .idle } } : State).dropTask t).respond t
      ⟨.transportError s.S.faultInfo, .none⟩) ∧
  (∀ (P : Config.Params) (t : ThreadId) (pc : FramePc) (o : FrameOut) (S' : SessionState) (s : State),
    s.taskOf t = some (.write (.drain pc)) → readFrameStep P .ack P.tAck pc s.S = (o, S') →
    let goesTo (pc' : WritePc) : State := ({ s with S := S' } : State).setTask t (.write pc')
    (∀ pc', o = .more pc' → advanceThread P t s = goesTo (.drain pc')) ∧
    (∀ f, o = .frame f → advanceThread P t s = goesTo (.drain .start)) ∧
    (o = .nodata → advanceThread P t s = goesTo .ret)) ∧
  ∀ (P : Config.Params) (kind : CtrlKind) (S : SessionState),
    (∀ n, acceptValue P kind (.other n) S = (.more .check, { S with cUnknown := inc S.cUnknown })) ∧
    (∀ b, b.length ≠ 3 →
      acceptValue P kind (.bytes b) S = (.more .check, { S with cUnknown := inc S.cUnknown })) ∧
    (∀ w : BitVec 24, w.extractLsb' 22 2 = 0b11#2 →
      acceptValue P kind (.bytes (bytesOfUp w)) S = (.more .check, { S with cUnknown := inc S.cUnknown })) ∧
    (∀ r, acceptValue P kind (.bytes (bytesOfUp (encodeHit24 r))) S =
      (.more .check, { S with cHit := inc S.cHit })) ∧
    (∀ d q c, ∃ ok : Bool,
      (ok = true ↔ c.toNat = crcFrom Config.polyRd 7 (bodyBits .rd [d.toNat, q.toNat])) ∧
      acceptValue P kind (.bytes (bytesOfUp (encodeRd24 d q c))) S =
        (let f : RxFrame := ⟨⟨.rd, [d.toNat, q.toNat], some c.toNat⟩, ok⟩
         let S' := if ok then S else { S with cCrcBad := inc S.cCrcBad }
         if kind = .rd then (.frame f, S') else (.more .check, { S' with pendRd := S'.pendRd ++ [f] }))) ∧
    (∀ k q cp ta sa se oe t c, ∃ ok : Bool,
      (ok = true ↔ c.toNat = crcFrom Config.polyAck 15 (bodyBits .ack
        [k.toNat, q.toNat, cp.toNat, ta.toNat, sa.toNat, se.toNat, oe.toNat, t.toNat])) ∧
      acceptValue P kind (.bytes (bytesOfUp (encodeAck24 k q cp ta sa se oe t c))) S =
        (let f : RxFrame := ⟨⟨.ack,
            [k.toNat, q.toNat, cp.toNat, ta.toNat, sa.toNat, se.toNat, oe.toNat, t.toNat], some c.toNat⟩, ok⟩
         let S' := if ok then
             (if k = P.ackNack then { S with cAck := inc S.cAck, cNack := inc S.cNack }
              else { S with cAck := inc S.cAck })
           else { S with cCrcBad := inc S.cCrcBad }
         if kind = .ack then (.frame f, S') else (.more .check, { S' with pendAck := S'.pendAck ++ [f] })))

/-- R263, the spec's own inference: with nothing stale, no fault and one CRC-valid response per request delivered in
request order, step 2 collects them, the guard holds and the result is their data in order, with c_matched the number
of requests; that it saturates (R41) where it is assigned is the model's reading (assumption log 14). -/
def Obligations.LosslessExchangeReturnsData : Prop :=
  ∀ (P : Config.Params) (t : ThreadId) (al : Bool) (data : List (BitVec 15)) (s : State),
    s.taskOf t = some (.read data.length al (.send [])) → s.S.fault = false → s.S.pendRd = [] → s.S.ret = [] →
    s.S.exp.length = data.length → s.S.rxWf = true →
    s.S.rx P.ctrlSrc = (s.S.exp.zip data).map (fun e => .bytes (frameBytes (readDataFrame e.1 e.2))) →
    let r := runThread P t (4 * data.length + 4) s
    r.out = s.out ++ [(t, ⟨.ok, .reads (data.map some)⟩)] ∧ r.taskOf t = none ∧
    r.S = { s.S.setRx P.ctrlSrc [] with
      rapPhase := .idle
      ret := s.S.exp.zip data
      res := data.map some
      cMatched := saturate data.length }

/-- R255, R257 to R261, R336: a read after its last request. Step 2 makes exactly n attempts, a timed-out one among them;
the guard compares the expected with the returned numbers position by position, before and after recovery, and where it
holds the read returns its data; recovery drains ReadData frames, keeping the CRC-valid ones, and then Ack frames, each
to its first NODATA; a guard that fails again without alignment raises READ_FAILURE with both lists. That c_matched
saturates where it is assigned is the model's reading (assumption log 14). -/
def Obligations.GuardAndReadFailure : Prop :=
  ∀ (P : Config.Params) (t : ThreadId) (n : Nat) (al : Bool) (s : State),
    let holds : Prop := s.S.exp.length = s.S.ret.length ∧ ∀ i : Nat, s.S.exp[i]? = (s.S.ret[i]?).map Prod.fst
    let goesTo (S : SessionState) (pc : ReadPc) : State := ({ s with S := S } : State).setTask t (.read n al pc)
    let next (left : Nat) : ReadPc := if left ≤ 1 then .guardFirst else .collect (left - 1) .start
    let kept (S : SessionState) (ok : Bool) (q : BitVec 3) (d : BitVec 15) : SessionState :=
      if ok then { S with ret := S.ret ++ [(q, d)] } else S
    (s.taskOf t = some (.read n al (.send [])) → advanceThread P t s =
      goesTo { s.S with rapPhase := .rCollect } (if n = 0 then .guardFirst else .collect n .start)) ∧
    (∀ left pc o S', s.taskOf t = some (.read n al (.collect left pc)) →
      readFrameStep P .rd P.tResp pc s.S = (o, S') →
      (∀ pc', o = .more pc' → advanceThread P t s = goesTo S' (.collect left pc')) ∧
      (∀ d q c ok, o = .frame ⟨⟨.rd, [d.toNat, q.toNat], c⟩, ok⟩ →
        advanceThread P t s = goesTo (kept S' ok q d) (next left)) ∧
      (o = .nodata → advanceThread P t s = goesTo S' (next left))) ∧
    (∀ left, s.taskOf t = some (.read n al (.collect left .wait)) → s.S.rx P.ctrlSrc = [] →
      timeoutThread P t s = goesTo s.S (next left)) ∧
    (s.taskOf t = some (.read n al .guardFirst) →
      (holds → advanceThread P t s = goesTo s.S .fast) ∧ (¬ holds → advanceThread P t s = goesTo s.S .toDrainRd)) ∧
    (s.taskOf t = some (.read n al .toDrainRd) →
      advanceThread P t s = goesTo { s.S with rapPhase := .rDrainRd } (.drainRd .start)) ∧
    (∀ pc o S', s.taskOf t = some (.read n al (.drainRd pc)) → readFrameStep P .rd P.tDrain pc s.S = (o, S') →
      (∀ pc', o = .more pc' → advanceThread P t s = goesTo S' (.drainRd pc')) ∧
      (∀ d q c ok, o = .frame ⟨⟨.rd, [d.toNat, q.toNat], c⟩, ok⟩ →
        advanceThread P t s = goesTo (kept S' ok q d) (.drainRd .start)) ∧
      (o = .nodata → advanceThread P t s = goesTo S' .toDrainAck)) ∧
    (s.taskOf t = some (.read n al (.drainRd .wait)) → s.S.rx P.ctrlSrc = [] →
      timeoutThread P t s = goesTo s.S .toDrainAck) ∧
    (s.taskOf t = some (.read n al .toDrainAck) →
      advanceThread P t s = goesTo { s.S with rapPhase := .rDrainAck } (.drainAck .start)) ∧
    (∀ pc o S', s.taskOf t = some (.read n al (.drainAck pc)) → readFrameStep P .ack P.tAck pc s.S = (o, S') →
      (∀ pc', o = .more pc' → advanceThread P t s = goesTo S' (.drainAck pc')) ∧
      (∀ f, o = .frame f → advanceThread P t s = goesTo S' (.drainAck .start)) ∧
      (o = .nodata → advanceThread P t s = goesTo S' .guardAgain)) ∧
    (s.taskOf t = some (.read n al (.drainAck .wait)) → s.S.rx P.ctrlSrc = [] →
      timeoutThread P t s = goesTo s.S .guardAgain) ∧
    (s.taskOf t = some (.read n al .guardAgain) →
      (holds → advanceThread P t s = goesTo s.S .fast) ∧ (¬ holds → advanceThread P t s = goesTo s.S .stepFive)) ∧
    (s.taskOf t = some (.read n al .guardFirst) ∨ s.taskOf t = some (.read n al .guardAgain) → holds →
      n = s.S.exp.length →
      (runThread P t 3 s).S = { s.S with
        rapPhase := .idle, res := s.S.ret.map (fun r => some r.2), cMatched := saturate n } ∧
      (runThread P t 3 s).taskOf t = none ∧ (∀ t', t' ≠ t → (runThread P t 3 s).taskOf t' = s.taskOf t') ∧
      (runThread P t 3 s).out = s.out ++ [(t, ⟨.ok, .reads (s.S.ret.map (fun r => some r.2))⟩)] ∧
      (runThread P t 3 s).wire = s.wire) ∧
    (s.taskOf t = some (.read n al .guardAgain) → ¬ holds → al = false →
      (runThread P t 2 s).S = { s.S with rapPhase := .idle } ∧ (runThread P t 2 s).taskOf t = none ∧
      (∀ t', t' ≠ t → (runThread P t 2 s).taskOf t' = s.taskOf t') ∧
      (runThread P t 2 s).out = s.out ++ [(t, ⟨.readFailure s.S.exp s.S.ret, .none⟩)] ∧
      (runThread P t 2 s).wire = s.wire)

/-- R261: with alignment, the result has one element per expected number: the data of the response ALIGN pairs it
with, or MISSING, with status OK, and c_matched counts the matches. -/
def Obligations.AlignmentFillsResult : Prop :=
  ∀ (P : Config.Params) (t : ThreadId) (n : Nat) (s : State),
    s.taskOf t = some (.read n true .stepFive) → s.S.res = [] → s.S.cMatched = 0 →
    let m := align (s.S.exp.map (·.toNat)) (s.S.ret.map (·.1.toNat))
    let r := runThread P t (s.S.exp.length + 3) s
    m.length = s.S.exp.length ∧
    r.out = s.out ++ [(t, ⟨.ok, .reads (m.map (fun j => j.bind (fun j => (s.S.ret[j]?).map (·.2))))⟩)] ∧
    r.taskOf t = none ∧ r.S.cMatched = saturate (m.filter Option.isSome).length ∧ r.S.rapPhase = .idle ∧
    r.wire = s.wire

/-! ### Alignment -/

/-- R271: the recurrence of the score matrix, with its border of zeros. -/
def Obligations.ScoreMatrixRecurrence : Prop :=
  ∀ (a b : List Nat),
    (∀ i, cellAt (scoreMatrix a b) i 0 = 0) ∧ (∀ j, cellAt (scoreMatrix a b) 0 j = 0) ∧
    (∀ i j, 1 ≤ i → i ≤ a.length → 1 ≤ j → j ≤ b.length → ∀ h : Int,
      ((cellAt (scoreMatrix a b) i j : Int) ≤ h ↔
        0 ≤ h ∧
        (cellAt (scoreMatrix a b) (i - 1) (j - 1) : Int) +
          (if a.getD (i - 1) 0 = b.getD (j - 1) 0 then 3 else -3) ≤ h ∧
        (∀ g, 1 ≤ g → g ≤ i → (cellAt (scoreMatrix a b) (i - g) j : Int) - 2 * g ≤ h) ∧
        (∀ g, 1 ≤ g → g ≤ j → (cellAt (scoreMatrix a b) i (j - g) : Int) - 2 * g ≤ h)))

/-- R274, the spec's own inference: the mapping has one entry per expected position, pairs equal values only, and is
strictly increasing. -/
def Obligations.MappingIsSoundAndIncreasing : Prop :=
  ∀ (a b : List Nat), (align a b).length = a.length ∧
    (∀ i j : Nat, (align a b)[i]? = some (some j) → ∃ x, a[i]? = some x ∧ b[j]? = some x) ∧
    (∀ i i' j j' : Nat, i < i' → (align a b)[i]? = some (some j) → (align a b)[i']? = some (some j') → j < j')

/-- R275 (a), the spec's own inference: equal lists are aligned by the identity. -/
def Obligations.AlignIdentity : Prop :=
  ∀ a : List Nat, align a a = (List.range a.length).map some

/-- R275 (b), the spec's own inference: with exactly one element deleted, exactly one position is unmatched, and every
other is paired with an equal value; without repeated values it is the deleted one, and every survivor is paired with
its own copy. -/
def Obligations.AlignOneDeletion : Prop :=
  ∀ (a : List Nat) (k : Nat), k < a.length →
    ((align a (a.eraseIdx k)).filter Option.isNone).length = 1 ∧
    (∀ i j : Nat, (align a (a.eraseIdx k))[i]? = some (some j) → a[i]? = (a.eraseIdx k)[j]?) ∧
    (a.Nodup → align a (a.eraseIdx k) =
      (List.range a.length).map (fun i => if i < k then some i else if i = k then none else some (i - 1)))

/-- R264, the spec's own inference: three distinct expected numbers, the first and the third returned. -/
def Obligations.AlignLostMiddle : Prop :=
  ∀ x y z : Nat, x ≠ y → x ≠ z → y ≠ z → align [x, y, z] [x, z] = [some 0, none, some 1]

/-! ### The arbiter -/

/-- R300, R337: code 0x40 is DEMUX_WRITE; its refusals, and the push of the item at the tail of S.sendq in the step of
the checks. -/
def Obligations.DemuxWriteMeaning : Prop :=
  ∀ (v : Value) (d : Chan) (s : State), s.callerIdle →
    decode (.command 0x40 [.item v, .chan d]) = .ok (.demuxWrite v d) ∧
    (s.S.session ≠ .opened → exec (.demuxWrite v d) s = .next (s.answered .notOpen .none)) ∧
    (s.S.session = .opened → s.S.fault = true →
      exec (.demuxWrite v d) s = .next (s.answered (.transportError s.S.faultInfo) .none)) ∧
    (s.S.session = .opened → s.S.fault = false →
      exec (.demuxWrite v d) s = .next
        (({ s with S := { s.S with sendq := s.S.sendq ++ [⟨v, d⟩] } } : State).answered .ok .none))

/-- R301, R15: DEMUX_READ's refusals; a waiting value is popped and answered; with the queue empty a zero timeout
answers NODATA at once and any other waits, until a value comes or the timeout fires. Where the lines are taken in one
step and where apart is the model's choice (assumption log 7); one whose session ends before its wait answers NODATA
(assumption log 12). -/
def Obligations.DemuxReadMeaning : Prop :=
  ∀ (src : Chan) (d : Duration) (s : State),
    (s.callerIdle →
      (s.S.session ≠ .opened → exec (.demuxRead src d) s = .next (s.answered .notOpen .none)) ∧
      (s.S.session = .opened → s.S.fault = true →
        exec (.demuxRead src d) s = .next (s.answered (.transportError s.S.faultInfo) .none)) ∧
      (∀ v q, s.S.session = .opened → s.S.fault = false → s.S.rx src = v :: q → ∃ s',
        exec (.demuxRead src d) s = .next s' ∧ s'.out = s.out ++ [(s.caller, ⟨.ok, .item v⟩)] ∧
        s'.S.rx src = q ∧ (∀ c, c ≠ src → s'.S.rx c = s.S.rx c) ∧ { s'.S with rxq := s.S.rxq } = s.S ∧
        s'.threads = s.threads ∧ s'.wire = s.wire ∧ s'.inputs = s.inputs ∧ s'.caller = s.caller) ∧
      (s.S.session = .opened → s.S.fault = false → s.S.rx src = [] → d = 0 →
        exec (.demuxRead src d) s = .next (s.answered .nodata .none)) ∧
      (s.S.session = .opened → s.S.fault = false → s.S.rx src = [] → d ≠ 0 →
        exec (.demuxRead src d) s = .next (s.setTask s.caller (.demuxWait src d)))) ∧
    (∀ (P : Config.Params) (t : ThreadId), s.taskOf t = some (.apart (.demux src d)) → s.S.fault = false →
      advanceThread P t s = s.setTask t (.demuxWait src d)) ∧
    (∀ (P : Config.Params) (t : ThreadId), s.taskOf t = some (.apart .demuxEnded) → s.S.fault = false →
      advanceThread P t s = s.setTask t .demuxEnded) ∧
    (∀ (P : Config.Params) (t : ThreadId), s.taskOf t = some (.demuxWait src d) → s.S.session = .opened →
      (∀ v q, s.S.rx src = v :: q → timeoutThread P t s = s ∧ ∃ S' : SessionState,
        S'.rx src = q ∧ (∀ c, c ≠ src → S'.rx c = s.S.rx c) ∧ { S' with rxq := s.S.rxq } = s.S ∧
        advanceThread P t s = (({ s with S := S' } : State).dropTask t).respond t ⟨.ok, .item v⟩) ∧
      (s.S.rx src = [] →
        timeoutThread P t s = (s.dropTask t).respond t ⟨.nodata, .none⟩ ∧
        (d = 0 → advanceThread P t s = (s.dropTask t).respond t ⟨.nodata, .none⟩) ∧
        (d ≠ 0 → advanceThread P t s = s.setTask t (.demuxWait src d))))

/-- R305, R306, R307: SENDW moves one item at a time, each WRITE task carrying its own copy, and exits on stop with
nothing left; POLLW posts one READ task a step, and exits on stop. -/
def Obligations.SendwAndPollwSteps : Prop :=
  ∀ S : SessionState,
    (S.wSend = .running → ∀ item, S.stage = some item →
      sendwStep S = { S with wrq := S.wrq ++ [item], stage := none }) ∧
    (S.wSend = .running → S.stage = none → ∀ item q, S.sendq = item :: q →
      sendwStep S = { S with stage := some item, sendq := q }) ∧
    (S.wSend = .running → S.stage = none → S.sendq = [] →
      sendwStep S = if S.stop then { S with wSend := .exited } else S) ∧
    (S.wSend ≠ .running → sendwStep S = S) ∧
    (S.wPoll = .running → pollwStep S =
      if S.stop then { S with wPoll := .exited } else { S with readPending := S.readPending + 1 }) ∧
    (S.wPoll ≠ .running → pollwStep S = S)

/-- R309 to R313: COMM writes the head of S.wrq before any READ; a READ pushes what TP_Read returned to its source's
queue and re-arms; an error sets the fault and halts COMM; COMM exits after the stop with nothing left. -/
def Obligations.CommStepByPriority : Prop :=
  ∀ (onWrite : WriteAnswer) (onRead : ReadAnswer) (s : State),
    (s.S.wComm ≠ .running → commStep onWrite onRead s = s) ∧
    (s.S.wComm = .running → ∀ item rest, s.S.wrq = item :: rest →
      (onWrite = .ok → commStep onWrite onRead s =
        { s with S := { s.S with wrq := rest }, wire := s.wire ++ [.wrote item .ok] }) ∧
      (∀ info, onWrite = .err info → commStep onWrite onRead s =
        { s with
          S := { s.S with wrq := rest, fault := true, faultInfo := some info, wComm := .halted }
          wire := s.wire ++ [.wrote item (.err info)] })) ∧
    (s.S.wComm = .running → s.S.wrq = [] → 0 < s.S.readPending → s.S.stop = false →
      (onRead = .nodata → commStep onWrite onRead s = { s with wire := s.wire ++ [.read .nodata] }) ∧
      (∀ src v, onRead = .data src v → commStep onWrite onRead s =
        { s with S := s.S.pushRx src v, wire := s.wire ++ [.read (.data src v)] }) ∧
      (∀ info, onRead = .err info → commStep onWrite onRead s =
        { s with
          S := { s.S with
            readPending := s.S.readPending - 1, fault := true, faultInfo := some info, wComm := .halted }
          wire := s.wire ++ [.read (.err info)] })) ∧
    (s.S.wComm = .running → s.S.wrq = [] → s.S.stop = true → commStep onWrite onRead s =
      if s.S.wSend = .exited then { s with S := { s.S with wComm := .exited } } else s) ∧
    (s.S.wComm = .running → s.S.wrq = [] → s.S.stop = false → s.S.readPending = 0 →
      commStep onWrite onRead s = s)

/-- R101 to R104, R310, R311: a frame word crosses the port where COMM stands at its operation, and nowhere else: an
uplink word enters S.rxq[CTRL_SRC] undecoded and the READ is re-armed; a Downlink word leaves the head of S.wrq. That
the frame rows are instructions that do this is the model's reading (assumption log 5). -/
def Obligations.FrameWordsCrossThePort : Prop :=
  (∀ (s : State) (i : Instr) (w : BitVec 24),
    (∃ d q c, i = .frameRd24 d q c ∧ w = encodeRd24 d q c) ∨ (∃ r, i = .frameHit24 r ∧ w = encodeHit24 r) ∨
      (∃ k q cp ta sa se oe t c, i = .frameAck24 k q cp ta sa se oe t c ∧
        w = encodeAck24 k q cp ta sa se oe t c) →
    (s.S.wComm = .running → s.S.wrq = [] → 0 < s.S.readPending → s.S.stop = false → exec i s = .next { s with
      S := s.S.pushRx Config.ctrlSrc (.bytes (bytesOfUp w))
      wire := s.wire ++ [.read (.data Config.ctrlSrc (.bytes (bytesOfUp w)))] }) ∧
    (s.S.wComm ≠ .running ∨ s.S.wrq ≠ [] ∨ s.S.readPending = 0 ∨ s.S.stop = true → exec i s = .next s)) ∧
  (∀ (s : State) a q rt p c,
    (∀ dest rest, s.S.wComm = .running → s.S.wrq = ⟨.bytes (bytesOfDown (encodeDl40 a q rt p c)), dest⟩ :: rest →
      exec (.frameDl40 a q rt p c) s = .next { s with
        S := { s.S with wrq := rest }
        wire := s.wire ++ [.wrote ⟨.bytes (bytesOfDown (encodeDl40 a q rt p c)), dest⟩ .ok] }) ∧
    (s.S.wComm ≠ .running ∨ s.S.wrq.head?.map (·.value) ≠ some (.bytes (bytesOfDown (encodeDl40 a q rt p c))) →
      exec (.frameDl40 a q rt p c) s = .next s))

/-- R317 (a) and R83, the spec's own inferences: items reach TP_Write in the order of their pushes: every step leaves
the sequence of items handed over, in S.wrq, staged and in S.sendq as it is, or adds one at its end by a push to
S.sendq, or the session ends or opens. -/
def Obligations.WritesAreFifo : Prop :=
  ∀ s s' : State, step s = .next s' →
    s'.pipeline = s.pipeline ∨
    (∃ item, s'.pipeline = s.pipeline ++ [item] ∧ s'.S.sendq = s.S.sendq ++ [item] ∧ s'.wire = s.wire) ∨
    (s'.wire = s.wire ∧ (s'.S = SessionState.reset ∨ ∃ a, s'.S = SessionState.atOpen a))

/-- R84, R78, and R317 (c), the spec's own inference: a receive queue only gains a value at its tail, when TP_Read
returned that value for its source, or loses its head, one value a step, unless the session ends or opens. -/
def Obligations.ReceiveQueuesKeepOrder : Prop :=
  ∀ (s s' : State) (src : Chan), step s = .next s' →
    s'.S.rx src = s.S.rx src ∨
    (∃ v, s'.S.rx src = s.S.rx src ++ [v] ∧ s'.wire = s.wire ++ [.read (.data src v)]) ∨
    (∃ v, s.S.rx src = v :: s'.S.rx src) ∨
    s'.S = SessionState.reset ∨ ∃ a, s'.S = SessionState.atOpen a

/-- R50 (b), and R308, the spec's own inference, read with R309 and R311 (assumption log 13): while the session stays OPEN
S.read_pending never decreases, but for the one step whose TP_Read answers an error, which takes its READ task and does
not re-arm it. -/
def Obligations.ReadPendingNeverDecreases : Prop :=
  ∀ s s' : State, step s = .next s' → s.S.session = .opened → s'.S.session = .opened →
    s.S.readPending ≤ s'.S.readPending ∨
    ∃ info, s'.wire = s.wire ++ [.read (.err info)] ∧ s'.S.readPending + 1 = s.S.readPending ∧
      s'.S.fault = true ∧ s'.S.faultInfo = some info ∧ s'.S.wComm = .halted

/-- R37, R313: a fault and its info stay until the session ends or opens, and from then on the transport is not used. -/
def Obligations.FaultIsSticky : Prop :=
  ∀ s s' : State, s.Inv → step s = .next s' → s.S.fault = true →
    s'.wire = s.wire ∧
    ((s'.S.fault = true ∧ s'.S.faultInfo = s.S.faultInfo) ∨ s'.S = SessionState.reset)

/-- R294: a step performs at most one transport operation, and only while COMM runs. That a frame word crossing the
port is such a step is the model's reading (assumption log 5). -/
def Obligations.OnlyCommUsesTheTransport : Prop :=
  ∀ s s' : State, step s = .next s' →
    s'.wire = s.wire ∨
    (s.S.wComm = .running ∧ (∃ e, s'.wire = s.wire ++ [e]) ∧
      ∃ rest, (∃ x y, s.inputs = .comm x y :: rest) ∨ (∃ w, s.inputs = .up w :: rest) ∨
        ∃ w, s.inputs = .down w :: rest)

/-- R36, R246, R34, R35: S.seq changes only by one draw of a RAP command in progress; S.chip_addr is fixed while a
session lasts; S.session moves only by a SESSION_OPEN, by the stop step and the end of a SESSION_CLOSE, and by RST. -/
def Obligations.SessionRegistersMoveByRule : Prop :=
  ∀ s s' : State, step s = .next s' →
    (s'.S = SessionState.reset ∧ ∃ rest, (s.inputs = .rst :: rest ∨
      ∃ t, s.taskOf t = some .closeJoin ∧ (s.inputs = .advance t :: rest ∨ s.inputs = .timeout t :: rest))) ∨
    (s.S.session = .closed ∧ ∃ t code ops a rest,
      (s.inputs = .issue t code ops :: rest ∨ s.inputs = .issueApart t code ops :: rest) ∧ s.taskOf t = none ∧
      decode (.command code ops) = .ok (.sessionOpen a) ∧ a < 16 ∧
      s'.S = SessionState.atOpen (BitVec.ofNat 4 a)) ∨
    (s'.S.chipAddr = s.S.chipAddr ∧
      (s'.S.session = s.S.session ∨
        (s'.S.session = .stopping ∧ ∃ t rest, s.inputs = .advance t :: rest ∧ s.taskOf t = some .closeStop)) ∧
      (s'.S.seq = s.S.seq ∨
        (s'.S.seq = s.S.seq + 1 ∧ ∃ t rest, s.inputs = .advance t :: rest ∧
          ((∃ rt payload frames, s.taskOf t = some (.write (.draw rt payload frames))) ∨
            ∃ n al a addrs, s.taskOf t = some (.read n al (.draw a addrs))))))

/-- R360: RST, in every state. That the responses are recorded in rising order of thread, after those already given, is the
model's choice (assumption log 18). -/
def Obligations.BlockResetMeaning : Prop :=
  ∀ (s : State) (rest : List Input), s.inputs = .rst :: rest → ∃ s', step s = .next s' ∧
    s'.S = SessionState.reset ∧ s'.wire = s.wire ∧ s'.inputs = rest ∧ (∀ t, s'.taskOf t = none) ∧
    s'.out = s.out ++ s.threads.map (fun e => (e.1, ⟨.notOpen, .none⟩))

/-! ### Invariants -/

/-- The state after reset meets the invariant. -/
def Obligations.ResetMeetsInvariant : Prop := State.reset.Inv

/-- Every step keeps the invariant. -/
def Obligations.StepKeepsInvariant : Prop :=
  ∀ s s' : State, s.Inv → step s = .next s' → s'.Inv

/-- A step stops only where a thread brings operands that are no value of the command type (R8), never at a command: the
model's reading (assumption log 3). -/
def Obligations.StepStopsOnlyAtNoCommand : Prop :=
  ∀ s : State, (∃ s', step s = .next s') ∨
    ∃ t code ops rest e, ∃ c : Command, (s.inputs = .issue t code ops :: rest ∨ s.inputs = .issueApart t code ops :: rest) ∧
      s.taskOf t = none ∧ c.code = code ∧ (e = .operandShape c ∨ e = .operandValue c) ∧
      decode (.command code ops) = .error e ∧ step s = .refused (.notACommand e)
end

