-- ==== Sys2Proof/Laws/Datapath.lean ====
section
/-! SUPPORT. What the pure datapath functions do: bits and values, the fields of a frame, the CRC step. -/

namespace Sys2Proof.Machine

/-! ### Bits and values -/

@[simp] theorem length_bits (w v : Nat) : (bits w v).length = w := by
  induction w with
  | zero => rfl
  | succ w ih => simp [bits, ih]

theorem bvValue_from (v : Bv) (acc : Nat) :
    v.foldl (fun acc b => 2 * acc + b.toNat) acc = acc * 2 ^ v.length + bvValue v := by
  induction v generalizing acc with
  | nil => simp [bvValue]
  | cons b v ih =>
    simp only [List.foldl_cons, List.length_cons, bvValue]
    rw [ih, ih (2 * 0 + b.toNat)]
    ring

@[simp] theorem bvValue_nil : bvValue [] = 0 := rfl

theorem bvValue_cons (b : Bool) (v : Bv) : bvValue (b :: v) = b.toNat * 2 ^ v.length + bvValue v := by
  have := bvValue_from v (2 * 0 + b.toNat)
  simpa [bvValue] using this

theorem bvValue_append (a b : Bv) : bvValue (a ++ b) = bvValue a * 2 ^ b.length + bvValue b := by
  rw [bvValue, List.foldl_append, bvValue_from]
  rfl

theorem bvValue_lt (v : Bv) : bvValue v < 2 ^ v.length := by
  induction v with
  | nil => simp
  | cons b v ih =>
    rw [bvValue_cons, List.length_cons, Nat.pow_succ]
    cases b <;> simp <;> omega

theorem bvValue_bits (w v : Nat) : bvValue (bits w v) = v % 2 ^ w := by
  induction w with
  | zero => simp [bits, Nat.mod_one]
  | succ w ih =>
    have hb : (v.testBit w).toNat = v / 2 ^ w % 2 := by
      rw [Nat.testBit_eq_decide_div_mod_eq]
      rcases Nat.mod_two_eq_zero_or_one (v / 2 ^ w) with h | h <;> simp [h]
    rw [bits, bvValue_cons, ih, length_bits, Nat.mod_pow_succ, hb]
    ring

theorem bvValue_bits_of_lt {w v : Nat} (h : v < 2 ^ w) : bvValue (bits w v) = v := by
  rw [bvValue_bits, Nat.mod_eq_of_lt h]

/-- Two numbers whose low w bits agree have the same w bits. -/
theorem bits_congr {w u v : Nat} (h : ∀ i < w, u.testBit i = v.testBit i) : bits w u = bits w v := by
  induction w with
  | zero => rfl
  | succ w ih => rw [bits, bits, h w (by omega), ih (fun i hi => h i (by omega))]

/-- Vectors of one length with one value are the same vector (R140). -/
theorem bv_eq_of_value {a b : Bv} (hl : a.length = b.length) (hv : bvValue a = bvValue b) : a = b := by
  induction a generalizing b with
  | nil => exact (List.length_eq_zero_iff.mp hl.symm).symm
  | cons x a ih =>
    cases b with
    | nil => cases hl
    | cons y b =>
      have hl' : a.length = b.length := by simpa using hl
      rw [bvValue_cons, bvValue_cons, hl'] at hv
      have ha := bvValue_lt a
      have hb := bvValue_lt b
      rw [hl'] at ha
      have hxy : x = y := by
        cases x <;> cases y <;> simp at hv ⊢ <;> omega
      subst hxy
      rw [ih hl' (by omega)]

theorem bits_bvValue (v : Bv) : bits v.length (bvValue v) = v :=
  bv_eq_of_value (length_bits ..) (bvValue_bits_of_lt (bvValue_lt v))

/-- The bits of a number in two parts. -/
theorem bits_add (m n v : Nat) : bits (m + n) v = bits m (v / 2 ^ n) ++ bits n v := by
  apply bv_eq_of_value
  · simp
  · rw [bvValue_append, bvValue_bits, bvValue_bits, bvValue_bits, length_bits, Nat.pow_add, Nat.mul_comm (2 ^ m),
      Nat.mod_mul, Nat.mul_comm (2 ^ n), Nat.add_comm]

/-! ### Bytes -/

theorem length_bitsOfBytes (b : List Byte) : (bitsOfBytes b).length = 8 * b.length := by
  induction b with
  | nil => rfl
  | cons x b ih =>
    simp only [bitsOfBytes, List.flatMap_cons, List.length_append, length_bits, List.length_cons] at ih ⊢
    omega

theorem bytesOfBits_bitsOfBytes (b : List Byte) (rest : Bv) :
    bytesOfBits b.length (bitsOfBytes b ++ rest) = b := by
  induction b with
  | nil => rfl
  | cons x b ih =>
    have h : bitsOfBytes (x :: b) ++ rest = bits 8 x.toNat ++ (bitsOfBytes b ++ rest) := by
      simp [bitsOfBytes]
    have hx : x.toNat < 2 ^ 8 := x.isLt
    rw [h, List.length_cons, bytesOfBits, List.take_left' (length_bits ..), List.drop_left' (length_bits ..), ih,
      bvValue_bits_of_lt hx]
    simp

theorem bitsOfBytes_bytesOfBits (k : Nat) (v : Bv) (h : v.length = 8 * k) :
    bitsOfBytes (bytesOfBits k v) = v := by
  induction k generalizing v with
  | zero => simpa [bytesOfBits, bitsOfBytes] using (List.length_eq_zero_iff.mp (by simpa using h)).symm
  | succ k ih =>
    have ht : (v.take 8).length = 8 := by rw [List.length_take]; omega
    have hd := ih (v.drop 8) (by rw [List.length_drop]; omega)
    have hb : bits 8 (BitVec.ofNat 8 (bvValue (v.take 8))).toNat = v.take 8 := by
      have := bvValue_lt (v.take 8)
      rw [ht] at this
      rw [BitVec.toNat_ofNat, Nat.mod_eq_of_lt this]
      conv_rhs => rw [← bits_bvValue (v.take 8), ht]
    rw [bytesOfBits]
    simp only [bitsOfBytes, List.flatMap_cons] at hd ⊢
    rw [hd, hb, List.take_append_drop]

/-! ### Fields of a frame -/

theorem length_packFields {ws xs : List Nat} (h : fitWidths ws xs = true) :
    (packFields ws xs).length = ws.sum := by
  induction ws generalizing xs with
  | nil => rfl
  | cons w ws ih =>
    cases xs with
    | nil => simp [fitWidths] at h
    | cons x xs =>
      simp only [fitWidths, Bool.and_eq_true] at h
      simp [packFields, ih h.2]

theorem unpackFields_packFields {ws xs : List Nat} (h : fitWidths ws xs = true) (rest : Bv) :
    unpackFields ws (packFields ws xs ++ rest) = (xs, rest) := by
  induction ws generalizing xs with
  | nil => cases xs with
    | nil => rfl
    | cons => simp [fitWidths] at h
  | cons w ws ih =>
    cases xs with
    | nil => simp [fitWidths] at h
    | cons x xs =>
      simp only [fitWidths, Bool.and_eq_true, decide_eq_true_eq] at h
      simp only [packFields, unpackFields, List.append_assoc]
      rw [List.take_left' (length_bits ..), List.drop_left' (length_bits ..), ih h.2, bvValue_bits_of_lt h.1]

theorem fitWidths_unpackFields (ws : List Nat) {v : Bv} (h : ws.sum ≤ v.length) :
    fitWidths ws (unpackFields ws v).1 = true := by
  induction ws generalizing v with
  | nil => rfl
  | cons w ws ih =>
    have hw : (v.take w).length = w := by simp at h ⊢; omega
    have hlt := bvValue_lt (v.take w)
    rw [hw] at hlt
    simp only [unpackFields, fitWidths, Bool.and_eq_true, decide_eq_true_eq]
    exact ⟨hlt, ih (by simp at h ⊢; omega)⟩

theorem packFields_unpackFields (ws : List Nat) {v : Bv} (h : ws.sum ≤ v.length) :
    packFields ws (unpackFields ws v).1 ++ (unpackFields ws v).2 = v := by
  induction ws generalizing v with
  | nil => rfl
  | cons w ws ih =>
    have hw : (v.take w).length = w := by simp at h ⊢; omega
    have hb : bits w (bvValue (v.take w)) = v.take w := by
      conv_rhs => rw [← bits_bvValue (v.take w), hw]
    simp only [unpackFields, packFields, List.append_assoc, hb]
    rw [ih (by simp at h ⊢; omega), List.take_append_drop]

theorem length_unpackFields_rest (ws : List Nat) (v : Bv) :
    (unpackFields ws v).2.length = v.length - ws.sum := by
  induction ws generalizing v with
  | nil => rfl
  | cons w ws ih =>
    simp only [unpackFields, ih, List.length_drop, List.sum_cons]
    omega

/-! ### The bits of a frame (R202, R209) -/

/-- The bits of a word put together from two. -/
theorem bits_append {m n : Nat} (a : BitVec m) (b : BitVec n) :
    bits (m + n) (a ++ b).toNat = bits m a.toNat ++ bits n b.toNat := by
  apply bv_eq_of_value
  · simp
  · rw [bvValue_append, bvValue_bits_of_lt (a ++ b).isLt, bvValue_bits_of_lt a.isLt, bvValue_bits_of_lt b.isLt,
      length_bits, BitVec.toNat_append, ← Nat.shiftLeft_add_eq_or_of_lt b.isLt, Nat.shiftLeft_eq]

/-- The bits of a frame value fill its layout (R201). -/
theorem length_frameBits {f : Frame} (h : f.wellFormed = true) :
    (frameBits f).length = Config.frameWidth f.type := by
  simp only [Frame.wellFormed, Bool.and_eq_true] at h
  simp only [frameBits, bodyBits, prefixBits, List.length_append, length_bits, length_packFields h.1,
    Config.frameWidth]
  have := h.2
  rcases f with ⟨t, xs, c⟩
  cases t <;> cases c <;> simp_all [Config.polyOf, Config.crcWidth]

theorem frameBits_take_prefix (f : Frame) : (frameBits f).take (Config.prefixOf f.type).2 = prefixBits f.type := by
  simp only [frameBits, bodyBits, prefixBits, List.append_assoc]
  rw [List.take_left' (length_bits ..)]

/-- Comparing a prefix by value is comparing it by bits. -/
theorem prefix_value_iff (t : FrameType) {v : Bv} (h : (Config.prefixOf t).2 ≤ v.length) :
    bvValue (v.take (Config.prefixOf t).2) = (Config.prefixOf t).1 ↔
      v.take (Config.prefixOf t).2 = prefixBits t := by
  have hp : (Config.prefixOf t).1 < 2 ^ (Config.prefixOf t).2 := by cases t <;> decide
  constructor
  · intro e
    apply bv_eq_of_value
    · simp [prefixBits]
      omega
    · rw [e, prefixBits, bvValue_bits_of_lt hp]
  · intro e
    rw [e, prefixBits, bvValue_bits_of_lt hp]

/-- FRAME_DECODE, said once (R209): too short for the prefix, another prefix, another length, or the parsed frame. -/
theorem frameDecode_cases (t : FrameType) (v : Bv) :
    (v.length < (Config.prefixOf t).2 ∧ frameDecode t v = constructionError .popUnderflow .bv (.bv v)) ∨
    ((Config.prefixOf t).2 ≤ v.length ∧ v.take (Config.prefixOf t).2 ≠ prefixBits t ∧
      frameDecode t v = .ok .prefixMismatch) ∨
    (v.take (Config.prefixOf t).2 = prefixBits t ∧ v.length ≠ Config.frameWidth t ∧
      frameDecode t v = constructionError .widthMismatch .bv (.bv v)) ∨
    (v.take (Config.prefixOf t).2 = prefixBits t ∧ v.length = Config.frameWidth t ∧
      frameDecode t v = .ok (.frame (parseBody t (v.drop (Config.prefixOf t).2))
        (crcOkFlag (parseBody t (v.drop (Config.prefixOf t).2))))) := by
  have hw : (Config.prefixOf t).2 ≤ Config.frameWidth t := by cases t <;> decide
  by_cases hl : v.length < (Config.prefixOf t).2
  · exact .inl ⟨hl, by simp [frameDecode, hl]⟩
  have hle := Nat.not_lt.mp hl
  have hiff := prefix_value_iff t hle
  by_cases hp : v.take (Config.prefixOf t).2 = prefixBits t
  · have he := hiff.mpr hp
    by_cases hn : v.length = Config.frameWidth t
    · refine .inr (.inr (.inr ⟨hp, hn, ?_⟩))
      simp only [frameDecode, if_neg hl]
      rw [if_neg (by simpa using he), if_neg]
      simp
      omega
    · refine .inr (.inr (.inl ⟨hp, hn, ?_⟩))
      simp only [frameDecode, if_neg hl]
      rw [if_neg (by simpa using he), if_pos]
      simp
      omega
  · refine .inr (.inl ⟨hle, hp, ?_⟩)
    simp only [frameDecode, if_neg hl]
    rw [if_pos]
    rw [Ne, hiff]
    exact hp

/-! ### The CRC step (R176) -/

theorem crcStep_lt {p : Poly} (hp : p.normal < 2 ^ p.degree) (reg : Nat) (b : Bool) :
    crcStep p reg b < 2 ^ p.degree := by
  have h : (reg <<< 1) % 2 ^ p.degree < 2 ^ p.degree := Nat.mod_lt _ (by positivity)
  simp only [crcStep]
  split
  · exact Nat.xor_lt_two_pow h hp
  · exact h

@[simp] theorem crcFrom_nil (p : Poly) (r : Nat) : crcFrom p r [] = r := rfl

@[simp] theorem crcFrom_cons (p : Poly) (r : Nat) (b : Bool) (v : Bv) :
    crcFrom p r (b :: v) = crcFrom p (crcStep p r b) v := rfl

theorem crcFrom_append (p : Poly) (r : Nat) (a b : Bv) : crcFrom p r (a ++ b) = crcFrom p (crcFrom p r a) b :=
  List.foldl_append ..

theorem crcFrom_lt {p : Poly} (hp : p.normal < 2 ^ p.degree) {r : Nat} (hr : r < 2 ^ p.degree) (v : Bv) :
    crcFrom p r v < 2 ^ p.degree := by
  induction v generalizing r with
  | nil => exact hr
  | cons b v ih => exact ih (crcStep_lt hp r b)

end Sys2Proof.Machine
end

