-- ==== Sys2Proof/Laws/State.lean ====
section
/-! SUPPORT. One lemma per field per update of the state, and what each shared operation over the state can do. -/

namespace Sys2Proof.Machine

/-! ### Finite maps -/

@[simp] theorem assocGet_nil {α : Type} (k : Nat) : assocGet k ([] : List (Nat × α)) = none := rfl

@[simp] theorem assocErase_nil {α : Type} (k : Nat) : assocErase k ([] : List (Nat × α)) = [] := rfl

@[simp] theorem assocGet_insert_same {α : Type} (k : Nat) (v : α) (l : List (Nat × α)) :
    assocGet k (assocInsert k v l) = some v := by
  induction l with
  | nil => simp [assocInsert, assocGet]
  | cons e es ih =>
    by_cases h : k < e.1
    · simp [assocInsert, assocGet, h]
    · by_cases h' : e.1 = k
      · simp [assocInsert, assocGet, h']
      · simp [assocInsert, assocGet, h, h', ih]

theorem assocGet_insert_other {α : Type} {k k' : Nat} (hne : k' ≠ k) (v : α) (l : List (Nat × α)) :
    assocGet k' (assocInsert k v l) = assocGet k' l := by
  induction l with
  | nil => simp [assocInsert, assocGet, hne.symm]
  | cons e es ih =>
    by_cases h : k < e.1
    · simp [assocInsert, assocGet, h, hne.symm]
    · by_cases h' : e.1 = k
      · simp [assocInsert, assocGet, h', hne.symm]
      · simp [assocInsert, assocGet, h, h', ih]

@[simp] theorem assocGet_erase_same {α : Type} (k : Nat) (l : List (Nat × α)) :
    assocGet k (assocErase k l) = none := by
  induction l with
  | nil => rfl
  | cons e es ih =>
    by_cases h : e.1 = k
    · simpa [assocErase, h] using ih
    · simpa [assocErase, h, assocGet] using ih

theorem assocGet_erase_other {α : Type} {k k' : Nat} (hne : k' ≠ k) (l : List (Nat × α)) :
    assocGet k' (assocErase k l) = assocGet k' l := by
  induction l with
  | nil => rfl
  | cons e es ih =>
    have ih' : assocGet k' (es.filter (fun e => e.1 != k)) = assocGet k' es := ih
    by_cases h : e.1 = k
    · have : e.1 ≠ k' := fun c => hne (c ▸ h)
      simp [assocErase, h, assocGet, ih', hne.symm]
    · simp [assocErase, h, assocGet, ih']

theorem assocErase_of_absent {α : Type} {k : Nat} {l : List (Nat × α)} (h : assocGet k l = none) :
    assocErase k l = l := by
  induction l with
  | nil => rfl
  | cons e es ih =>
    simp only [assocGet] at h
    split at h
    · cases h
    · rename_i hk
      have hes : es.filter (fun e => e.1 != k) = es := ih h
      simp [assocErase, hk, hes]

theorem assocGet_mem {α : Type} {k : Nat} {v : α} {l : List (Nat × α)} (h : assocGet k l = some v) : (k, v) ∈ l := by
  induction l with
  | nil => cases h
  | cons e es ih =>
    simp only [assocGet] at h
    split at h
    · rename_i hk
      cases h
      simp [← hk]
    · exact List.mem_cons_of_mem _ (ih h)

/-- The keys of a canonical map are distinct. -/
theorem assocWf_keys_nodup {α : Type} {l : List (Nat × α)} (h : assocWf l = true) : (l.map Prod.fst).Nodup := by
  induction l with
  | nil => simp
  | cons e es ih =>
    simp only [assocWf, Bool.and_eq_true, List.all_eq_true, decide_eq_true_eq] at h
    simp only [List.map_cons, List.nodup_cons, List.mem_map, not_exists, not_and]
    exact ⟨fun f hf he => by have := h.1 f hf; omega, ih h.2⟩

/-- In a canonical map the entry of a key is the pair listed for it. -/
theorem assocGet_iff_mem {α : Type} {l : List (Nat × α)} (h : assocWf l = true) {k : Nat} {v : α} :
    assocGet k l = some v ↔ (k, v) ∈ l := by
  refine ⟨assocGet_mem, ?_⟩
  induction l with
  | nil => simp
  | cons e es ih =>
    simp only [assocWf, Bool.and_eq_true, List.all_eq_true, decide_eq_true_eq] at h
    intro hm
    rcases List.mem_cons.mp hm with rfl | hm
    · simp [assocGet]
    · have := h.1 _ hm
      rw [assocGet, if_neg (by simp only at this; omega)]
      exact ih h.2 hm

theorem mem_assocInsert {α : Type} {k : Nat} {v : α} {l : List (Nat × α)} {e : Nat × α}
    (h : e ∈ assocInsert k v l) : e = (k, v) ∨ e ∈ l := by
  induction l with
  | nil => exact .inl (by simpa [assocInsert] using h)
  | cons x xs ih =>
    simp only [assocInsert] at h
    split at h
    · simpa using h
    · split at h
      · rcases List.mem_cons.mp h with h | h
        · exact .inl h
        · exact .inr (List.mem_cons_of_mem _ h)
      · rcases List.mem_cons.mp h with h | h
        · exact .inr (h ▸ List.mem_cons_self ..)
        · exact (ih h).imp_right (List.mem_cons_of_mem _)

/-- An insertion keeps the canonical form. -/
theorem assocWf_insert {α : Type} (k : Nat) (v : α) {l : List (Nat × α)} (h : assocWf l = true) :
    assocWf (assocInsert k v l) = true := by
  induction l with
  | nil => rfl
  | cons e es ih =>
    simp only [assocWf, Bool.and_eq_true, List.all_eq_true, decide_eq_true_eq] at h
    simp only [assocInsert]
    split
    · rename_i hk
      simp only [assocWf, Bool.and_eq_true, List.all_eq_true, decide_eq_true_eq]
      refine ⟨fun f hf => ?_, h⟩
      rcases List.mem_cons.mp hf with rfl | hf
      · exact hk
      · exact hk.trans (h.1 f hf)
    · split
      · rename_i _ hk
        simp only [assocWf, Bool.and_eq_true, List.all_eq_true, decide_eq_true_eq]
        exact ⟨fun f hf => hk ▸ h.1 f hf, h.2⟩
      · rename_i hk hk'
        simp only [assocWf, Bool.and_eq_true, List.all_eq_true, decide_eq_true_eq]
        refine ⟨fun f hf => ?_, ih h.2⟩
        rcases mem_assocInsert hf with rfl | hf
        · simp only
          omega
        · exact h.1 f hf

/-- An erasure keeps the canonical form. -/
theorem assocWf_erase {α : Type} (k : Nat) {l : List (Nat × α)} (h : assocWf l = true) :
    assocWf (assocErase k l) = true := by
  induction l with
  | nil => rfl
  | cons e es ih =>
    simp only [assocWf, Bool.and_eq_true, List.all_eq_true, decide_eq_true_eq] at h
    by_cases hk : e.1 = k
    · simpa [assocErase, hk] using ih h.2
    · have := ih h.2
      simp only [assocErase, bne_iff_ne, ne_eq, hk, not_false_eq_true, List.filter_cons_of_pos, assocWf,
        Bool.and_eq_true, List.all_eq_true, decide_eq_true_eq]
      exact ⟨fun f hf => h.1 f (List.mem_of_mem_filter hf), this⟩

/-! ### Fields under updates -/

section Updates
variable (s : State) (t : ThreadId) (task : Task) (S' : SessionState) (r : Response) (e : TpEvent)

@[simp] theorem withS_S : (s.withS S').S = S' := rfl
@[simp] theorem withS_threads : (s.withS S').threads = s.threads := rfl
@[simp] theorem withS_caller : (s.withS S').caller = s.caller := rfl
@[simp] theorem withS_out : (s.withS S').out = s.out := rfl
@[simp] theorem withS_wire : (s.withS S').wire = s.wire := rfl
@[simp] theorem withS_inputs : (s.withS S').inputs = s.inputs := rfl
@[simp] theorem withS_taskOf : (s.withS S').taskOf t = s.taskOf t := rfl

@[simp] theorem setTask_S : (s.setTask t task).S = s.S := rfl
@[simp] theorem setTask_threads : (s.setTask t task).threads = assocInsert t task s.threads := rfl
@[simp] theorem setTask_caller : (s.setTask t task).caller = s.caller := rfl
@[simp] theorem setTask_out : (s.setTask t task).out = s.out := rfl
@[simp] theorem setTask_wire : (s.setTask t task).wire = s.wire := rfl
@[simp] theorem setTask_inputs : (s.setTask t task).inputs = s.inputs := rfl
@[simp] theorem setTask_taskOf_same : (s.setTask t task).taskOf t = some task := assocGet_insert_same ..

@[simp] theorem dropTask_S : (s.dropTask t).S = s.S := rfl
@[simp] theorem dropTask_threads : (s.dropTask t).threads = assocErase t s.threads := rfl
@[simp] theorem dropTask_caller : (s.dropTask t).caller = s.caller := rfl
@[simp] theorem dropTask_out : (s.dropTask t).out = s.out := rfl
@[simp] theorem dropTask_wire : (s.dropTask t).wire = s.wire := rfl
@[simp] theorem dropTask_inputs : (s.dropTask t).inputs = s.inputs := rfl

@[simp] theorem respond_S : (s.respond t r).S = s.S := rfl
@[simp] theorem respond_threads : (s.respond t r).threads = s.threads := rfl
@[simp] theorem respond_caller : (s.respond t r).caller = s.caller := rfl
@[simp] theorem respond_out : (s.respond t r).out = s.out ++ [(t, r)] := rfl
@[simp] theorem respond_wire : (s.respond t r).wire = s.wire := rfl
@[simp] theorem respond_inputs : (s.respond t r).inputs = s.inputs := rfl

@[simp] theorem record_S : (s.record e).S = s.S := rfl
@[simp] theorem record_threads : (s.record e).threads = s.threads := rfl
@[simp] theorem record_caller : (s.record e).caller = s.caller := rfl
@[simp] theorem record_out : (s.record e).out = s.out := rfl
@[simp] theorem record_wire : (s.record e).wire = s.wire ++ [e] := rfl
@[simp] theorem record_inputs : (s.record e).inputs = s.inputs := rfl

@[simp] theorem endCommand_S : (s.endCommand t r).S = s.phaseAfter t := rfl
@[simp] theorem endCommand_threads : (s.endCommand t r).threads = assocErase t s.threads := rfl
@[simp] theorem endCommand_caller : (s.endCommand t r).caller = s.caller := rfl
@[simp] theorem endCommand_out : (s.endCommand t r).out = s.out ++ [(t, r)] := rfl
@[simp] theorem endCommand_wire : (s.endCommand t r).wire = s.wire := rfl
@[simp] theorem endCommand_inputs : (s.endCommand t r).inputs = s.inputs := rfl

@[simp] theorem blockReset_S : s.blockReset.S = SessionState.reset := rfl
@[simp] theorem blockReset_threads : s.blockReset.threads = [] := rfl
@[simp] theorem blockReset_wire : s.blockReset.wire = s.wire := rfl
@[simp] theorem blockReset_inputs : s.blockReset.inputs = s.inputs := rfl

end Updates

/-! ### What the shared operations do -/

theorem setTask_taskOf_other (s : State) {t t' : ThreadId} (h : t' ≠ t) (task : Task) :
    (s.setTask t task).taskOf t' = s.taskOf t' := assocGet_insert_other h ..

@[simp] theorem endCommand_taskOf_same (s : State) (t : ThreadId) (r : Response) :
    (s.endCommand t r).taskOf t = none := assocGet_erase_same ..

theorem endCommand_taskOf_other (s : State) {t t' : ThreadId} (h : t' ≠ t) (r : Response) :
    (s.endCommand t r).taskOf t' = s.taskOf t' := assocGet_erase_other h ..

/-- The end of a command in a thread that has none in progress only gives the response. -/
theorem endCommand_idle {s : State} {t : ThreadId} (h : s.taskOf t = none) (r : Response) :
    s.endCommand t r = { s with out := s.out ++ [(t, r)] } := by
  simp [State.endCommand, State.phaseAfter, h, State.dropTask, State.respond, assocErase_of_absent h]

/-- A normal end in a thread with no command in progress. -/
theorem finish_idle {s : State} {t : ThreadId} (h : s.taskOf t = none) (r : Result) :
    s.finish t r = { s with out := s.out ++ [(t, ⟨.ok, r⟩)] } := endCommand_idle h _

/-- An exception in a thread with no command in progress (R342). -/
theorem takeException_idle {s : State} {t : ThreadId} (h : s.taskOf t = none) (st : Status) :
    s.takeException t st = { s with out := s.out ++ [(t, ⟨st, .none⟩)] } := endCommand_idle h _

/-- S.rap_phase returns to IDLE exactly for a RAP command after ADMIT (R241). -/
theorem phaseAfter_of_task {s : State} {t : ThreadId} {task : Task} (h : s.taskOf t = some task) :
    s.phaseAfter t = if task.holdsPhase then { s.S with rapPhase := .idle } else s.S := by
  simp [State.phaseAfter, h]

/-- The end of a RAP command after ADMIT: the phase returns to IDLE, the command is gone and the response is given. -/
theorem endCommand_holding {s : State} {t : ThreadId} {task : Task} (h : s.taskOf t = some task)
    (hk : task.holdsPhase = true) (r : Response) : s.endCommand t r =
      (({ s with S := { s.S with rapPhase := .idle } } : State).dropTask t).respond t r := by
  rw [State.endCommand, phaseAfter_of_task h, if_pos hk]

/-- The end of any other command in progress: it is gone and the response is given. -/
theorem endCommand_free {s : State} {t : ThreadId} {task : Task} (h : s.taskOf t = some task)
    (hk : task.holdsPhase = false) (r : Response) : s.endCommand t r = (s.dropTask t).respond t r := by
  rw [State.endCommand, phaseAfter_of_task h, if_neg (by simp [hk])]

/-- A pure command answers its result, or takes the exception of its check; nothing else changes (R9). -/
theorem answerPure_idle {s : State} (h : s.taskOf s.caller = none) (r : Except ConstructionError Result) :
    s.answerPure r = .next { s with
      out := s.out ++ [(s.caller, match r with
        | .ok x => ⟨.ok, x⟩
        | .error e => ⟨.constructionError e, .none⟩)] } := by
  cases r with
  | ok x => exact congrArg _ (finish_idle h x)
  | error e => exact congrArg _ (takeException_idle h _)

/-! ### Receive queues (R46) -/

theorem rx_setRx_same (S : SessionState) (src : Chan) (q : List Value) : (S.setRx src q).rx src = q := by
  cases q <;> simp [SessionState.setRx, SessionState.rx]

theorem rx_setRx_other (S : SessionState) {src src' : Chan} (h : src' ≠ src) (q : List Value) :
    (S.setRx src q).rx src' = S.rx src' := by
  cases q
  · simp [SessionState.setRx, SessionState.rx, assocGet_erase_other h]
  · simp [SessionState.setRx, SessionState.rx, assocGet_insert_other h]

@[simp] theorem rx_pushRx_same (S : SessionState) (src : Chan) (v : Value) :
    (S.pushRx src v).rx src = S.rx src ++ [v] := rx_setRx_same ..

theorem rx_pushRx_other (S : SessionState) {src src' : Chan} (h : src' ≠ src) (v : Value) :
    (S.pushRx src v).rx src' = S.rx src' := rx_setRx_other _ h _

/-- Setting a receive queue keeps the canonical form. -/
theorem rxWf_setRx {S : SessionState} (h : S.rxWf = true) (src : Chan) (q : List Value) :
    (S.setRx src q).rxWf = true := by
  simp only [SessionState.rxWf, Bool.and_eq_true, List.all_eq_true] at h
  cases q with
  | nil =>
    simp only [SessionState.rxWf, SessionState.setRx, List.isEmpty_nil, if_true, Bool.and_eq_true, List.all_eq_true]
    exact ⟨assocWf_erase src h.1, fun e he => h.2 e (List.mem_of_mem_filter he)⟩
  | cons v q =>
    simp only [SessionState.rxWf, SessionState.setRx, List.isEmpty_cons, Bool.false_eq_true, if_false,
      Bool.and_eq_true, List.all_eq_true]
    refine ⟨assocWf_insert src _ h.1, fun e he => ?_⟩
    rcases mem_assocInsert he with rfl | he
    · rfl
    · exact h.2 e he

/-- A push keeps the canonical form. -/
theorem rxWf_pushRx {S : SessionState} (h : S.rxWf = true) (src : Chan) (v : Value) :
    (S.pushRx src v).rxWf = true := rxWf_setRx h ..

/-- The three outcomes of a look inside a WaitPop (R15). -/
theorem waitPop_cases (S : SessionState) (src : Chan) (t : Duration) :
    (∃ v q, S.rx src = v :: q ∧ S.waitPop src t = .popped v (S.setRx src q)) ∨
    (S.rx src = [] ∧ t = 0 ∧ S.waitPop src t = .nodata) ∨
    (S.rx src = [] ∧ 0 < t ∧ S.waitPop src t = .waiting) := by
  cases h : S.rx src with
  | cons v q => exact .inl ⟨v, q, rfl, by simp [SessionState.waitPop, h]⟩
  | nil =>
    rcases Nat.eq_zero_or_pos t with ht | ht
    · exact .inr (.inl ⟨rfl, ht, by simp [SessionState.waitPop, h, ht]⟩)
    · exact .inr (.inr ⟨rfl, ht, by simp [SessionState.waitPop, h, Nat.ne_of_gt ht]⟩)

end Sys2Proof.Machine
end

