-- ==== Sys2Proof/Laws/Agents.lean ====
section
/-! SUPPORT. What the shared operations of the agents can do, each said once: the checks of R341, the demultiplexer
commands, the workers, the arbiter, admission, READ_FRAME and the parameters. -/

namespace Sys2Proof.Machine

/-! ### The parameters (R10) -/

/-- The three request codes of every choice are distinct. -/
theorem requestCodeTriple_distinct (k : Fin 24) :
    (Config.requestCodeTriple k).1 ≠ (Config.requestCodeTriple k).2.1 ∧
    (Config.requestCodeTriple k).1 ≠ (Config.requestCodeTriple k).2.2 ∧
    (Config.requestCodeTriple k).2.1 ≠ (Config.requestCodeTriple k).2.2 := by
  revert k
  decide +kernel

/-- Every three distinct codes are those of some choice: the free choice rules out nothing that R10 allows. -/
theorem requestCodeTriple_onto :
    ∀ a b c : BitVec 2, a ≠ b → a ≠ c → b ≠ c → ∃ k, Config.requestCodeTriple k = (a, b, c) := by
  decide +kernel

/-- The machine's parameters are what R10 asks of them. -/
theorem params_legal : Config.params.Legal := by
  obtain ⟨h1, h2, h3⟩ := requestCodeTriple_distinct Config.requestCodes
  exact ⟨h1, h2, h3, Config.tResp.pos, Config.tDrain.pos, Config.tAck.pos, Config.pollInterval.pos,
    Config.joinTimeout.pos⟩

/-- SENDQ_CAP is unbounded (D27). -/
@[simp] theorem sendHasRoom_true (S : SessionState) : S.sendHasRoom = true := rfl

/-- BV_MAX is unbounded (D6). -/
@[simp] theorem overCapacity_false (n : Nat) : overCapacity n = false := rfl

/-! ### Counters (R41, R254) -/

theorem saturate_zero : saturate 0 = 0 := rfl

/-- Counting one more of a saturated number is the saturated next number. -/
theorem inc_saturate (n : Nat) : inc (saturate n) = saturate (n + 1) := by
  simp only [inc, saturate, Config.cntW]
  congr 1
  rw [BitVec.toNat_ofNat, Nat.mod_eq_of_lt (by omega)]
  omega

/-- A counter is the saturated form of its value. -/
theorem saturate_toNat (c : BitVec 16) : saturate c.toNat = c := by
  have := c.isLt
  apply BitVec.eq_of_toNat_eq
  simp only [saturate, Config.cntW, BitVec.toNat_ofNat]
  omega

/-! ### The checks before the first effect (R341) -/

theorem notReady_cases (S : SessionState) :
    (S.session ≠ .opened ∧ S.notReady = some .notOpen) ∨
    (S.session = .opened ∧ S.fault = true ∧ S.notReady = some (.transportError S.faultInfo)) ∨
    (S.session = .opened ∧ S.fault = false ∧ S.notReady = none) := by
  by_cases h : S.session = .opened
  · cases hf : S.fault
    · exact .inr (.inr ⟨h, rfl, by simp [SessionState.notReady, h, hf]⟩)
    · exact .inr (.inl ⟨h, rfl, by simp [SessionState.notReady, h, hf]⟩)
  · exact .inl ⟨h, by simp [SessionState.notReady, h]⟩

/-! ### The demultiplexer commands (R300, R301) -/

theorem demuxWrite_cases (t : ThreadId) (v : Value) (d : Chan) (s : State) :
    (∃ st, s.S.notReady = some st ∧ demuxWrite t v d s = s.takeException t st) ∨
    (s.S.notReady = none ∧ demuxWrite t v d s = (s.withS (s.S.pushSend ⟨v, d⟩)).finish t .none) := by
  simp only [demuxWrite]
  split
  · rename_i st h
    exact .inl ⟨st, h, rfl⟩
  · rename_i h
    exact .inr ⟨h, by simp⟩

theorem demuxWaitStep_cases (t : ThreadId) (src : Chan) (d : Duration) (s : State) :
    (s.S.session ≠ .opened ∧ demuxWaitStep t src d s = s.endCommand t ⟨.nodata, .none⟩) ∨
    (s.S.session = .opened ∧ ∃ v q, s.S.rx src = v :: q ∧
      demuxWaitStep t src d s = (s.withS (s.S.setRx src q)).finish t (.item v)) ∨
    (s.S.session = .opened ∧ s.S.rx src = [] ∧ d = 0 ∧
      demuxWaitStep t src d s = s.endCommand t ⟨.nodata, .none⟩) ∨
    (s.S.session = .opened ∧ s.S.rx src = [] ∧ 0 < d ∧
      demuxWaitStep t src d s = s.setTask t (.demuxWait src d)) := by
  by_cases h : s.S.session = .opened
  · rcases waitPop_cases s.S src d with ⟨v, q, hq, hw⟩ | ⟨hq, hd, hw⟩ | ⟨hq, hd, hw⟩
    · exact .inr (.inl ⟨h, v, q, hq, by simp [demuxWaitStep, h, hw]⟩)
    · exact .inr (.inr (.inl ⟨h, hq, hd, by simp [demuxWaitStep, h, hw]⟩))
    · exact .inr (.inr (.inr ⟨h, hq, hd, by simp [demuxWaitStep, h, hw]⟩))
  · exact .inl ⟨h, by simp [demuxWaitStep, h]⟩

/-! ### The workers (R305, R307) -/

theorem sendwStep_cases (S : SessionState) :
    sendwStep S = S ∨
    (S.wSend = .running ∧ ∃ item, S.stage = some item ∧
      sendwStep S = { S with wrq := S.wrq ++ [item], stage := none }) ∨
    (S.wSend = .running ∧ S.stage = none ∧ ∃ item q, S.sendq = item :: q ∧
      sendwStep S = { S with stage := some item, sendq := q }) ∨
    (S.wSend = .running ∧ S.stage = none ∧ S.sendq = [] ∧ S.stop = true ∧
      sendwStep S = { S with wSend := .exited }) := by
  by_cases hw : S.wSend = .running
  · cases hs : S.stage with
    | some item => exact .inr (.inl ⟨hw, item, rfl, by simp [sendwStep, hw, hs]⟩)
    | none =>
      cases hq : S.sendq with
      | cons item q => exact .inr (.inr (.inl ⟨hw, rfl, item, q, rfl, by simp [sendwStep, hw, hs, hq]⟩))
      | nil =>
        cases hst : S.stop
        · exact .inl (by simp [sendwStep, hw, hs, hq, hst])
        · exact .inr (.inr (.inr ⟨hw, rfl, rfl, rfl, by simp [sendwStep, hw, hs, hq, hst]⟩))
  · exact .inl (by simp [sendwStep, hw])

theorem pollwStep_cases (S : SessionState) :
    pollwStep S = S ∨
    (S.wPoll = .running ∧ S.stop = true ∧ pollwStep S = { S with wPoll := .exited }) ∨
    (S.wPoll = .running ∧ S.stop = false ∧ pollwStep S = { S with readPending := S.readPending + 1 }) := by
  by_cases hw : S.wPoll = .running
  · cases hs : S.stop
    · exact .inr (.inr ⟨hw, rfl, by simp [pollwStep, hw, hs]⟩)
    · exact .inr (.inl ⟨hw, rfl, by simp [pollwStep, hw, hs]⟩)
  · exact .inl (by simp [pollwStep, hw])

/-! ### The arbiter (R309 to R313) -/

theorem commReads_iff (S : SessionState) :
    S.commReads = true ↔ S.wComm = .running ∧ S.wrq = [] ∧ 0 < S.readPending ∧ S.stop = false := by
  simp [SessionState.commReads, and_assoc]

/-- A READ task taken and performed (R309, R311, R312): the queue gains what came and the task is re-armed, or COMM halts. -/
theorem commTakeRead_cases {s : State} (h : s.S.commReads = true) (a : ReadAnswer) :
    (a = .nodata ∧ commTakeRead a s = s.record (.read .nodata)) ∨
    (∃ src v, a = .data src v ∧ commTakeRead a s = (s.withS (s.S.pushRx src v)).record (.read (.data src v))) ∨
    (∃ info, a = .err info ∧ commTakeRead a s =
      (s.withS { s.S with readPending := s.S.readPending - 1, fault := true, faultInfo := some info,
                          wComm := .halted }).record (.read (.err info))) := by
  obtain ⟨-, -, hp, hs⟩ := (commReads_iff _).mp h
  have again : ∀ S : SessionState, S.stop = false → S.readPending = s.S.readPending - 1 →
      rearm S = { S with readPending := s.S.readPending } := by
    intro S hS hr
    rw [rearm, if_neg (by simp [hS]), hr, Nat.sub_add_cancel hp]
  cases a with
  | nodata =>
    exact .inl ⟨rfl, congrArg (fun S => (s.withS S).record (.read .nodata))
      (again { s.S with readPending := s.S.readPending - 1 } hs rfl)⟩
  | data src v =>
    exact .inr (.inl ⟨src, v, rfl, congrArg (fun S => (s.withS S).record (.read (.data src v)))
      (again (({ s.S with readPending := s.S.readPending - 1 } : SessionState).pushRx src v) hs rfl)⟩)
  | err info => exact .inr (.inr ⟨info, rfl, rfl⟩)

theorem commStep_cases (onWrite : WriteAnswer) (onRead : ReadAnswer) (s : State) :
    commStep onWrite onRead s = s ∨
    (s.S.wComm = .running ∧ ∃ item rest, s.S.wrq = item :: rest ∧
      ((onWrite = .ok ∧ commStep onWrite onRead s =
          (s.withS { s.S with wrq := rest }).record (.wrote item .ok)) ∨
       (∃ info, onWrite = .err info ∧ commStep onWrite onRead s =
          (s.withS { s.S with wrq := rest, fault := true, faultInfo := some info, wComm := .halted }).record
            (.wrote item (.err info))))) ∨
    (s.S.commReads = true ∧ commStep onWrite onRead s = commTakeRead onRead s) ∨
    (s.S.wComm = .running ∧ s.S.wrq = [] ∧ s.S.stop = true ∧ s.S.wSend = .exited ∧
      commStep onWrite onRead s = s.withS { s.S with wComm := .exited }) := by
  by_cases hw : s.S.wComm = .running
  · cases hq : s.S.wrq with
    | cons item rest =>
      refine .inr (.inl ⟨hw, item, rest, rfl, ?_⟩)
      cases onWrite with
      | ok => exact .inl ⟨rfl, by simp [commStep, hw, hq, commWrite]⟩
      | err info => exact .inr ⟨info, rfl, by simp [commStep, hw, hq, commWrite, transportFault, State.withS]⟩
    | nil =>
      cases hr : s.S.commReads
      · by_cases he : s.S.stop = true ∧ s.S.wSend = .exited
        · exact .inr (.inr (.inr ⟨hw, rfl, he.1, he.2, by simp [commStep, hw, hq, hr, he.1, he.2]⟩))
        · exact .inl (by simp [commStep, hw, hq, hr]; exact fun a b => absurd ⟨a, b⟩ he)
      · exact .inr (.inr (.inl ⟨rfl, by simp [commStep, hw, hq, hr]⟩))
  · exact .inl (by simp [commStep, hw])

/-- A Downlink word changes nothing, or is the WRITE of the head of S.wrq, answered `ok` (R310). -/
theorem downlinkCrosses_cases (w : BitVec 40) (s : State) :
    downlinkCrosses w s = s ∨
    (s.S.wComm = .running ∧ ∃ dest rest, s.S.wrq = ⟨.bytes (bytesOfDown w), dest⟩ :: rest ∧
      downlinkCrosses w s = (s.withS { s.S with wrq := rest }).record (.wrote ⟨.bytes (bytesOfDown w), dest⟩ .ok)) := by
  simp only [downlinkCrosses]
  split
  · rename_i h
    simp only [SessionState.commWrites, Bool.and_eq_true, beq_iff_eq] at h
    obtain ⟨hw, hv⟩ := h
    cases hq : s.S.wrq with
    | nil => simp [hq] at hv
    | cons item rest =>
      simp only [hq, List.head?_cons, Option.map_some, Option.some.injEq] at hv
      obtain ⟨value, dest⟩ := item
      simp only at hv
      subst hv
      exact .inr ⟨hw, dest, rest, rfl, by simp [commStep, hw, hq, commWrite]⟩
  · exact .inl rfl

/-- An uplink word changes nothing, or is what a READ of COMM returns on CTRL_SRC (R311). -/
theorem uplinkCrosses_cases (w : BitVec 24) (s : State) :
    uplinkCrosses w s = s ∨
    (s.S.commReads = true ∧ uplinkCrosses w s =
      (s.withS (s.S.pushRx Config.params.ctrlSrc (.bytes (bytesOfUp w)))).record
        (.read (.data Config.params.ctrlSrc (.bytes (bytesOfUp w))))) := by
  simp only [uplinkCrosses]
  split
  · rename_i h
    rcases commTakeRead_cases h (.data Config.params.ctrlSrc (.bytes (bytesOfUp w))) with ⟨h', -⟩ | ⟨src, v, h', e⟩ | ⟨i, h', -⟩
    · cases h'
    · cases h'
      exact .inr ⟨h, e⟩
    · cases h'
  · exact .inl rfl

/-- The bytes of a 40-bit word hold its bits. -/
theorem bitsOfBytes_bytesOfDown (w : BitVec 40) : bitsOfBytes (bytesOfDown w) = bits 40 w.toNat :=
  bitsOfBytes_bytesOfBits _ _ (by simp)

/-- The bytes of a 24-bit word hold its bits. -/
theorem bitsOfBytes_bytesOfUp (w : BitVec 24) : bitsOfBytes (bytesOfUp w) = bits 24 w.toNat :=
  bitsOfBytes_bytesOfBits _ _ (by simp)

/-! ### Session and admission (R241, R244) -/

theorem closeBegin_cases (t : ThreadId) (s : State) :
    (s.S.session ≠ .opened ∧ closeBegin t s = s.takeException t .notOpen) ∨
    (s.S.session = .opened ∧ s.S.rapPhase = .idle ∧
      closeBegin t s = (s.withS { s.S with rapPhase := .closing }).setTask t .closeStop) ∨
    (s.S.session = .opened ∧ s.S.rapPhase ≠ .idle ∧ closeBegin t s = s.setTask t .closeWait) := by
  by_cases h : s.S.session = .opened
  · by_cases hp : s.S.rapPhase = .idle
    · exact .inr (.inl ⟨h, hp, by simp [closeBegin, h, hp]⟩)
    · exact .inr (.inr ⟨h, hp, by simp [closeBegin, h, hp]⟩)
  · exact .inl ⟨h, by simp [closeBegin, h]⟩

theorem rapBegin_cases (t : ThreadId) (phase : RapPhase) (waiting running : Task) (s : State) :
    (∃ st, s.S.notReady = some st ∧ rapBegin t phase waiting running s = s.takeException t st) ∨
    (s.S.notReady = none ∧ s.S.rapPhase = .idle ∧
      rapBegin t phase waiting running s = (s.withS { s.S with rapPhase := phase }).setTask t running) ∨
    (s.S.notReady = none ∧ s.S.rapPhase ≠ .idle ∧ rapBegin t phase waiting running s = s.setTask t waiting) := by
  cases h : s.S.notReady with
  | some st => exact .inl ⟨st, rfl, by simp [rapBegin, h]⟩
  | none =>
    by_cases hp : s.S.rapPhase = .idle
    · exact .inr (.inl ⟨rfl, hp, by simp [rapBegin, h, hp]⟩)
    · exact .inr (.inr ⟨rfl, hp, by simp [rapBegin, h, hp]⟩)

/-- The stop step marks the command of every thread, and moves none (R315). -/
theorem assocGet_endWaits (t : ThreadId) (threads : List (ThreadId × Task)) :
    assocGet t (endWaits threads) = (assocGet t threads).map Task.sessionLeft := by
  induction threads with
  | nil => rfl
  | cons e es ih =>
    simp only [endWaits, List.map_cons, assocGet] at *
    split <;> simp_all

/-- The stop step keeps the canonical form of the commands in progress. -/
theorem assocWf_endWaits {threads : List (ThreadId × Task)} (h : assocWf threads = true) :
    assocWf (endWaits threads) = true := by
  induction threads with
  | nil => rfl
  | cons e es ih =>
    simp only [endWaits, List.map_cons, assocWf, Bool.and_eq_true, List.all_eq_true, decide_eq_true_eq,
      List.mem_map] at *
    refine ⟨?_, ih h.2⟩
    rintro f ⟨g, hg, rfl⟩
    exact h.1 g hg

/-- The stop step (R315) in every other thread. -/
theorem shutdownStop_taskOf_other (s : State) {t t' : ThreadId} (h : t' ≠ t) :
    (shutdownStop t s).taskOf t' = (s.taskOf t').map Task.sessionLeft := by
  rw [shutdownStop, setTask_taskOf_other _ h]
  exact assocGet_endWaits ..

/-! ### READ_FRAME (R252) -/

/-- Counting touches three counters. -/
theorem countFrame_touches (P : Config.Params) (k : CtrlKind) (f : RxFrame) (S : SessionState) :
    ∃ a n b, countFrame P k f S = { S with cAck := a, cNack := n, cCrcBad := b } := by
  simp only [countFrame]
  split
  · exact ⟨S.cAck, S.cNack, _, rfl⟩
  · cases k
    · dsimp only
      split
      · exact ⟨_, _, S.cCrcBad, rfl⟩
      · exact ⟨_, S.cNack, S.cCrcBad, rfl⟩
    · exact ⟨S.cAck, S.cNack, S.cCrcBad, rfl⟩

/-- Accepting a value touches the pending buffers and five counters. -/
theorem acceptValue_touches (P : Config.Params) (kind : CtrlKind) (x : Value) (S : SessionState) :
    ∃ pa pr a n b h u, (acceptValue P kind x S).2 =
      { S with pendAck := pa, pendRd := pr, cAck := a, cNack := n, cCrcBad := b, cHit := h, cUnknown := u } := by
  have take : ∀ k f, ∃ pa pr a n b h u, (takeFrame P kind k f S).2 =
      { S with pendAck := pa, pendRd := pr, cAck := a, cNack := n, cCrcBad := b, cHit := h, cUnknown := u } := by
    intro k f
    obtain ⟨a, n, b, e⟩ := countFrame_touches P k f S
    simp only [takeFrame, e]
    split
    · exact ⟨S.pendAck, S.pendRd, a, n, b, S.cHit, S.cUnknown, rfl⟩
    · cases k
      · exact ⟨_, S.pendRd, a, n, b, S.cHit, S.cUnknown, rfl⟩
      · exact ⟨S.pendAck, _, a, n, b, S.cHit, S.cUnknown, rfl⟩
  have unknown : ∃ pa pr a n b h u, ({ S with cUnknown := inc S.cUnknown } : SessionState) =
      { S with pendAck := pa, pendRd := pr, cAck := a, cNack := n, cCrcBad := b, cHit := h, cUnknown := u } :=
    ⟨S.pendAck, S.pendRd, S.cAck, S.cNack, S.cCrcBad, S.cHit, _, rfl⟩
  have hit : ∃ pa pr a n b h u, ({ S with cHit := inc S.cHit } : SessionState) =
      { S with pendAck := pa, pendRd := pr, cAck := a, cNack := n, cCrcBad := b, cHit := h, cUnknown := u } :=
    ⟨S.pendAck, S.pendRd, S.cAck, S.cNack, S.cCrcBad, _, S.cUnknown, rfl⟩
  cases x with
  | other n => exact unknown
  | bytes b =>
    simp only [acceptValue]
    split
    · exact unknown
    · exact hit
    · exact take ..
    · exact take ..
    · exact unknown
    · exact unknown
    · exact unknown

/-- Accepting a value never ends with NODATA or an exception. -/
theorem acceptValue_out (P : Config.Params) (kind : CtrlKind) (x : Value) (S : SessionState) :
    (acceptValue P kind x S).1 = .more .check ∨ ∃ f, (acceptValue P kind x S).1 = .frame f := by
  have take : ∀ k f, (takeFrame P kind k f S).1 = .more .check ∨ ∃ g, (takeFrame P kind k f S).1 = .frame g := by
    intro k f
    simp only [takeFrame]
    split
    · exact .inr ⟨f, rfl⟩
    · exact .inl rfl
  cases x with
  | other n => exact .inl rfl
  | bytes b =>
    simp only [acceptValue]
    split
    · exact .inl rfl
    · exact .inl rfl
    · exact take ..
    · exact take ..
    · exact .inl rfl
    · exact .inl rfl
    · exact .inl rfl

/-- One step of READ_FRAME touches the pending buffers and five counters, and may pop the head of S.rxq[CTRL_SRC]. -/
theorem readFrameStep_touches (P : Config.Params) (kind : CtrlKind) (d : Duration) (pc : FramePc) (S : SessionState) :
    (∃ pa pr a n b h u, (readFrameStep P kind d pc S).2 =
      { S with pendAck := pa, pendRd := pr, cAck := a, cNack := n, cCrcBad := b, cHit := h, cUnknown := u }) ∨
    (∃ x q, S.rx P.ctrlSrc = x :: q ∧ readFrameStep P kind d pc S = (.more (.got x), S.setRx P.ctrlSrc q)) := by
  have same : ∃ pa pr a n b h u, S =
      { S with pendAck := pa, pendRd := pr, cAck := a, cNack := n, cCrcBad := b, cHit := h, cUnknown := u } :=
    ⟨S.pendAck, S.pendRd, S.cAck, S.cNack, S.cCrcBad, S.cHit, S.cUnknown, rfl⟩
  cases pc with
  | start =>
    refine .inl ?_
    simp only [readFrameStep]
    split
    · cases kind
      · exact ⟨_, S.pendRd, S.cAck, S.cNack, S.cCrcBad, S.cHit, S.cUnknown, rfl⟩
      · exact ⟨S.pendAck, _, S.cAck, S.cNack, S.cCrcBad, S.cHit, S.cUnknown, rfl⟩
    · exact same
  | check =>
    refine .inl ?_
    simp only [readFrameStep]
    split <;> exact same
  | wait =>
    rcases waitPop_cases S P.ctrlSrc d with ⟨v, q, hq, hw⟩ | ⟨hq, hd, hw⟩ | ⟨hq, hd, hw⟩
    · exact .inr ⟨v, q, hq, by simp [readFrameStep, hw]⟩
    · exact .inl (by simpa [readFrameStep, hw] using same)
    · exact .inl (by simpa [readFrameStep, hw] using same)
  | got x => exact .inl (acceptValue_touches ..)

/-- The only exception of READ_FRAME is TRANSPORT_ERROR. -/
theorem readFrameStep_raised {P : Config.Params} {kind : CtrlKind} {d : Duration} {pc : FramePc} {S : SessionState}
    {st : Status} (h : (readFrameStep P kind d pc S).1 = .raised st) :
    S.fault = true ∧ st = .transportError S.faultInfo ∧ (readFrameStep P kind d pc S).2 = S := by
  cases pc with
  | start => simp only [readFrameStep] at h; split at h <;> cases h
  | check =>
    simp only [readFrameStep] at h ⊢
    split at h
    · rename_i hf
      cases h
      simp [hf]
    · cases h
  | wait => simp only [readFrameStep] at h; split at h <;> cases h
  | got x =>
    rcases acceptValue_out P kind x S with e | ⟨f, e⟩ <;> rw [readFrameStep, e] at h <;> cases h

/-- The timeout of READ_FRAME ends it with NODATA or changes nothing. -/
theorem readFrameTimeout_cases (P : Config.Params) (pc : FramePc) (S : SessionState) :
    readFrameTimeout P pc S = (.more pc, S) ∨
    (pc = .wait ∧ S.rx P.ctrlSrc = [] ∧ readFrameTimeout P pc S = (.nodata, S)) := by
  cases pc with
  | start => exact .inl rfl
  | check => exact .inl rfl
  | wait =>
    cases h : S.rx P.ctrlSrc with
    | nil => exact .inr ⟨rfl, rfl, by simp [readFrameTimeout, h]⟩
    | cons x q => exact .inl (by simp [readFrameTimeout, h])
  | got x => exact .inl rfl

/-! ### The guard and KEEP (R257, R258) -/

/-- GUARD: one length, and equal numbers at every position (R258). -/
theorem guardHolds_iff (exp : List (BitVec 3)) (ret : List (BitVec 3 × BitVec 15)) :
    guardHolds exp ret = true ↔ exp.length = ret.length ∧ ∀ i : Nat, exp[i]? = (ret[i]?).map Prod.fst := by
  simp only [guardHolds, beq_iff_eq]
  constructor
  · rintro rfl
    simp
  · rintro ⟨-, h⟩
    exact List.ext_getElem? (fun i => by simp [h])

/-- The pair of a ReadData frame (R257): its number and its data. -/
theorem readPair_rd (d : BitVec 15) (q : BitVec 3) (c : Option Nat) :
    readPair ⟨.rd, [d.toNat, q.toNat], c⟩ = (q, d) := by
  change (BitVec.ofNat 3 q.toNat, BitVec.ofNat 15 d.toNat) = (q, d)
  simp

/-- KEEP of a ReadData frame (R257, R260): appended when CRC-valid, discarded otherwise. -/
theorem keep_rd (S : SessionState) (d : BitVec 15) (q : BitVec 3) (c : Option Nat) (ok : Bool) :
    S.keep ⟨⟨.rd, [d.toNat, q.toNat], c⟩, ok⟩ = if ok then { S with ret := S.ret ++ [(q, d)] } else S := by
  cases ok
  · rfl
  · simp [SessionState.keep, readPair_rd]

/-! ### Taking an instruction -/

/-- What a step is, by the next choice. -/
theorem stepWith_nil {P : Config.Params} {s : State} (h : s.inputs = []) : stepWith P s = .next s := by
  simp [stepWith, h]

theorem stepWith_cons {P : Config.Params} {s : State} {i : Input} {rest : List Input} (h : s.inputs = i :: rest) :
    stepWith P s = stepInput P i { s with inputs := rest } := by
  simp [stepWith, h]

end Sys2Proof.Machine
end

