-- ==== Sys2Proof/Laws/Moves.lean ====
section
/-! SUPPORT. What one step can do to the session state and to the transport port, said once: every step is one of the
moves below (R9, R14, R293). -/

namespace Sys2Proof.Machine

/-- The moves of the session state and the port history from `s` under the choice `i`. -/
inductive Move (P : Config.Params) (s : State) (i : Input) : SessionState → List TpEvent → Prop
  /-- A step inside a transaction, or no change: the phase, the transaction registers, the pending buffers, the counters. -/
  | transaction (phase exp ret res pa pr req mat n a b h u) :
      Move P s i { s.S with rapPhase := phase, exp := exp, ret := ret, res := res, pendAck := pa, pendRd := pr,
                            cReq := req, cMatched := mat, cNack := n, cAck := a, cCrcBad := b, cHit := h,
                            cUnknown := u } s.wire
  /-- A WaitPop takes the head of a receive queue (R15). -/
  | pop (src x q) (hq : s.S.rx src = x :: q) : Move P s i (s.S.setRx src q) s.wire
  /-- A push to S.sendq (R251, R300). -/
  | push (item exp) : Move P s i { s.S with sendq := s.S.sendq ++ [item], exp := exp } s.wire
  /-- SEQ_NEXT by a RAP command (R246). -/
  | draw (t) (hi : i = .advance t)
      (ht : (∃ rt payload frames, s.taskOf t = some (.write (.draw rt payload frames))) ∨
        ∃ n al a addrs, s.taskOf t = some (.read n al (.draw a addrs))) :
      Move P s i { s.S with seq := s.S.seq + 1 } s.wire
  /-- The stop step of a close (R315). -/
  | stop (t) (hi : i = .advance t) (ht : s.taskOf t = some .closeStop) :
      Move P s i { s.S with stop := true, session := .stopping, readPending := 0 } s.wire
  /-- RST, or the end of a close (R360, R316). -/
  | reset (hi : i = .rst ∨ ∃ t, s.taskOf t = some .closeJoin ∧ (i = .advance t ∨ i = .timeout t)) :
      Move P s i SessionState.reset s.wire
  /-- SESSION_OPEN, issued in CLOSED by an idle thread (R242). -/
  | opening (t code ops a) (hi : i = .issue t code ops ∨ i = .issueApart t code ops) (ht : s.taskOf t = none)
      (hd : decode (.command code ops) = .ok (.sessionOpen a)) (ha : a < 16) (hs : s.S.session = .closed) :
      Move P s i (SessionState.atOpen (BitVec.ofNat 4 a)) s.wire
  /-- SENDW (R305). -/
  | sendw (hi : i = .sendw) : Move P s i (sendwStep s.S) s.wire
  /-- POLLW (R307). -/
  | pollw (hi : i = .pollw) : Move P s i (pollwStep s.S) s.wire
  /-- COMM's TP_Write, answered `ok` (R310). -/
  | write (item rest) (hi : (∃ x y, i = .comm x y) ∨ ∃ w, i = .down w) (hw : s.S.wComm = .running)
      (hq : s.S.wrq = item :: rest) :
      Move P s i { s.S with wrq := rest } (s.wire ++ [.wrote item .ok])
  /-- COMM's TP_Write, answered by an error (R310, R313). -/
  | writeFault (item rest info) (hi : ∃ x y, i = .comm x y) (hw : s.S.wComm = .running)
      (hq : s.S.wrq = item :: rest) :
      Move P s i { s.S with wrq := rest, fault := true, faultInfo := some info, wComm := .halted }
        (s.wire ++ [.wrote item (.err info)])
  /-- COMM's TP_Read, answered `nodata` (R311). -/
  | readNothing (hi : ∃ x y, i = .comm x y) (hr : s.S.commReads = true) :
      Move P s i s.S (s.wire ++ [.read .nodata])
  /-- COMM's TP_Read of a value (R311). -/
  | readValue (src v) (hi : (∃ x y, i = .comm x y) ∨ ∃ w, i = .up w) (hr : s.S.commReads = true) :
      Move P s i (s.S.pushRx src v) (s.wire ++ [.read (.data src v)])
  /-- COMM's TP_Read, answered by an error (R311, R313). -/
  | readFault (info) (hi : ∃ x y, i = .comm x y) (hr : s.S.commReads = true) :
      Move P s i { s.S with readPending := s.S.readPending - 1, fault := true, faultInfo := some info,
                            wComm := .halted } (s.wire ++ [.read (.err info)])
  /-- COMM exits (R309). -/
  | commExit (hi : ∃ x y, i = .comm x y) (hw : s.S.wComm = .running) (hq : s.S.wrq = []) (hs : s.S.stop = true)
      (he : s.S.wSend = .exited) :
      Move P s i { s.S with wComm := .exited } s.wire

/-- A command is never a frame word. -/
theorem decode_command_not_frame {code : BitVec 8} {ops : List Operand} {i : Instr}
    (h : decode (.command code ops) = .ok i) :
    (∀ a q rt p c, i ≠ .frameDl40 a q rt p c) ∧ (∀ k q cp ta sa se oe ts c, i ≠ .frameAck24 k q cp ta sa se oe ts c) ∧
    (∀ d q c, i ≠ .frameRd24 d q c) ∧ ∀ r, i ≠ .frameHit24 r := by
  simp only [decode, decodeCommand] at h
  split at h
  · cases h
  · split at h
    · split at h
      · rename_i ho
        cases h
        revert ho
        unfold decodeOperands
        split <;> intro ho <;> cases ho <;> simp
      · cases h
    · cases h

section
variable {P : Config.Params} {s : State} {i : Input}

/-- No change is a move. -/
theorem Move.same : Move P s i s.S s.wire :=
  .transaction s.S.rapPhase s.S.exp s.S.ret s.S.res s.S.pendAck s.S.pendRd s.S.cReq s.S.cMatched s.S.cNack s.S.cAck
    s.S.cCrcBad s.S.cHit s.S.cUnknown

/-- A change of the phase alone is a move. -/
theorem Move.phase (p : RapPhase) : Move P s i { s.S with rapPhase := p } s.wire :=
  .transaction p s.S.exp s.S.ret s.S.res s.S.pendAck s.S.pendRd s.S.cReq s.S.cMatched s.S.cNack s.S.cAck
    s.S.cCrcBad s.S.cHit s.S.cUnknown

/-- The counters at 0 (R241) is a move. -/
theorem Move.counters : Move P s i s.S.clearCounters s.wire :=
  .transaction s.S.rapPhase s.S.exp s.S.ret s.S.res s.S.pendAck s.S.pendRd 0 0 0 0 0 0 0

/-- The transaction registers emptied (R241) is a move. -/
theorem Move.lists : Move P s i s.S.clearLists s.wire :=
  .transaction s.S.rapPhase [] [] [] s.S.pendAck s.S.pendRd s.S.cReq s.S.cMatched s.S.cNack s.S.cAck
    s.S.cCrcBad s.S.cHit s.S.cUnknown

/-- The end of a command with the session state otherwise as it was is a move. -/
theorem Move.ended (t : ThreadId) (r : Response) : Move P s i (s.endCommand t r).S (s.endCommand t r).wire := by
  simp only [endCommand_S, endCommand_wire, State.phaseAfter]
  split
  · split
    · exact .phase _
    · exact .same
  · exact .same

/-- READ_FRAME's touch with a change of S.ret is a move. -/
theorem Move.frame {pa pr a n b h u} (S' : SessionState) (e : S' =
      { s.S with pendAck := pa, pendRd := pr, cAck := a, cNack := n, cCrcBad := b, cHit := h, cUnknown := u })
    (ret) : Move P s i { S' with ret := ret } s.wire := by
  subst e
  exact .transaction s.S.rapPhase s.S.exp ret s.S.res pa pr s.S.cReq s.S.cMatched n a b h u

/-- READ_FRAME's touch is a move. -/
theorem Move.touched {pa pr a n b h u} (S' : SessionState) (e : S' =
      { s.S with pendAck := pa, pendRd := pr, cAck := a, cNack := n, cCrcBad := b, cHit := h, cUnknown := u }) :
    Move P s i S' s.wire := by
  subst e
  exact .transaction s.S.rapPhase s.S.exp s.S.ret s.S.res pa pr s.S.cReq s.S.cMatched n a b h u

/-- The step of a command in progress in a thread is a move. -/
theorem taskStep_move {t : ThreadId} {task : Task} (ht : s.taskOf t = some task) :
    Move P s (.advance t) (taskStep P t task s).S (taskStep P t task s).wire := by
  have frame : ∀ kind d pc,
      (∃ pa pr a n b h u, (readFrameStep P kind d pc s.S).2 =
        { s.S with pendAck := pa, pendRd := pr, cAck := a, cNack := n, cCrcBad := b, cHit := h, cUnknown := u }) ∨
      (∃ x q, s.S.rx P.ctrlSrc = x :: q ∧ readFrameStep P kind d pc s.S = (.more (.got x), s.S.setRx P.ctrlSrc q)) :=
    fun kind d pc => readFrameStep_touches P kind d pc s.S
  have begin : ∀ phase waiting running,
      Move P s (.advance t) (rapBegin t phase waiting running s).S (rapBegin t phase waiting running s).wire := by
    intro phase waiting running
    rcases rapBegin_cases t phase waiting running s with ⟨st, -, e⟩ | ⟨-, -, e⟩ | ⟨-, -, e⟩ <;> rw [e]
    · exact .ended ..
    · exact .phase _
    · exact .same
  cases task with
  | apart c =>
    simp only [taskStep, apartStep]
    split
    · exact .ended ..
    · cases c <;> exact .same
  | admitEnded =>
    simp only [taskStep]
    split
    · exact .ended ..
    · exact .same
  | admitWrite ops =>
    simp only [taskStep, writeBegin]
    split
    · exact begin ..
    · exact .same
  | admitRead addrs al =>
    simp only [taskStep, readBegin]
    split
    · exact begin ..
    · exact .same
  | write pc =>
    simp only [taskStep]
    cases pc with
    | counters frames => exact .counters
    | lists frames => exact .lists
    | send frames =>
      cases frames with
      | nil => exact .phase _
      | cons f frames =>
        simp only [writeStep]
        split
        · exact .ended ..
        · exact .same
    | draw rt payload frames => exact .draw t rfl (.inl ⟨_, _, _, ht⟩)
    | push q rt payload frames =>
      simp only [writeStep]
      split
      · exact .ended ..
      · exact .push _ s.S.exp
    | drain pc =>
      simp only [writeStep]
      rcases frame .ack P.tAck pc with ⟨pa, pr, a, n, b, h, u, e⟩ | ⟨x, q, hq, e⟩
      · simp only [writeDrain]
        split
        · exact .touched _ e
        · exact .touched _ e
        · exact .touched _ e
        · rename_i hr
          rw [(readFrameStep_raised hr).2.2]
          exact .ended ..
      · rw [e]
        exact .pop _ _ _ hq
    | ret => exact .ended ..
  | read n al pc =>
    simp only [taskStep]
    cases pc with
    | counters addrs => exact .counters
    | lists addrs => exact .lists
    | send addrs =>
      cases addrs with
      | nil => exact .phase _
      | cons a addrs =>
        simp only [readStep]
        split
        · exact .ended ..
        · exact .same
    | draw a addrs => exact .draw t rfl (.inr ⟨_, _, _, _, ht⟩)
    | push q a addrs =>
      simp only [readStep]
      split
      · exact .ended ..
      · exact .push ..
    | count addrs =>
      exact .transaction s.S.rapPhase s.S.exp s.S.ret s.S.res s.S.pendAck s.S.pendRd _ s.S.cMatched s.S.cNack s.S.cAck
        s.S.cCrcBad s.S.cHit s.S.cUnknown
    | collect left pc =>
      simp only [readStep]
      rcases frame .rd P.tResp pc with ⟨pa, pr, a, n, b, h, u, e⟩ | ⟨x, q, hq, e⟩
      · simp only [readCollect]
        split
        · exact .touched _ e
        · simp only [SessionState.keep]
          split
          · exact .frame _ e _
          · exact .touched _ e
        · exact .touched _ e
        · rename_i hr
          rw [(readFrameStep_raised hr).2.2]
          exact .ended ..
      · rw [e]
        exact .pop _ _ _ hq
    | guardFirst => exact .same
    | drainRd pc =>
      simp only [readStep]
      rcases frame .rd P.tDrain pc with ⟨pa, pr, a, n, b, h, u, e⟩ | ⟨x, q, hq, e⟩
      · simp only [readDrainRd]
        split
        · exact .touched _ e
        · simp only [SessionState.keep]
          split
          · exact .frame _ e _
          · exact .touched _ e
        · exact .touched _ e
        · rename_i hr
          rw [(readFrameStep_raised hr).2.2]
          exact .ended ..
      · rw [e]
        exact .pop _ _ _ hq
    | toDrainAck => exact .phase _
    | drainAck pc =>
      simp only [readStep]
      rcases frame .ack P.tAck pc with ⟨pa, pr, a, n, b, h, u, e⟩ | ⟨x, q, hq, e⟩
      · simp only [readDrainAck]
        split
        · exact .touched _ e
        · exact .touched _ e
        · exact .touched _ e
        · rename_i hr
          rw [(readFrameStep_raised hr).2.2]
          exact .ended ..
      · rw [e]
        exact .pop _ _ _ hq
    | guardAgain => exact .same
    | toDrainRd => exact .phase _
    | stepFive =>
      simp only [readStep]
      split
      · exact .phase _
      · exact .ended ..
    | align => exact .same
    | fill m =>
      cases m with
      | nil => exact .ended ..
      | cons m ms =>
        cases m with
        | none =>
          exact .transaction s.S.rapPhase s.S.exp s.S.ret _ s.S.pendAck s.S.pendRd s.S.cReq s.S.cMatched s.S.cNack
            s.S.cAck s.S.cCrcBad s.S.cHit s.S.cUnknown
        | some j =>
          exact .transaction s.S.rapPhase s.S.exp s.S.ret _ s.S.pendAck s.S.pendRd s.S.cReq _ s.S.cNack s.S.cAck
            s.S.cCrcBad s.S.cHit s.S.cUnknown
    | fast =>
      exact .transaction s.S.rapPhase s.S.exp s.S.ret _ s.S.pendAck s.S.pendRd s.S.cReq _ s.S.cNack s.S.cAck
        s.S.cCrcBad s.S.cHit s.S.cUnknown
    | ret => exact .ended ..
  | closeWait =>
    simp only [taskStep]
    split
    · rcases closeBegin_cases t s with ⟨-, e⟩ | ⟨-, -, e⟩ | ⟨-, -, e⟩ <;> rw [e]
      · exact .ended ..
      · exact .phase _
      · exact .same
    · exact .same
  | closeEnded => exact .ended ..
  | closeStop => exact .stop t rfl ht
  | closeJoin =>
    simp only [taskStep]
    split
    · exact .reset (.inr ⟨t, ht, .inl rfl⟩)
    · exact .same
  | closeRet st => exact .ended ..
  | demuxWait src d =>
    simp only [taskStep]
    rcases demuxWaitStep_cases t src d s with ⟨-, e⟩ | ⟨-, v, q, hq, e⟩ | ⟨-, -, -, e⟩ | ⟨-, -, -, e⟩ <;> rw [e]
    · exact .ended ..
    · rw [State.finish, endCommand_S, phaseAfter_of_task (task := .demuxWait src d) (by simpa using ht)]
      exact .pop _ _ _ hq
    · exact .ended ..
    · exact .same
  | demuxEnded => exact .ended ..
  | demuxRoom v d =>
    simp only [taskStep]
    rcases demuxWrite_cases t v d s with ⟨st, -, e⟩ | ⟨-, e⟩ <;> rw [e]
    · exact .ended ..
    · rw [State.finish, endCommand_S, phaseAfter_of_task (task := .demuxRoom v d) (by simpa using ht)]
      exact .push _ s.S.exp

/-- The timeout of a command in progress is a move. -/
theorem taskTimeout_move {t : ThreadId} {task : Task} (ht : s.taskOf t = some task) :
    Move P s (.timeout t) (taskTimeout P t task s).S (taskTimeout P t task s).wire := by
  unfold taskTimeout
  split
  · rename_i pc
    rcases readFrameTimeout_cases P pc s.S with e | ⟨-, -, e⟩ <;> rw [e] <;> exact .same
  · rename_i pc
    rcases readFrameTimeout_cases P pc s.S with e | ⟨-, -, e⟩ <;> rw [e] <;> exact .same
  · rename_i pc
    rcases readFrameTimeout_cases P pc s.S with e | ⟨-, -, e⟩ <;> rw [e] <;> exact .same
  · rename_i pc
    rcases readFrameTimeout_cases P pc s.S with e | ⟨-, -, e⟩ <;> rw [e] <;> exact .same
  · split
    · exact .same
    · exact .reset (.inr ⟨t, ht, .inr rfl⟩)
  · simp only [demuxTimeout]
    split
    · exact .ended ..
    · exact .same
  · exact .same

/-- A command executed in an idle thread is a move. -/
theorem exec_command_move {t : ThreadId} {code : BitVec 8} {ops : List Operand} {instr : Instr} {s' : State}
    (hi : i = .issue t code ops ∨ i = .issueApart t code ops)
    (hidle : ({ s with caller := t } : State).taskOf t = none) (hd : decode (.command code ops) = .ok instr)
    (h : exec instr { s with caller := t } = .next s') : Move P s i s'.S s'.wire := by
  have ended : ∀ r, Move P s i (({ s with caller := t } : State).endCommand t r).S s.wire := by
    intro r
    rw [endCommand_idle hidle]
    exact .same
  have pure : ∀ r, ({ s with caller := t } : State).answerPure r = .next s' → Move P s i s'.S s'.wire := by
    intro r h
    rw [answerPure_idle (s := { s with caller := t }) hidle] at h
    cases h
    exact .same
  have begin : ∀ phase waiting running,
      Move P s i (rapBegin t phase waiting running { s with caller := t }).S
        (rapBegin t phase waiting running { s with caller := t }).wire := by
    intro phase waiting running
    rcases rapBegin_cases t phase waiting running { s with caller := t } with ⟨st, -, e⟩ | ⟨-, -, e⟩ | ⟨-, -, e⟩ <;>
      rw [e]
    · exact ended _
    · exact .phase _
    · exact .same
  have hnot := decode_command_not_frame hd
  cases instr with
  | bvFromValue v n =>
    simp only [exec, execBvFromValue] at h
    exact pure _ h
  | bvToValue v =>
    simp only [exec, execBvToValue] at h
    exact pure _ h
  | bvFromBytes b =>
    simp only [exec, execBvFromBytes] at h
    exact pure _ h
  | bvToBytes v =>
    simp only [exec, execBvToBytes] at h
    exact pure _ h
  | bvAppendRight a b =>
    simp only [exec, execBvAppendRight] at h
    exact pure _ h
  | bvAppendLeft a b =>
    simp only [exec, execBvAppendLeft] at h
    exact pure _ h
  | bvPopLeft v k =>
    simp only [exec, execBvPopLeft] at h
    exact pure _ h
  | bvPopRight v k =>
    simp only [exec, execBvPopRight] at h
    exact pure _ h
  | bvConcat a b =>
    simp only [exec, execBvConcat] at h
    exact pure _ h
  | bvReverse v =>
    simp only [exec, execBvReverse] at h
    exact pure _ h
  | bvEq a b =>
    simp only [exec, execBvEq] at h
    exact pure _ h
  | bvLen v =>
    simp only [exec, execBvLen] at h
    exact pure _ h
  | polyNew v d r =>
    simp only [exec, execPolyNew] at h
    exact pure _ h
  | polyToRepr p r =>
    simp only [exec, execPolyToRepr] at h
    exact pure _ h
  | crc d p i =>
    simp only [exec, execCrc] at h
    exact pure _ h
  | frameBuild c r =>
    simp only [exec, execFrameBuild] at h
    exact pure _ h
  | frameBuildCrc c r k =>
    simp only [exec, execFrameBuildCrc] at h
    exact pure _ h
  | frameEncode f =>
    simp only [exec, execFrameEncode] at h
    exact pure _ h
  | frameDecode c v =>
    simp only [exec, execFrameDecode] at h
    split at h
    · exact pure _ h
    · split at h
      · exact pure _ h
      · cases h
        exact ended _
      · exact pure _ h
  | frameCrcOk f =>
    simp only [exec, execFrameCrcOk] at h
    exact pure _ h
  | uplinkResolve b =>
    simp only [exec, execUplinkResolve] at h
    exact pure _ h
  | sessionOpen a =>
    simp only [exec, execSessionOpen] at h
    split at h
    · cases h
      exact ended _
    · rename_i ha
      split at h
      · cases h
        exact ended _
      · rename_i hc
        cases h
        rw [State.finish, endCommand_idle (by exact hidle)]
        exact .opening t code ops a hi hidle hd (by simpa [Config.chipAddrW] using ha) (by simpa using hc)
  | sessionClose =>
    cases h
    rcases closeBegin_cases t { s with caller := t } with ⟨-, e⟩ | ⟨-, -, e⟩ | ⟨-, -, e⟩ <;> rw [e]
    · exact ended _
    · exact .phase _
    · exact .same
  | writeRegisters ops =>
    cases h
    exact begin ..
  | readRegisters addrs al =>
    cases h
    exact begin ..
  | statusRead =>
    simp only [exec, execStatusRead] at h
    split at h <;> cases h <;> exact ended _
  | demuxWrite v d =>
    cases h
    rcases demuxWrite_cases t v d { s with caller := t } with ⟨st, -, e⟩ | ⟨-, e⟩ <;> rw [e]
    · exact ended _
    · rw [State.finish, endCommand_idle (by exact hidle)]
      exact .push _ s.S.exp
  | demuxRead src d =>
    simp only [exec, execDemuxRead] at h
    split at h
    · cases h
      exact ended _
    · cases h
      rcases demuxWaitStep_cases t src d { s with caller := t } with
        ⟨-, e⟩ | ⟨-, v, q, hq, e⟩ | ⟨-, -, -, e⟩ | ⟨-, -, -, e⟩ <;> rw [e]
      · exact ended _
      · rw [State.finish, endCommand_idle (by exact hidle)]
        exact .pop _ _ _ hq
      · exact ended _
      · exact .same
  | frameDl40 a q rt p c => exact absurd rfl (hnot.1 a q rt p c)
  | frameAck24 k q cp ta sa se oe ts c => exact absurd rfl (hnot.2.1 k q cp ta sa se oe ts c)
  | frameRd24 d q c => exact absurd rfl (hnot.2.2.1 d q c)
  | frameHit24 r => exact absurd rfl (hnot.2.2.2 r)

/-- A command whose lines before its wait are taken apart is a move. -/
theorem execApart_command_move {t : ThreadId} {code : BitVec 8} {ops : List Operand} {instr : Instr} {s' : State}
    (hi : i = .issue t code ops ∨ i = .issueApart t code ops)
    (hidle : ({ s with caller := t } : State).taskOf t = none) (hd : decode (.command code ops) = .ok instr)
    (h : execApart instr { s with caller := t } = .next s') : Move P s i s'.S s'.wire := by
  simp only [execApart] at h
  split at h
  · cases h
    split
    · rw [State.takeException, endCommand_idle (by exact hidle)]
      exact .same
    · exact .same
  · exact exec_command_move hi hidle hd h

/-- A command issued in an idle thread is a move, however it is taken. -/
theorem issueBy_move {run : Instr → State → Host.Outcome State Fault Refusal} {t : ThreadId} {code : BitVec 8}
    {ops : List Operand} {s' : State}
    (hrun : ∀ instr, ({ s with caller := t } : State).taskOf t = none → decode (.command code ops) = .ok instr →
      run instr { s with caller := t } = .next s' → Move P s i s'.S s'.wire)
    (h : issueBy run t code ops s = .next s') : Move P s i s'.S s'.wire := by
  simp only [issueBy] at h
  split at h
  · cases h
    exact .same
  rename_i ht
  have hidle : ({ s with caller := t } : State).taskOf t = none := by
    simpa [State.taskOf] using ht
  split at h
  · rename_i instr hd
    exact hrun instr hidle hd h
  · cases h
    rw [State.takeException, endCommand_idle hidle]
    exact .same
  · cases h

/-- A 24-bit word crossing the port is a move. -/
theorem uplinkCrosses_move (w w' : BitVec 24) :
    Move P s (.up w) (uplinkCrosses w' s).S (uplinkCrosses w' s).wire := by
  rcases uplinkCrosses_cases w' s with e | ⟨hr, e⟩ <;> rw [e]
  · exact .same
  · exact .readValue _ _ (.inr ⟨w, rfl⟩) hr

/-- The instruction a 24-bit word decodes to is a word crossing the port. -/
theorem exec_of_decode_up {w : BitVec 24} {instr : Instr} (h : decode (.up w) = .ok instr) (s : State) :
    ∃ w', exec instr s = .next (uplinkCrosses w' s) := by
  simp only [decode, decodeUp] at h
  split at h
  · cases h
    exact ⟨_, rfl⟩
  · split at h
    · cases h
      exact ⟨_, rfl⟩
    · split at h
      · cases h
        exact ⟨_, rfl⟩
      · cases h

/-- A 40-bit word crossing the port is a move. -/
theorem downlinkCrosses_move (w w' : BitVec 40) :
    Move P s (.down w') (downlinkCrosses w s).S (downlinkCrosses w s).wire := by
  rcases downlinkCrosses_cases w s with e | ⟨hw, dest, rest, hq, e⟩ <;> rw [e]
  · exact .same
  · exact .write _ _ (.inr ⟨w', rfl⟩) hw hq

/-- A step of COMM is a move. -/
theorem commStep_move (x : WriteAnswer) (y : ReadAnswer) :
    Move P s (.comm x y) (commStep x y s).S (commStep x y s).wire := by
  have hi : ∃ x' y', Input.comm x y = .comm x' y' := ⟨x, y, rfl⟩
  rcases commStep_cases x y s with e | ⟨hw, item, rest, hq, ⟨-, e⟩ | ⟨info, -, e⟩⟩ | ⟨hr, e⟩ |
    ⟨hw, hq, hs, he, e⟩ <;> rw [e]
  · exact .same
  · exact .write _ _ (.inl hi) hw hq
  · exact .writeFault _ _ _ hi hw hq
  · rcases commTakeRead_cases hr y with ⟨-, e⟩ | ⟨src, v, -, e⟩ | ⟨info, -, e⟩ <;> rw [e]
    · exact .readNothing hi hr
    · exact .readValue _ _ (.inl hi) hr
    · exact .readFault _ hi hr
  · exact .commExit hi hw hq hs he

/-- What one choice does is a move. -/
theorem stepInput_move {s' : State} (h : stepInput P i s = .next s') : Move P s i s'.S s'.wire := by
  cases i with
  | issue t code ops => exact issueBy_move (fun _ ht hd h => exec_command_move (.inl rfl) ht hd h) h
  | issueApart t code ops => exact issueBy_move (fun _ ht hd h => execApart_command_move (.inr rfl) ht hd h) h
  | down w =>
    cases h
    exact downlinkCrosses_move _ w
  | up w =>
    simp only [stepInput, uplinkWord] at h
    split at h
    · rename_i instr hd
      obtain ⟨w', e⟩ := exec_of_decode_up hd s
      rw [e] at h
      cases h
      exact uplinkCrosses_move w w'
    · cases h
      exact uplinkCrosses_move w w
  | advance t =>
    cases h
    simp only [advanceThread]
    split
    · rename_i task ht
      exact taskStep_move ht
    · exact .same
  | timeout t =>
    cases h
    simp only [timeoutThread]
    split
    · rename_i task ht
      exact taskTimeout_move ht
    · exact .same
  | sendw =>
    cases h
    exact .sendw rfl
  | pollw =>
    cases h
    exact .pollw rfl
  | comm x y =>
    cases h
    exact commStep_move x y
  | rst =>
    cases h
    exact .reset (.inl rfl)

end

/-- What a step does, said once: with no choice left nothing, and otherwise one move under the first choice (R293). -/
theorem step_move {s s' : State} (h : step s = .next s') :
    (s' = s ∧ s.inputs = []) ∨
    ∃ i rest, s.inputs = i :: rest ∧ Move Config.params { s with inputs := rest } i s'.S s'.wire := by
  cases hi : s.inputs with
  | nil =>
    rw [step, stepWith_nil hi] at h
    cases h
    exact .inl ⟨rfl, rfl⟩
  | cons i rest =>
    rw [step, stepWith_cons hi] at h
    exact .inr ⟨i, rest, rfl, stepInput_move h⟩

end Sys2Proof.Machine
end

