-- ==== Sys2Proof/Laws/PerInstr.lean ====
section
/-! SUPPORT. One lemma per constructor of Instr: the port word the encoder gives it is that of its row of the opcode table,
the code of R120 for a command, the fixed prefix of R101 to R104 for a frame word. -/

namespace Sys2Proof.Laws

/-- Bits taken from the left part of a word put together from two. -/
theorem extract_append_high {m n : Nat} (a : BitVec m) (b : BitVec n) {lo len : Nat} (h : n ≤ lo) :
    (a ++ b).extractLsb' lo len = a.extractLsb' (lo - n) len := by
  apply BitVec.eq_of_getLsbD_eq
  intro i hi
  rw [BitVec.getLsbD_extractLsb', BitVec.getLsbD_extractLsb', BitVec.getLsbD_append, if_neg (by omega),
    Nat.sub_add_comm h]

/-- Bits taken from the right part of a word put together from two. -/
theorem extract_append_low {m n : Nat} (a : BitVec m) (b : BitVec n) {lo len : Nat} (h : lo + len ≤ n) :
    (a ++ b).extractLsb' lo len = b.extractLsb' lo len := by
  apply BitVec.eq_of_getLsbD_eq
  intro i hi
  rw [BitVec.getLsbD_extractLsb', BitVec.getLsbD_extractLsb', BitVec.getLsbD_append, if_pos (by omega)]

/-- What the opcode table fixes of a row's word. -/
inductive Row where
  /-- The 8-bit command code (R120). -/
  | code (c : BitVec 8)
  /-- A 40-bit word with no fixed bit (R101). -/
  | down
  /-- A 24-bit word whose first `width` bits are `lead` (R102 to R104). -/
  | up (width : Nat) (lead : BitVec width)

/-- The row of each instruction, as spec/opcode_table.json gives it. -/
def rowOf : Instr → Row
  | .bvFromValue _ _ => .code 0x01
  | .bvToValue _ => .code 0x02
  | .bvFromBytes _ => .code 0x03
  | .bvToBytes _ => .code 0x04
  | .bvAppendRight _ _ => .code 0x05
  | .bvAppendLeft _ _ => .code 0x06
  | .bvPopLeft _ _ => .code 0x07
  | .bvPopRight _ _ => .code 0x08
  | .bvConcat _ _ => .code 0x09
  | .bvReverse _ => .code 0x0A
  | .bvEq _ _ => .code 0x0B
  | .bvLen _ => .code 0x0C
  | .polyNew _ _ _ => .code 0x10
  | .polyToRepr _ _ => .code 0x11
  | .crc _ _ _ => .code 0x12
  | .frameBuild _ _ => .code 0x20
  | .frameBuildCrc _ _ _ => .code 0x21
  | .frameEncode _ => .code 0x22
  | .frameDecode _ _ => .code 0x23
  | .frameCrcOk _ => .code 0x24
  | .uplinkResolve _ => .code 0x25
  | .sessionOpen _ => .code 0x30
  | .sessionClose => .code 0x31
  | .writeRegisters _ => .code 0x33
  | .readRegisters _ _ => .code 0x34
  | .statusRead => .code 0x35
  | .demuxWrite _ _ => .code 0x40
  | .demuxRead _ _ => .code 0x41
  | .frameDl40 _ _ _ _ _ => .down
  | .frameAck24 _ _ _ _ _ _ _ _ _ => .up 3 0b100#3
  | .frameRd24 _ _ _ => .up 3 0b101#3
  | .frameHit24 _ => .up 1 0#1

/-- The port word has what the row fixes. -/
def fitsRow : Row → PortWord → Prop
  | .code c, .command c' _ => c' = c
  | .down, .down _ => True
  | .up k lead, .up w => w.extractLsb' (24 - k) k = lead
  | _, _ => False

namespace EncodedRow

/-- The encoder's word for the instruction is a word of its opcode-table row. -/
def Statement (i : Instr) : Prop := fitsRow (rowOf i) (encode i)

theorem bvFromValue (value : Int) (size : Nat) : Statement (.bvFromValue value size) := rfl

theorem bvToValue (v : Bv) : Statement (.bvToValue v) := rfl

theorem bvFromBytes (b : List Byte) : Statement (.bvFromBytes b) := rfl

theorem bvToBytes (v : Bv) : Statement (.bvToBytes v) := rfl

theorem bvAppendRight (a b : Bv) : Statement (.bvAppendRight a b) := rfl

theorem bvAppendLeft (a b : Bv) : Statement (.bvAppendLeft a b) := rfl

theorem bvPopLeft (v : Bv) (k : Nat) : Statement (.bvPopLeft v k) := rfl

theorem bvPopRight (v : Bv) (k : Nat) : Statement (.bvPopRight v k) := rfl

theorem bvConcat (a b : Bv) : Statement (.bvConcat a b) := rfl

theorem bvReverse (v : Bv) : Statement (.bvReverse v) := rfl

theorem bvEq (a b : Bv) : Statement (.bvEq a b) := rfl

theorem bvLen (v : Bv) : Statement (.bvLen v) := rfl

theorem polyNew (value degree repr : Nat) : Statement (.polyNew value degree repr) := rfl

theorem polyToRepr (p : Poly) (repr : Nat) : Statement (.polyToRepr p repr) := rfl

theorem crc (data : Bv) (p : Poly) (start : Option Nat) : Statement (.crc data p start) := by cases start <;> rfl

theorem frameBuild (type : Nat) (fields : Record) : Statement (.frameBuild type fields) := rfl

theorem frameBuildCrc (type : Nat) (fields : Record) (crc : Nat) : Statement (.frameBuildCrc type fields crc) := rfl

theorem frameEncode (f : Frame) : Statement (.frameEncode f) := rfl

theorem frameDecode (type : Nat) (v : Bv) : Statement (.frameDecode type v) := rfl

theorem frameCrcOk (f : Frame) : Statement (.frameCrcOk f) := rfl

theorem uplinkResolve (b : List Byte) : Statement (.uplinkResolve b) := rfl

theorem sessionOpen (chipAddress : Nat) : Statement (.sessionOpen chipAddress) := rfl

theorem sessionClose : Statement .sessionClose := rfl

theorem writeRegisters (ops : List (Nat × Nat)) : Statement (.writeRegisters ops) := rfl

theorem readRegisters (addrs : List Nat) (attemptAlignment : Bool) :
    Statement (.readRegisters addrs attemptAlignment) := rfl

theorem statusRead : Statement .statusRead := rfl

theorem demuxWrite (value : Value) (dest : Chan) : Statement (.demuxWrite value dest) := rfl

theorem demuxRead (source : Chan) (timeout : Duration) : Statement (.demuxRead source timeout) := rfl

theorem frameDl40 (chip seq : BitVec 4) (rt : BitVec 2) (payload crc : BitVec 15) :
    Statement (.frameDl40 chip seq rt payload crc) := trivial

theorem frameAck24 (ack : BitVec 2) (seq : BitVec 4) (cp ta sa se oe : BitVec 1) (ts : BitVec 6) (crc : BitVec 4) :
    Statement (.frameAck24 ack seq cp ta sa se oe ts crc) := by
  show BitVec.extractLsb' 21 3 (0b100#3 ++ ack ++ seq ++ cp ++ ta ++ sa ++ se ++ oe ++ ts ++ crc) = 0b100#3
  rw [extract_append_high _ _ (by decide), extract_append_high _ _ (by decide), extract_append_high _ _ (by decide), extract_append_high _ _ (by decide), extract_append_high _ _ (by decide), extract_append_high _ _ (by decide), extract_append_high _ _ (by decide), extract_append_high _ _ (by decide), extract_append_high _ _ (by decide)]
  rfl

theorem frameRd24 (data : BitVec 15) (seq crc : BitVec 3) : Statement (.frameRd24 data seq crc) := by
  show BitVec.extractLsb' 21 3 (0b101#3 ++ data ++ seq ++ crc) = 0b101#3
  rw [extract_append_high _ _ (by decide), extract_append_high _ _ (by decide), extract_append_high _ _ (by decide)]
  rfl

theorem frameHit24 (raw : BitVec 23) : Statement (.frameHit24 raw) := by
  show BitVec.extractLsb' 23 1 (0#1 ++ raw) = 0#1
  rw [extract_append_high _ _ (by decide)]
  rfl

end EncodedRow

end Sys2Proof.Laws
end

