-- ==== Sys2Proof/Tests/Slice0.lean ====
section
/-! SUPPORT. The model's own tests. Every expected value is read from spec/: the vectors of 95_test_vectors.md (the section is
named at each test), the encodings of 30_encoding.md, the reset table R51. After the tests stand the witnesses: for every
statement with hypotheses, a concrete state and operands that meet them. -/

namespace Sys2Proof.Tests

open Sys2Proof.Machine

/-! ### Small states -/

/-- The test instance of 95_test_vectors.md §8, with channel 7 for "control". -/
def P : Config.Params := ⟨0, 1, 2, 1, 7, 7, 1, 1, 1, 1, 1⟩

/-- A session open to chip 9. -/
def opened : State := { State.reset with S := SessionState.atOpen 9 }

/-- An open session whose transport has failed with error 5. -/
def faulted : State :=
  { opened with S := { opened.S with fault := true, faultInfo := some 5, wComm := .halted } }

/-- An open session in the RAP phase `ph`, thread 0 having `k` in progress. -/
def running (ph : RapPhase) (k : Task) : State :=
  { opened with S := { opened.S with rapPhase := ph }, threads := [(0, k)] }

/-- An open session where COMM's next operation is a TP_Read. -/
def polling : State := { opened with S := { opened.S with readPending := 1 } }

/-- The last response given. -/
def lastOf (s : State) : Option Response := s.out.getLast?.map (·.2)

/-- The last response given after an outcome. -/
def answer : Host.Outcome State Fault Refusal → Option Response
  | .next s => lastOf s
  | .fault _ => none
  | .refused _ => none

/-- The session state after an outcome. -/
def sessionOf : Host.Outcome State Fault Refusal → Option SessionState
  | .next s => some s.S
  | .fault _ => none
  | .refused _ => none

/-- The response `OK` with a result. -/
def ok (r : Result) : Option Response := some ⟨.ok, r⟩

/-- The response `CONSTRUCTION_ERROR`. -/
def err (sub : SubCause) (o : OperandName) (v : Operand) : Option Response :=
  some ⟨.constructionError ⟨sub, o, v⟩, .none⟩

/-- A response without a result. -/
def only (st : Status) : Option Response := some ⟨st, .none⟩

/-! ### WellFormed refuses each ill-formed term (R170, R200) -/

theorem test_wf_poly_degree_low : Poly.wellFormed ⟨0, 0⟩ = false := by decide
theorem test_wf_poly_degree_high : Poly.wellFormed ⟨1, 17⟩ = false := by decide
theorem test_wf_poly_range : Poly.wellFormed ⟨0x11, 4⟩ = false := by decide
theorem test_wf_poly_bit_zero : Poly.wellFormed ⟨0x4598, 15⟩ = false := by decide
theorem test_wf_poly_good : Poly.wellFormed ⟨0x1021, 16⟩ = true := by decide
theorem test_wf_frame_range : Frame.wellFormed ⟨.dl, [16, 0, 0, 0], some 0⟩ = false := by decide
theorem test_wf_frame_few_fields : Frame.wellFormed ⟨.dl, [0, 0, 0], some 0⟩ = false := by decide
theorem test_wf_frame_many_fields : Frame.wellFormed ⟨.rd, [0, 0, 0], some 0⟩ = false := by decide
theorem test_wf_frame_crc_range : Frame.wellFormed ⟨.rd, [2, 4], some 8⟩ = false := by decide
theorem test_wf_frame_no_crc : Frame.wellFormed ⟨.rd, [2, 4], none⟩ = false := by decide
theorem test_wf_frame_hit_crc : Frame.wellFormed ⟨.hit, [0], some 0⟩ = false := by decide
theorem test_wf_instr : Instr.wellFormed (.polyToRepr ⟨0, 4⟩ 0) = false ∧ Instr.wellFormed (.crc [] ⟨0, 4⟩ none) = false ∧
    Instr.wellFormed (.frameEncode ⟨.hit, [0x800000], none⟩) = false ∧
    Instr.wellFormed (.frameCrcOk ⟨.ack, [], some 0⟩) = false := by decide

/-! ### Decoding: one word of every row, written out from R120 and R101 to R104 -/

theorem test_decode_bv :
    decode (.command 0x01 [.int 5, .nat 4]) = .ok (.bvFromValue 5 4) ∧
    decode (.command 0x02 [.bv [true]]) = .ok (.bvToValue [true]) ∧
    decode (.command 0x03 [.bytes [0xa0]]) = .ok (.bvFromBytes [0xa0]) ∧
    decode (.command 0x04 [.bv [true]]) = .ok (.bvToBytes [true]) ∧
    decode (.command 0x05 [.bv [true], .bv [false]]) = .ok (.bvAppendRight [true] [false]) ∧
    decode (.command 0x06 [.bv [true], .bv [false]]) = .ok (.bvAppendLeft [true] [false]) ∧
    decode (.command 0x07 [.bv [true], .nat 1]) = .ok (.bvPopLeft [true] 1) ∧
    decode (.command 0x08 [.bv [true], .nat 1]) = .ok (.bvPopRight [true] 1) ∧
    decode (.command 0x09 [.bv [true], .bv [false]]) = .ok (.bvConcat [true] [false]) ∧
    decode (.command 0x0A [.bv [true]]) = .ok (.bvReverse [true]) ∧
    decode (.command 0x0B [.bv [true], .bv [false]]) = .ok (.bvEq [true] [false]) ∧
    decode (.command 0x0C [.bv [true]]) = .ok (.bvLen [true]) := by
  refine ⟨?_, ?_, ?_, ?_, ?_, ?_, ?_, ?_, ?_, ?_, ?_, ?_⟩ <;> rfl

theorem test_decode_poly_crc :
    decode (.command 0x10 [.nat 9, .nat 4, .nat 2]) = .ok (.polyNew 9 4 2) ∧
    decode (.command 0x11 [.poly ⟨3, 4⟩, .nat 1]) = .ok (.polyToRepr ⟨3, 4⟩ 1) ∧
    decode (.command 0x12 [.bv [true], .poly ⟨3, 4⟩]) = .ok (.crc [true] ⟨3, 4⟩ none) ∧
    decode (.command 0x12 [.bv [true], .poly ⟨3, 4⟩, .nat 7]) = .ok (.crc [true] ⟨3, 4⟩ (some 7)) := by
  refine ⟨?_, ?_, ?_, ?_⟩ <;> rfl

theorem test_decode_codec :
    decode (.command 0x20 [.nat 2, .fields []]) = .ok (.frameBuild 2 []) ∧
    decode (.command 0x21 [.nat 2, .fields [], .nat 5]) = .ok (.frameBuildCrc 2 [] 5) ∧
    decode (.command 0x22 [.frame ⟨.rd, [2, 4], some 4⟩]) = .ok (.frameEncode ⟨.rd, [2, 4], some 4⟩) ∧
    decode (.command 0x23 [.nat 1, .bv [true]]) = .ok (.frameDecode 1 [true]) ∧
    decode (.command 0x24 [.frame ⟨.rd, [2, 4], some 4⟩]) = .ok (.frameCrcOk ⟨.rd, [2, 4], some 4⟩) ∧
    decode (.command 0x25 [.bytes [0xa0]]) = .ok (.uplinkResolve [0xa0]) := by
  refine ⟨?_, ?_, ?_, ?_, ?_, ?_⟩ <;> rfl

theorem test_decode_session :
    decode (.command 0x30 [.nat 9]) = .ok (.sessionOpen 9) ∧
    decode (.command 0x31 []) = .ok .sessionClose ∧
    decode (.command 0x33 [.pairs [(16, 2)]]) = .ok (.writeRegisters [(16, 2)]) ∧
    decode (.command 0x34 [.addrs [16]]) = .ok (.readRegisters [16] true) ∧
    decode (.command 0x34 [.addrs [16], .bool false]) = .ok (.readRegisters [16] false) ∧
    decode (.command 0x35 []) = .ok .statusRead ∧
    decode (.command 0x40 [.item (.bytes [0xff]), .chan 3]) = .ok (.demuxWrite (.bytes [0xff]) 3) ∧
    decode (.command 0x41 [.chan 3, .nat 0]) = .ok (.demuxRead 3 0) := by
  refine ⟨?_, ?_, ?_, ?_, ?_, ?_, ?_, ?_⟩ <;> rfl

/-- V1, V2 and §5: `1001 0111 10 111011001010100 110000101011100`, `101 000000000000010 100 100`,
`100 01 0101 0 0 0 0 0 101010 0000`, `0` and 23 bits. -/
theorem test_decode_frames :
    decode (.down 0b1001011110111011001010100110000101011100) = .ok (.frameDl40 9 7 2 0x7654 0x615c) ∧
    decode (.up 0b101000000000000010100100) = .ok (.frameRd24 2 4 4) ∧
    decode (.up 0b100010101000001010100000) = .ok (.frameAck24 1 5 0 0 0 0 0 0x2a 0) ∧
    decode (.up 0b100100001100000000001111) = .ok (.frameAck24 2 1 1 0 0 0 0 0 0xf) ∧
    decode (.up 0b000100100011010001010110) = .ok (.frameHit24 0x123456) := by
  refine ⟨?_, ?_, ?_, ?_, ?_⟩ <;> rfl

/-- Each of the five flag bits of an Ack in its place (R102): bits 14 to 10. -/
theorem test_decode_ack_flags :
    decode (.up 0x804000) = .ok (.frameAck24 0 0 1 0 0 0 0 0 0) ∧
    decode (.up 0x802000) = .ok (.frameAck24 0 0 0 1 0 0 0 0 0) ∧
    decode (.up 0x801000) = .ok (.frameAck24 0 0 0 0 1 0 0 0 0) ∧
    decode (.up 0x800800) = .ok (.frameAck24 0 0 0 0 0 1 0 0 0) ∧
    decode (.up 0x800400) = .ok (.frameAck24 0 0 0 0 0 0 1 0 0) := by
  refine ⟨?_, ?_, ?_, ?_, ?_⟩ <;> rfl

/-- R123, R8, R170, R200, R105: what is no instruction, by name. -/
theorem test_decode_refuses :
    decode (.command 0x00 []) = .error (.reservedCode 0x00) ∧
    decode (.command 0x32 []) = .error (.reservedCode 0x32) ∧
    decode (.command 0xFF [.nat 1]) = .error (.reservedCode 0xFF) ∧
    decode (.command 0x31 [.nat 1]) = .error (.operandShape .sessionClose) ∧
    decode (.command 0x02 [.nat 1]) = .error (.operandShape .bvToValue) ∧
    decode (.command 0x11 [.poly ⟨2, 4⟩, .nat 0]) = .error (.operandValue .polyToRepr) ∧
    decode (.command 0x22 [.frame ⟨.rd, [2, 8], some 4⟩]) = .error (.operandValue .frameEncode) ∧
    decode (.up 0xc00000) = .error (.noFrame 0xc00000) ∧
    decode (.up 0xffffff) = .error (.noFrame 0xffffff) := by
  refine ⟨?_, ?_, ?_, ?_, ?_, ?_, ?_, ?_, ?_⟩ <;> rfl

/-- Words of spec/opcode_table.json as its rows number them. -/
theorem test_table_words :
    decodeTableWord 8 0x07 = some (.bvPopLeft [] 0) ∧ decodeTableWord 8 0x35 = some .statusRead ∧
    decodeTableWord 8 0x42 = none ∧ decodeTableWord 40 0x97bb2a615c = some (.frameDl40 9 7 2 0x7654 0x615c) ∧
    decodeTableWord 24 0x800001 = some (.frameAck24 0 0 0 0 0 0 0 0 1) ∧
    decodeTableWord 24 0xa000a4 = some (.frameRd24 2 4 4) ∧
    decodeTableWord 24 0x7fffff = some (.frameHit24 0x7fffff) ∧ decodeTableWord 24 0xe00000 = none := by
  refine ⟨?_, ?_, ?_, ?_, ?_, ?_, ?_, ?_⟩ <;> rfl

/-! ### The BV unit (95_test_vectors.md §4) -/

/-- A vector written as its bits. -/
def bv (w v : Nat) : Bv := bits w v

theorem test_bvFromValue : answer (exec (.bvFromValue 5 4) State.reset) = ok (.bv [false, true, false, true]) := by
  decide
theorem test_bvFromValue_range :
    answer (exec (.bvFromValue 16 4) State.reset) = err .valueRange .value (.int 16) ∧
    answer (exec (.bvFromValue (-1) 4) State.reset) = err .valueRange .value (.int (-1)) := by decide
theorem test_bvToValue : answer (exec (.bvToValue [false, true, false, true]) State.reset) = ok (.nat 5) := by decide
theorem test_bvToValue_empty : answer (exec (.bvToValue []) State.reset) = ok (.nat 0) := by decide
theorem test_bvFromBytes :
    answer (exec (.bvFromBytes [0xa0, 0x00, 0xa4]) State.reset) = ok (.bv (bv 24 0xa000a4)) := by decide
theorem test_bvToBytes : answer (exec (.bvToBytes (bv 40 0x97bb2a615c)) State.reset) =
    ok (.bytes [0x97, 0xbb, 0x2a, 0x61, 0x5c]) := by decide +kernel
theorem test_bvToBytes_width :
    answer (exec (.bvToBytes (bv 12 0xff)) State.reset) = err .widthMismatch .bv (.bv (bv 12 0xff)) := by decide
theorem test_bvAppendRight :
    answer (exec (.bvAppendRight (bv 2 2) (bv 3 1)) State.reset) = ok (.bv [true, false, false, false, true]) := by
  decide
theorem test_bvAppendLeft :
    answer (exec (.bvAppendLeft (bv 3 1) (bv 2 2)) State.reset) = ok (.bv [true, false, false, false, true]) := by
  decide
theorem test_bvPopLeft :
    answer (exec (.bvPopLeft (bv 6 0b101101) 2) State.reset) = ok (.popped (bv 2 0b10) (bv 4 0b1101)) := by decide
theorem test_bvPopLeft_underflow :
    answer (exec (.bvPopLeft (bv 3 5) 4) State.reset) = err .popUnderflow .k (.nat 4) := by decide
theorem test_bvPopRight :
    answer (exec (.bvPopRight (bv 6 0b101101) 2) State.reset) = ok (.popped (bv 2 0b01) (bv 4 0b1011)) := by decide
theorem test_bvPopRight_underflow :
    answer (exec (.bvPopRight [] 1) State.reset) = err .popUnderflow .k (.nat 1) := by decide
theorem test_bvConcat :
    answer (exec (.bvConcat (bv 3 0b101) (bv 15 0)) State.reset) = ok (.bv (bv 18 0x28000)) := by decide
theorem test_bvReverse : answer (exec (.bvReverse (bv 3 0b110)) State.reset) = ok (.bv (bv 3 0b011)) := by decide
theorem test_bvEq : answer (exec (.bvEq (bv 4 5) (bv 4 5)) State.reset) = ok (.bool true) := by decide
theorem test_bvEq_length : answer (exec (.bvEq (bv 4 5) (bv 5 5)) State.reset) = ok (.bool false) := by decide
theorem test_bvLen : answer (exec (.bvLen (bv 15 0)) State.reset) = ok (.nat 15) := by decide

/-! ### The polynomial converter and the CRC generator (95_test_vectors.md §2, §3) -/

theorem test_polyNew : answer (exec (.polyNew 0x62cc 15 2) State.reset) = ok (.poly ⟨0x4599, 15⟩) := by decide
theorem test_polyNew_errors :
    answer (exec (.polyNew 0x22cc 15 2) State.reset) = err .polyImplicitBit .value (.nat 0x22cc) ∧
    answer (exec (.polyNew 0x8000 15 0) State.reset) = err .valueRange .value (.nat 0x8000) ∧
    answer (exec (.polyNew 1 17 0) State.reset) = err .badDegree .degree (.nat 17) ∧
    answer (exec (.polyNew 3 4 3) State.reset) = err .badRepr .repr (.nat 3) := by decide
theorem test_polyToRepr :
    answer (exec (.polyToRepr ⟨0x1021, 16⟩ 1) State.reset) = ok (.nat 0x8408) ∧
    answer (exec (.polyToRepr ⟨0x1021, 16⟩ 2) State.reset) = ok (.nat 0x8810) := by decide
theorem test_polyToRepr_error :
    answer (exec (.polyToRepr ⟨0x3, 4⟩ 3) State.reset) = err .badRepr .repr (.nat 3) := by decide
theorem test_crc :
    answer (exec (.crc (bv 25 0x12f7654) ⟨0x4599, 15⟩ none) State.reset) = ok (.nat 0x615c) ∧
    answer (exec (.crc (List.replicate 8 true) ⟨3, 4⟩ none) State.reset) = ok (.nat 0x2) ∧
    answer (exec (.crc [] ⟨3, 3⟩ none) State.reset) = ok (.nat 7) := by decide +kernel
theorem test_crc_init :
    answer (exec (.crc (bv 4 0b1011) ⟨3, 3⟩ (some 0)) State.reset) = ok (.nat 0) ∧
    answer (exec (.crc [] ⟨3, 3⟩ (some 8)) State.reset) = err .valueRange .init (.nat 8) := by decide

/-! ### The frame codec (95_test_vectors.md §1, §5) -/

theorem test_frameBuild :
    answer (exec (.frameBuild 0 [(.payload, 0x7654), (.chipAddress, 9), (.requestType, 2), (.sequenceNumber, 7)])
      State.reset) = ok (.frame ⟨.dl, [9, 7, 2, 0x7654], some 0x615c⟩) := by decide +kernel
theorem test_frameBuild_errors :
    answer (exec (.frameBuild 0
      [(.chipAddress, 16), (.sequenceNumber, 0), (.requestType, 0), (.payload, 0x8000)]) State.reset) =
      err .valueRange (.field .chipAddress) (.nat 16) ∧
    answer (exec (.frameBuild 2 [(.data, 1), (.sequenceNumber, 0), (.unknown 0, 0)]) State.reset) =
      err .widthMismatch .fields (.fields [(.data, 1), (.sequenceNumber, 0), (.unknown 0, 0)]) ∧
    answer (exec (.frameBuild 3 [(.raw, 0)]) State.reset) = err .badFrameType .type (.nat 3) := by decide +kernel
theorem test_frameBuildCrc :
    answer (exec (.frameBuildCrc 2 [(.data, 2), (.sequenceNumber, 4)] 5) State.reset) =
      ok (.frame ⟨.rd, [2, 4], some 5⟩) := by decide +kernel
theorem test_frameBuildCrc_range :
    answer (exec (.frameBuildCrc 2 [(.data, 2), (.sequenceNumber, 4)] 8) State.reset) =
      err .valueRange .crc (.nat 8) := by decide +kernel
theorem test_frameEncode :
    answer (exec (.frameEncode ⟨.dl, [9, 7, 2, 0x7654], some 0x615c⟩) State.reset) =
      ok (.encoded (bv 40 0x97bb2a615c) [0x97, 0xbb, 0x2a, 0x61, 0x5c]) := by decide +kernel
theorem test_frameEncode_ack :
    answer (exec (.frameEncode ⟨.ack, [2, 1, 1, 0, 0, 0, 0, 0], some 0xf⟩) State.reset) =
      ok (.encoded (bv 24 0x90c00f) [0x90, 0xc0, 0x0f]) := by decide +kernel
theorem test_frameDecode :
    answer (exec (.frameDecode 0 (bv 40 0x97bb2a615d)) State.reset) =
      ok (.decoded ⟨.dl, [9, 7, 2, 0x7654], some 0x615d⟩ (some false)) ∧
    answer (exec (.frameDecode 3 (bv 24 0x123456)) State.reset) =
      ok (.decoded ⟨.hit, [0x123456], none⟩ none) := by decide +kernel
/-- The second clause is the spec's row of 23 bits beginning `101`, written with all its digits (assumption log 17). -/
theorem test_frameDecode_errors :
    answer (exec (.frameDecode 1 (bv 20 0x5)) State.reset) = only .prefixMismatch ∧
    answer (exec (.frameDecode 2 (bv 23 0x500052)) State.reset) =
      err .widthMismatch .bv (.bv (bv 23 0x500052)) ∧
    answer (exec (.frameDecode 1 (bv 2 0)) State.reset) = err .popUnderflow .bv (.bv (bv 2 0)) := by
  decide +kernel
theorem test_frameCrcOk :
    answer (exec (.frameCrcOk ⟨.rd, [2, 4], some 4⟩) State.reset) = ok (.bool true) ∧
    answer (exec (.frameCrcOk ⟨.rd, [2, 4], some 5⟩) State.reset) = ok (.bool false) := by decide +kernel
theorem test_frameCrcOk_hit :
    answer (exec (.frameCrcOk ⟨.hit, [0x123456], none⟩) State.reset) =
      err .badFrameType .frame (.frame ⟨.hit, [0x123456], none⟩) := by decide +kernel
theorem test_uplinkResolve :
    answer (exec (.uplinkResolve [0x9f, 0xff, 0xf4]) State.reset) =
      ok (.resolved .ack (some (⟨.ack, [3, 15, 1, 1, 1, 1, 1, 63], some 4⟩, some true))) ∧
    answer (exec (.uplinkResolve [0xa0, 0x00, 0xaf]) State.reset) =
      ok (.resolved .rd (some (⟨.rd, [2, 5], some 7⟩, some true))) ∧
    answer (exec (.uplinkResolve [0x7f, 0xff, 0xff]) State.reset) =
      ok (.resolved .hit (some (⟨.hit, [0x7fffff], none⟩, none))) := by decide +kernel
theorem test_uplinkResolve_none :
    answer (exec (.uplinkResolve [0xc0, 0x00, 0x00]) State.reset) = ok (.resolved .noFrame none) ∧
    answer (exec (.uplinkResolve [0xa0, 0x00]) State.reset) =
      err .widthMismatch .bytes (.bytes [0xa0, 0x00]) := by decide +kernel

/-! ### Session and status (95_test_vectors.md P5, P6; R51) -/

theorem test_sessionOpen :
    sessionOf (exec (.sessionOpen 9) State.reset) = some (SessionState.atOpen 9) ∧
    (SessionState.atOpen 9).wComm = .running ∧ (SessionState.atOpen 9).chipAddr = 9 := by decide
theorem test_sessionOpen_errors :
    answer (exec (.sessionOpen 16) opened) = err .valueRange .chipAddress (.nat 16) ∧
    answer (exec (.sessionOpen 4) opened) = only .alreadyOpen ∧
    sessionOf (exec (.sessionOpen 4) opened) = some opened.S := by decide
theorem test_sessionClose_closed : answer (exec .sessionClose State.reset) = only .notOpen := by decide
theorem test_sessionClose :
    (sessionOf (exec .sessionClose opened)).map (·.rapPhase) = some .closing := by decide
theorem test_statusRead_faulted :
    answer (exec .statusRead faulted) = ok (.status
      { session := .opened, chipAddr := 9, seq := 0, fault := true, rapPhase := .idle, cReq := 0, cMatched := 0,
        cNack := 0, cAck := 0, cCrcBad := 0, cHit := 0, cUnknown := 0, sendqLen := 0, readPending := 0,
        wrqLen := 0, rxLens := [] }) := by decide
theorem test_stop_and_join :
    (advanceThread P 0 (running .closing .closeStop)).S.session = .stopping ∧
    (timeoutThread P 0 (running .closing .closeJoin)).S = SessionState.reset ∧
    lastOf (advanceThread P 0 (timeoutThread P 0 (running .closing .closeJoin))) = only .joinTimeout := by decide

/-! ### Register transactions (95_test_vectors.md §6, P1, P1b, P2, P3) -/

theorem test_writeRegisters :
    answer (exec (.writeRegisters [(1, 1)]) State.reset) = only .notOpen ∧
    answer (exec (.writeRegisters [(1, 1)]) faulted) = only (.transportError (some 5)) ∧
    (sessionOf (exec (.writeRegisters [(1, 1)]) opened)).map (·.rapPhase) = some .wSend := by decide

/-- R241, R293: the phase is taken in the step of the checks, the counters and the lists go in steps of their own, so that
another thread can read the new phase beside the old counters. -/
theorem test_admit_line_by_line :
    (sessionOf (exec (.writeRegisters []) { opened with S := { opened.S with cReq := 3, exp := [1] } })).map
      (fun S => (S.rapPhase, S.cReq, S.exp)) = some (.wSend, 3, [1]) ∧
    (let s := advanceThread P 0 (running .wSend (.write (.counters [])))
     (s.taskOf 0, (advanceThread P 0 s).taskOf 0)) = (some (.write (.lists [])), some (.write (.send []))) := by decide
theorem test_write_frame :
    (advanceThread P 0 (running .wSend (.write (.push 1 .wrData 0x7654 [])))).S.sendq =
      [⟨.bytes [0x91, 0x7b, 0x2a, 0x31, 0x7d], 7⟩] := by decide +kernel
theorem test_write_out_of_range :
    lastOf (advanceThread P 0 (running .wSend (.write (.push 1 .wrData 0x8000 [])))) =
      err .valueRange (.field .payload) (.nat 0x8000) := by decide +kernel
theorem test_readRegisters :
    answer (exec (.readRegisters [0x10] true) State.reset) = only .notOpen ∧
    (sessionOf (exec (.readRegisters [0x10] true) opened)).map (·.rapPhase) = some .rSend := by decide
theorem test_read_frame :
    (advanceThread P 0 (running .rSend (.read 1 true (.push 9 0x18 [])))).S.exp = [1] ∧
    (advanceThread P 0 (running .rSend (.read 3 true (.push 1 0x18 [0x20])))).S.sendq =
      [⟨.bytes [0x91, 0x80, 0x0c, 0x73, 0x24], 7⟩] := by decide +kernel
theorem test_accept_ack :
    (acceptValue P .ack (.bytes [0x88, 0x80, 0x03]) opened.S).2.cNack = 1 ∧
    (acceptValue P .ack (.bytes [0x80, 0x00, 0x00]) opened.S).2.cCrcBad = 1 ∧
    (acceptValue P .ack (.bytes [0xa0, 0x00, 0xa4]) opened.S).2.pendRd =
      [⟨⟨.rd, [2, 4], some 4⟩, true⟩] := by decide +kernel
theorem test_accept_other :
    (acceptValue P .ack (.bytes [0x12, 0x34, 0x56]) opened.S).2.cHit = 1 ∧
    (acceptValue P .ack (.bytes [0xc0, 0x00, 0x00]) opened.S).2.cUnknown = 1 ∧
    (acceptValue P .ack (.bytes [0xa0, 0x00]) opened.S).2.cUnknown = 1 := by decide +kernel
theorem test_counter_saturates : inc 0xFFFF = 0xFFFF ∧ inc 0xFFFE = 0xFFFF := by decide

/-! ### Guard and alignment (95_test_vectors.md §6, §7) -/

theorem test_guard :
    guardHolds [7, 0] [(7, 1), (0, 2)] = true ∧ guardHolds [0, 1, 2] [(0, 0), (2, 0), (1, 0)] = false ∧
    guardHolds [0, 1, 2] [(0, 0), (2, 0)] = false := by decide
theorem test_align :
    align [0, 1, 2] [0, 2] = [some 0, none, some 1] ∧ align [1, 1] [1] = [none, some 0] ∧
    align [0, 1, 2] [2, 1, 0] = [none, none, some 0] ∧
    align [0, 1, 2, 3] [1, 0, 2, 3] = [some 1, none, some 2, some 3] ∧
    align [0, 1, 2, 3, 4, 5] [0, 1, 4, 5] = [some 0, some 1, none, none, some 2, some 3] := by decide +kernel
theorem test_scoreMatrix :
    scoreMatrix [0, 1, 2, 3] [0, 1, 5, 3] =
      [[0, 0, 0, 0, 0], [0, 3, 1, 0, 0], [0, 1, 6, 4, 2], [0, 0, 4, 3, 1], [0, 0, 2, 1, 6]] := by decide +kernel

/-! ### The arbiter (95_test_vectors.md P5, P6) -/

theorem test_demuxWrite :
    (sessionOf (exec (.demuxWrite (.bytes [1, 2]) 3) opened)).map (·.sendq) = some [⟨.bytes [1, 2], 3⟩] ∧
    answer (exec (.demuxWrite (.bytes [1, 2]) 3) opened) = ok .none := by decide
theorem test_demuxRead :
    answer (exec (.demuxRead 3 0) opened) = only .nodata ∧
    answer (exec (.demuxRead 3 1) { opened with S := opened.S.pushRx 3 (.bytes [1, 2]) }) =
      ok (.item (.bytes [1, 2])) := by decide
theorem test_workers :
    (sendwStep { opened.S with sendq := [⟨.other 1, 3⟩] }).stage = some ⟨.other 1, 3⟩ ∧
    (sendwStep { opened.S with stage := some ⟨.other 1, 3⟩ }).wrq = [⟨.other 1, 3⟩] ∧
    (pollwStep opened.S).readPending = 1 := by decide
theorem test_comm :
    (commStep (.err 5) .nodata { polling with S := { polling.S with wrq := [⟨.other 1, 3⟩] } }).S.faultInfo = some 5 ∧
    (commStep .ok (.data 3 (.other 1)) polling).S.rx 3 = [.other 1] ∧
    (commStep .ok (.data 3 (.other 1)) polling).S.readPending = 1 := by decide

/-- V1 on the wire: the word leaves the head of S.wrq, and only that word does. -/
theorem test_frameDl40 :
    sessionOf (exec (.frameDl40 9 7 2 0x7654 0x615c)
      { opened with S := { opened.S with wrq := [⟨.bytes [0x97, 0xbb, 0x2a, 0x61, 0x5c], 3⟩] } }) = some opened.S ∧
    sessionOf (exec (.frameDl40 9 7 2 0x7654 0x615c) opened) = some opened.S := by decide +kernel

/-- The operations on the transport port after an outcome. -/
def wireOf : Host.Outcome State Fault Refusal → List TpEvent
  | .next s => s.wire
  | .fault _ => []
  | .refused _ => []

theorem test_frameAck24 : wireOf (exec (.frameAck24 1 5 0 0 0 0 0 0x2a 0) polling) =
    [.read (.data Config.ctrlSrc (.bytes [0x8a, 0x82, 0xa0]))] := rfl
theorem test_frameRd24 : wireOf (exec (.frameRd24 2 4 4) polling) =
    [.read (.data Config.ctrlSrc (.bytes [0xa0, 0x00, 0xa4]))] := rfl
theorem test_frameHit24 : wireOf (exec (.frameHit24 0x123456) polling) =
    [.read (.data Config.ctrlSrc (.bytes [0x12, 0x34, 0x56]))] := rfl

/-! ### Codes (R330, R331, R110, R34) -/

theorem test_codes : Status.code .ok = 0x00 ∧ Status.code (.readFailure [] []) = 0x03 ∧ Status.code .joinTimeout = 0x09 ∧
    SubCause.code .valueRange = 1 ∧ SubCause.code .badFrameType = 8 ∧ Kind.code .noFrame = 3 ∧ Kind.code .hit = 0 ∧
    SessionMode.code .stopping = 2 := by decide

/-! ### Fetching (the host's two questions on a table word) -/

theorem test_fetch_command : answer (step (State.reset.withFetchWord 8 0x0C)) = ok (.nat 0) := rfl
theorem test_fetch_reserved : answer (step (State.reset.withFetchWord 8 0x32)) = only (.illegalCommand 0x32) := rfl
theorem test_fetch_downlink : wireOf (step (State.reset.withFetchWord 40 0x97bb2a615c)) =
    [.wrote ⟨.bytes [0x97, 0xbb, 0x2a, 0x61, 0x5c], Config.ctrlDest⟩ .ok] := rfl
theorem test_fetch_uplink : wireOf (step (State.reset.withFetchWord 24 0xa000a4)) =
    [.read (.data Config.ctrlSrc (.bytes [0xa0, 0x00, 0xa4]))] := rfl

/-! ### Witnesses: what the hypotheses of each statement ask, met together, at the boundaries of its clauses -/

/-- No command is in progress in an open session. -/
theorem idle_opened : opened.callerIdle ∧ State.reset.callerIdle ∧ faulted.callerIdle := ⟨rfl, rfl, rfl⟩

theorem witness_DecodeEncodeRoundTrip :
    (Instr.crc [true] ⟨0x8001, 16⟩ (some 0xffff)).wellFormed = true ∧
    (Instr.frameEncode ⟨.dl, [15, 15, 3, 0x7fff], some 0x7fff⟩).wellFormed = true := by decide

theorem witness_UplinkPrefixSpace :
    (0x7fffff#24).getMsbD 0 = false ∧ (0x800000#24).extractLsb' 21 3 = 0b100#3 ∧
    (0x9fffff#24).extractLsb' 21 3 = 0b100#3 ∧ (0xa00000#24).extractLsb' 21 3 = 0b101#3 ∧
    (0xbfffff#24).extractLsb' 21 3 = 0b101#3 ∧ (0xc00000#24).extractLsb' 21 3 = 0b110#3 ∧
    (0xffffff#24).extractLsb' 21 3 = 0b111#3 := by decide

theorem witness_ReservedCodeIsIllegalCommand :
    (0x00#8).toNat ∉ Command.all.map (·.code.toNat) ∧ (0x0D#8).toNat ∉ Command.all.map (·.code.toNat) ∧
    (0x32#8).toNat ∉ Command.all.map (·.code.toNat) ∧ (0xFF#8).toNat ∉ Command.all.map (·.code.toNat) ∧
    Command.all.map (·.code.toNat) = [0x01, 0x02, 0x03, 0x04, 0x05, 0x06, 0x07, 0x08, 0x09, 0x0A, 0x0B, 0x0C, 0x10,
      0x11, 0x12, 0x20, 0x21, 0x22, 0x23, 0x24, 0x25, 0x30, 0x31, 0x33, 0x34, 0x35, 0x40, 0x41] ∧
    State.reset.taskOf 0 = none ∧
    ({ State.reset with inputs := [.issue 0 0x32 []] } : State).inputs = .issue 0 0x32 [] :: [] := by decide

theorem witness_StepRunsDecodedInstruction :
    opened.taskOf 0 = none ∧ decode (.command 0x35 []) = .ok .statusRead ∧ apartOf .statusRead = none ∧
    decode (.command 0x33 [.pairs []]) = .ok (.writeRegisters []) ∧
    apartOf (.writeRegisters []) = some (.write []) ∧ opened.S.session = .opened ∧
    State.reset.S.session ≠ .opened ∧ decode (.up 0xa000a4) = .ok (.frameRd24 2 4 4) ∧
    decode (.down 0) = .ok (.frameDl40 0 0 0 0 0) :=
  ⟨rfl, rfl, rfl, rfl, rfl, rfl, by decide, rfl, rfl⟩

/-- Every other choice at the head of the list, a thread with and without a command, and the port open and shut. -/
theorem witness_StepRunsDecodedInstruction_agents :
    (∀ i : Input, ({ opened with inputs := [i] } : State).inputs = i :: []) ∧ opened.inputs = [] ∧
    (running .closing .closeJoin).taskOf 0 ≠ none ∧ opened.taskOf 0 = none ∧
    (0xc00000#24).extractLsb' 22 2 = 0b11#2 ∧ (0xffffff#24).extractLsb' 22 2 = 0b11#2 ∧
    polling.S.wComm = .running ∧ polling.S.wrq = [] ∧ 0 < polling.S.readPending ∧ polling.S.stop = false ∧
    opened.S.readPending = 0 := ⟨fun _ => rfl, by decide⟩

theorem witness_BvFromValueMeaning : State.reset.callerIdle ∧
    ((0 : Int) ≤ 15 ∧ (15 : Int) < 2 ^ 4) ∧ ((0 : Int) ≤ 0 ∧ (0 : Int) < 2 ^ 0) ∧ (-1 : Int) < 0 ∧
    (2 : Int) ^ 4 ≤ 16 ∧ (2 : Int) ^ 0 ≤ 1 := ⟨rfl, by decide⟩

theorem witness_BvToValueMeaning : State.reset.callerIdle ∧ opened.callerIdle := ⟨rfl, rfl⟩

theorem witness_BvJoinMeaning : State.reset.callerIdle ∧ opened.callerIdle := ⟨rfl, rfl⟩

theorem witness_BvBytesMeaning : State.reset.callerIdle ∧ 0 < [(0xa0 : Byte)].length ∧ (bv 9 0).length % 8 ≠ 0 ∧
    (bv 7 0).length % 8 ≠ 0 ∧ (bv 8 0).length % 8 = 0 ∧ (bv 0 0).length % 8 = 0 ∧ 0 < (bv 8 0).length / 8 :=
  ⟨rfl, by decide⟩

theorem witness_BvPopMeaning : State.reset.callerIdle ∧ 0 ≤ (bv 3 5).length ∧ 3 ≤ (bv 3 5).length ∧
    (bv 3 5).length < 4 := ⟨rfl, by decide⟩

theorem witness_BvReverseEqLenMeaning : State.reset.callerIdle ∧ 0 < (bv 3 5).length ∧ 2 < (bv 3 5).length :=
  ⟨rfl, by decide⟩

/-- Degree 0 and 17; representation 3 at degree 16; value 2^15; the checked bit 0 and 1 at degree 1 and 16. -/
theorem witness_PolyNewMeaning : State.reset.callerIdle ∧ 0 < 1 ∧ 16 < 17 ∧ (1 ≤ 16 ∧ 16 ≤ 16 ∧ 2 < 3) ∧
    (1 ≤ 15 ∧ 15 ≤ 16 ∧ 2 ≤ 2 ∧ 2 ^ 15 ≤ 0x8000) ∧
    (1 ≤ 1 ∧ 1 ≤ 16 ∧ 0 ≤ 2 ∧ 0 < 2 ^ 1 ∧ Nat.testBit 0 0 = false) ∧
    (16 ≤ 16 ∧ 2 ≤ 2 ∧ 0x8810 < 2 ^ 16 ∧ Nat.testBit 0x8810 (16 - 1) = true) ∧
    (1 ≤ 1 ∧ 1 < 2 ^ 1 ∧ Nat.testBit 1 0 = true) := ⟨rfl, by decide⟩

theorem witness_PolyToReprMeaning : Poly.wellFormed ⟨1, 1⟩ = true ∧ Poly.wellFormed ⟨0x1021, 16⟩ = true ∧
    State.reset.callerIdle ∧ 2 < 3 ∧ 2 ≤ 2 := ⟨by decide, by decide, rfl, by decide, by decide⟩

theorem witness_PolyRoundTrip : Poly.wellFormed ⟨1, 1⟩ = true ∧ 2 ≤ 2 ∧
    polyNew 0x8810 16 2 = .ok ⟨0x1021, 16⟩ := ⟨by decide, by decide, rfl⟩

theorem witness_CrcMeaning : Poly.wellFormed ⟨3, 3⟩ = true ∧ State.reset.callerIdle ∧ 2 ^ 3 ≤ 8 ∧ 7 < 2 ^ 3 ∧
    0 < 2 ^ 3 := ⟨by decide, rfl, by decide⟩

theorem witness_CrcClosedForm : Poly.wellFormed ⟨1, 1⟩ = true ∧ 1 < 2 ^ 1 ∧ Poly.wellFormed ⟨3, 3⟩ = true ∧
    7 < 2 ^ 3 := by decide

theorem witness_CrcResidue : Poly.wellFormed ⟨3, 3⟩ = true ∧ 7 < 2 ^ 3 ∧ crcFrom ⟨3, 3⟩ 7 [true] < 2 ^ 3 ∧
    crcFrom ⟨3, 3⟩ 7 [true] = 6 := by decide

/-- Code 3; a name too few; a record in another order that fits, with the crc at 2^d - 1 and 2^d; data at 2^15. -/
theorem witness_FrameBuildMeaning : State.reset.callerIdle ∧ 3 ≤ 3 ∧ frameTypeOf 2 = some .rd ∧
    Config.polyOf .rd = some Config.polyRd ∧
    (¬ ([(FieldName.data, 0)].map (·.1)).Perm ((Config.fieldList .rd).map (·.1))) ∧
    ([(FieldName.sequenceNumber, 7), (.data, 0x7fff)].Perm
      (((Config.fieldList .rd).map (·.1)).zip [0x7fff, 7])) ∧
    fitWidths (Config.fieldWidths .rd) [0x7fff, 7] = true ∧ 7 < 2 ^ Config.polyRd.degree ∧
    2 ^ Config.polyRd.degree ≤ 8 ∧
    ([(FieldName.data, 0x8000), (.sequenceNumber, 8)].Perm
      (((Config.fieldList .rd).map (·.1)).zip [0x8000, 8])) ∧
    Config.fieldList .rd = [] ++ (.data, 15) :: [(.sequenceNumber, 3)] ∧ fitWidths [] [] = true ∧
    [0x8000, 8][0]? = some 0x8000 ∧ 2 ^ 15 ≤ 0x8000 := ⟨rfl, by decide⟩

theorem witness_FrameEncodeMeaning : Frame.wellFormed ⟨.hit, [0x7fffff], none⟩ = true ∧
    Frame.wellFormed ⟨.rd, [0x7fff, 7], some 7⟩ = true ∧ State.reset.callerIdle :=
  ⟨by decide, by decide, rfl⟩

/-- Code 4; two bits; another prefix; the prefix with 23 and with 25 bits; the prefix with 24. -/
theorem witness_FrameDecodeMeaning : State.reset.callerIdle ∧ 3 < 4 ∧ frameTypeOf 2 = some .rd ∧
    (bv 2 2).length < (Config.prefixOf .rd).2 ∧
    ((Config.prefixOf .rd).2 ≤ (bv 3 4).length ∧ (bv 3 4).take (Config.prefixOf .rd).2 ≠ prefixBits .rd) ∧
    ((bv 23 0x500052).take (Config.prefixOf .rd).2 = prefixBits .rd ∧
      (bv 23 0x500052).length ≠ Config.frameWidth .rd) ∧
    ((bv 25 0x1400148).take (Config.prefixOf .rd).2 = prefixBits .rd ∧
      (bv 25 0x1400148).length ≠ Config.frameWidth .rd) ∧
    ((bv 24 0xa000a4).take (Config.prefixOf .rd).2 = prefixBits .rd ∧
      (bv 24 0xa000a4).length = Config.frameWidth .rd) := ⟨rfl, by decide +kernel⟩

theorem witness_FrameRoundTrip : Frame.wellFormed ⟨.rd, [0x7fff, 7], some 7⟩ = true ∧ FrameType.rd ≠ .hit ∧
    (bv 24 0xbfffff).length = Config.frameWidth .rd ∧
    (bv 24 0xbfffff).take (Config.prefixOf .rd).2 = prefixBits .rd := by decide

theorem witness_FreshFrameVerifies :
    frameBuild 2 [(.sequenceNumber, 4), (.data, 2)] = .ok ⟨.rd, [2, 4], some 4⟩ := by decide +kernel

theorem witness_FrameCrcOkMeaning : State.reset.callerIdle ∧ Frame.wellFormed ⟨.hit, [0], none⟩ = true ∧
    Frame.wellFormed ⟨.rd, [2, 4], some 5⟩ = true ∧ Config.polyOf .rd = some Config.polyRd := ⟨rfl, by decide⟩

/-- The first bit after the prefix and the last bit of a frame that verifies. -/
theorem witness_SingleBitErrorIsDetected : Frame.wellFormed ⟨.rd, [2, 4], some 4⟩ = true ∧
    crcOkFlag ⟨.rd, [2, 4], some 4⟩ = some true ∧ (Config.prefixOf .rd).2 ≤ 3 ∧ 23 < Config.frameWidth .rd := by
  decide +kernel

theorem witness_UplinkResolveMeaning : State.reset.callerIdle ∧ [(0 : Byte), 0].length ≠ 3 ∧
    [(0 : Byte), 0, 0, 0].length ≠ 3 ∧ [(0 : Byte), 0, 0].length = 3 ∧ (0xc00000#24).extractLsb' 22 2 = 0b11#2 ∧
    (0xffffff#24).extractLsb' 22 2 = 0b11#2 := ⟨rfl, by decide⟩

theorem witness_SessionOpenMeaning : opened.callerIdle ∧ State.reset.callerIdle ∧ 16 ≤ 16 ∧ 15 < 16 ∧
    opened.S.session ≠ .closed ∧ State.reset.S.session = .closed := ⟨rfl, rfl, by decide⟩

/-- A RAP command of thread 0 runs, and thread 1 is the caller. -/
def busy : State := { running .wSend (.write (.send [])) with caller := 1 }

theorem witness_SessionCloseMeaning : State.reset.callerIdle ∧ busy.callerIdle ∧ opened.callerIdle ∧
    State.reset.S.session ≠ .opened ∧ busy.S.session = .opened ∧ busy.S.rapPhase ≠ .idle ∧
    opened.S.rapPhase = .idle := ⟨rfl, rfl, rfl, by decide⟩

/-- A close that waits beside a running read; one that finds the phase free; one whose session is gone. -/
theorem witness_SessionCloseMeaning_waiting :
    (running .rAlign .closeWait).taskOf 0 = some .closeWait ∧ (running .rAlign .closeWait).S.rapPhase ≠ .idle ∧
    (running .idle .closeWait).taskOf 0 = some .closeWait ∧ (running .idle .closeWait).S.rapPhase = .idle ∧
    (running .idle .closeWait).S.session = .opened ∧
    ({ State.reset with threads := [(0, .closeWait)] } : State).taskOf 0 = some .closeWait ∧
    (running .idle .closeEnded).taskOf 0 = some .closeEnded ∧
    State.reset.S.rapPhase = .idle ∧ State.reset.S.session ≠ .opened := by decide

/-- A close before its stop, and beside it a DEMUX_READ, a write, a read and a second close that wait, the three kinds of
command that has only made its check of S.session, and a thread with none. -/
def closing : State :=
  { running .closing .closeStop with
    threads := [(0, .closeStop), (1, .demuxWait 3 1), (2, .admitWrite []), (3, .admitRead [] true), (4, .closeWait),
      (5, .apart (.demux 3 1)), (6, .apart (.write [])), (7, .apart (.read [] true)), (8, .demuxRoom (.other 1) 3)] }

/-- A close in JOIN with every worker ended, COMM halted. -/
def joined : State :=
  { faulted with S := { faulted.S with wSend := .exited, wPoll := .exited }, threads := [(0, .closeJoin)] }

/-- R244, R315, D44: what the stop step leaves in each thread. -/
theorem test_shutdownStop : (shutdownStop 0 closing).threads =
    [(0, .closeJoin), (1, .demuxEnded), (2, .admitEnded), (3, .admitEnded), (4, .closeEnded),
      (5, .apart .demuxEnded), (6, .apart .admitEnded), (7, .apart .admitEnded), (8, .demuxRoom (.other 1) 3)] := by
  decide

/-- R244's corner cases after a reopen: a second close and a RAP command that waited at the close get NOT_OPEN. -/
theorem test_waiters_of_ended_session :
    lastOf (advanceThread P 0 (running .idle .closeEnded)) = only .notOpen ∧
    (advanceThread P 0 (running .idle .closeEnded)).S = opened.S ∧
    lastOf (advanceThread P 0 (running .idle .admitEnded)) = only .notOpen := by decide

theorem witness_ShutdownAndJoin : closing.taskOf 0 = some .closeStop ∧ closing.taskOf 1 = some (.demuxWait 3 1) ∧
    closing.taskOf 2 = some (.admitWrite []) ∧ closing.taskOf 3 = some (.admitRead [] true) ∧
    closing.taskOf 4 = some .closeWait ∧ closing.taskOf 5 = some (.apart (.demux 3 1)) ∧
    closing.taskOf 6 = some (.apart (.write [])) ∧ closing.taskOf 7 = some (.apart (.read [] true)) ∧
    closing.taskOf 8 = some (.demuxRoom (.other 1) 3) ∧ closing.taskOf 9 = none ∧
    joined.taskOf 0 = some .closeJoin ∧ joined.S.wSend ≠ .running ∧ joined.S.wPoll ≠ .running ∧
    joined.S.wComm ≠ .running ∧ (running .closing .closeJoin).taskOf 0 = some .closeJoin ∧
    (running .closing .closeJoin).S.wComm = .running ∧
    ({ State.reset with threads := [(0, .closeRet .joinTimeout)] } : State).taskOf 0 =
      some (.closeRet .joinTimeout) := by decide

/-- A session that stops with a value in a receive queue. -/
def stopping : State :=
  { opened with S := { opened.S with session := .stopping, stop := true, rxq := [(3, [.other 1])] } }

/-- After the stop: a DEMUX_READ whose wait has ended, and one that meets its wait only now, both with a value queued. -/
theorem witness_ShutdownAndJoin_ended :
    ({ stopping with threads := [(0, .demuxEnded), (1, .demuxWait 3 0)] } : State).taskOf 0 = some .demuxEnded ∧
    ({ stopping with threads := [(0, .demuxEnded), (1, .demuxWait 3 0)] } : State).taskOf 1 = some (.demuxWait 3 0) ∧
    stopping.S.session ≠ .opened := by decide

theorem witness_StatusReadMeaning : State.reset.callerIdle ∧ State.reset.S.session = .closed ∧ stopping.callerIdle ∧
    stopping.S.session ≠ .closed ∧ stopping.S.rxWf = true := ⟨rfl, rfl, rfl, by decide⟩

theorem witness_RapAdmission : (State.reset.callerIdle ∧ faulted.callerIdle ∧ busy.callerIdle ∧ opened.callerIdle) ∧
    State.reset.S.session ≠ .opened ∧ faulted.S.session = .opened ∧ faulted.S.fault = true ∧
    busy.S.session = .opened ∧ busy.S.fault = false ∧ busy.S.rapPhase ≠ .idle ∧ opened.S.session = .opened ∧
    opened.S.fault = false ∧ opened.S.rapPhase = .idle := ⟨⟨rfl, rfl, rfl, rfl⟩, by decide⟩

theorem witness_RapAdmission_apart :
    (running .idle (.apart (.write []))).taskOf 0 = some (.apart (.write [])) ∧
    (running .idle (.apart (.read [] true))).taskOf 0 = some (.apart (.read [] true)) ∧
    (running .idle (.apart (.write []))).S.fault = false ∧
    ({ faulted with threads := [(0, .apart (.demux 3 0))] } : State).taskOf 0 = some (.apart (.demux 3 0)) ∧
    faulted.S.fault = true ∧ (running .rAlign (.admitWrite [])).taskOf 0 = some (.admitWrite []) ∧
    (running .rAlign (.admitRead [] true)).taskOf 0 = some (.admitRead [] true) ∧
    (running .rAlign (.admitWrite [])).S.rapPhase ≠ .idle := by decide

/-- A write and a read that have waited: the phase is free, in an open session, in a closed one, and with a fault. -/
theorem witness_RapAdmission_waited :
    (running .idle (.admitWrite [(1, 2)])).taskOf 0 = some (.admitWrite [(1, 2)]) ∧
    (running .idle (.admitRead [1] true)).taskOf 0 = some (.admitRead [1] true) ∧
    (running .idle (.admitWrite [(1, 2)])).S.rapPhase = .idle ∧
    (running .idle (.admitWrite [(1, 2)])).S.session = .opened ∧
    (running .idle (.admitWrite [(1, 2)])).S.fault = false ∧
    ({ State.reset with threads := [(0, .admitWrite [])] } : State).taskOf 0 = some (.admitWrite []) ∧
    State.reset.S.rapPhase = .idle ∧ State.reset.S.session ≠ .opened ∧
    ({ faulted with threads := [(0, .admitRead [] true)] } : State).taskOf 0 = some (.admitRead [] true) ∧
    faulted.S.rapPhase = .idle ∧ faulted.S.session = .opened ∧ faulted.S.fault = true := by decide

/-- A RAP command whose session has ended: before its check of S.fault, and waiting with the phase held and free. -/
theorem witness_RapAdmission_ended :
    (running .idle (.apart .admitEnded)).taskOf 0 = some (.apart .admitEnded) ∧
    (running .idle (.apart .admitEnded)).S.fault = false ∧
    (running .idle .admitEnded).taskOf 0 = some .admitEnded ∧ (running .idle .admitEnded).S.rapPhase = .idle ∧
    (running .closing .admitEnded).taskOf 0 = some .admitEnded ∧
    (running .closing .admitEnded).S.rapPhase ≠ .idle := by decide

/-- A write and a read before each of the two lines of ADMIT that clear. -/
theorem witness_RapAdmission_clearing :
    (running .wSend (.write (.counters []))).taskOf 0 = some (.write (.counters [])) ∧
    (running .wSend (.write (.lists []))).taskOf 0 = some (.write (.lists [])) ∧
    (running .rSend (.read 1 true (.counters [2]))).taskOf 0 = some (.read 1 true (.counters [2])) ∧
    (running .rSend (.read 1 true (.lists [2]))).taskOf 0 = some (.read 1 true (.lists [2])) := by decide

theorem witness_WriteQueuesEveryFrame :
    (running .wSend (.write (.send (writeFrames [(0x7fff, 0)])))).taskOf 0 =
      some (.write (.send (writeFrames [(0x7fff, 0)]))) ∧
    (running .wSend (.write (.send (writeFrames [(0x7fff, 0)])))).S.fault = false ∧
    (∀ o ∈ [(0x7fff, 0)], o.1 < 2 ^ 15 ∧ o.2 < 2 ^ 15) := by decide

theorem witness_ReadQueuesEveryRequest :
    (running .rSend (.read 2 true (.send [0x7fff, 0]))).taskOf 0 = some (.read 2 true (.send [0x7fff, 0])) ∧
    (running .rSend (.read 2 true (.send [0x7fff, 0]))).S.fault = false ∧
    (∀ a ∈ [0x7fff, 0], a < 2 ^ 15) := by decide

/-- A state in which a command runs in the phase `ph` and the transport has failed. -/
def failing (ph : RapPhase) (k : Task) : State :=
  { faulted with S := { faulted.S with rapPhase := ph }, threads := [(0, k)] }

/-- A write and a read before a frame, and every READ_FRAME before its wait, with the fault bit set. -/
theorem witness_fault_in_progress :
    (failing .wSend (.write (.send [(.wrData, 2)]))).taskOf 0 = some (.write (.send [(.wrData, 2)])) ∧
    (failing .rSend (.read 1 true (.send [1]))).taskOf 0 = some (.read 1 true (.send [1])) ∧
    (failing .wAck (.write (.drain .check))).taskOf 0 = some (.write (.drain .check)) ∧
    (failing .rCollect (.read 1 true (.collect 1 .check))).taskOf 0 = some (.read 1 true (.collect 1 .check)) ∧
    (failing .rDrainRd (.read 1 true (.drainRd .check))).taskOf 0 = some (.read 1 true (.drainRd .check)) ∧
    (failing .rDrainAck (.read 1 true (.drainAck .check))).taskOf 0 = some (.read 1 true (.drainAck .check)) ∧
    (failing .wAck (.write (.drain .check))).S.fault = true := by decide

theorem witness_OutOfRangePayloadEndsCommand : 2 ^ 15 ≤ 0x8000 ∧
    (running .wSend (.write (.push 1 .wrData 0x8000 []))).taskOf 0 = some (.write (.push 1 .wrData 0x8000 [])) ∧
    (running .rSend (.read 1 true (.push 1 0x8000 []))).taskOf 0 = some (.read 1 true (.push 1 0x8000 [])) := by
  decide

theorem legal_P : P.Legal := by
  refine ⟨?_, ?_, ?_, ?_, ?_, ?_, ?_, ?_⟩ <;> decide

theorem witness_QuietWriteReturnsOk : P.Legal ∧
    (running .wSend (.write (.send []))).taskOf 0 = some (.write (.send [])) ∧
    (running .wSend (.write (.send []))).S.fault = false ∧ (running .wSend (.write (.send []))).S.pendAck = [] ∧
    (running .wSend (.write (.send []))).S.rx P.ctrlSrc = [] := ⟨legal_P, by decide⟩

theorem witness_ReadFrameClassifiesAndCounts : [(0 : Byte), 0].length ≠ 3 ∧ [(0 : Byte), 0, 0, 0].length ≠ 3 ∧
    (0xc00000#24).extractLsb' 22 2 = 0b11#2 ∧ (0xffffff#24).extractLsb' 22 2 = 0b11#2 := by decide

/-- A ReadData frame of number 4 with data 2, CRC-valid or not. -/
def rdFrame (ok : Bool) : RxFrame := ⟨⟨.rd, [(2 : BitVec 15).toNat, (4 : BitVec 3).toNat], some 4⟩, ok⟩

/-- An open session with a frame of each kind set aside and a value on the control channel. -/
def stale : SessionState :=
  { opened.S with pendAck := [rdFrame true], pendRd := [rdFrame true], rxq := [(7, [.other 1])] }

theorem witness_ReadFrameClassifiesAndCounts_first : stale.pendAck = rdFrame true :: [] ∧
    stale.pendRd = rdFrame true :: [] ∧ opened.S.pendAck = [] ∧ opened.S.pendRd = [] ∧
    stale.rx P.ctrlSrc = .other 1 :: [] ∧ opened.S.rx P.ctrlSrc = [] := by decide

/-- The drain of a write: between its lines, with an Ack set aside, and with the channel quiet under a zero timeout. -/
theorem witness_ReadFrameClassifiesAndCounts_drain :
    (running .wAck (.write (.drain .start))).taskOf 0 = some (.write (.drain .start)) ∧
    readFrameStep P .ack P.tAck .start opened.S = (.more .check, opened.S) ∧
    (readFrameStep P .ack P.tAck .start stale).1 = .frame (rdFrame true) ∧
    (readFrameStep { P with tAck := 0 } .ack 0 .wait opened.S).1 = .nodata := by decide

/-- Two requests, numbers 7 and 0, and their two answers waiting on the control channel. -/
def exchange : State :=
  { running .rSend (.read 2 true (.send [])) with
    S := { opened.S with
      rapPhase := .rSend
      exp := [7, 0]
      rxq := [(7, [.bytes (frameBytes (readDataFrame 7 0x7fff)), .bytes (frameBytes (readDataFrame 0 0))])] } }

theorem witness_LosslessExchangeReturnsData : exchange.taskOf 0 = some (.read 2 true (.send [])) ∧
    exchange.S.fault = false ∧ exchange.S.pendRd = [] ∧ exchange.S.ret = [] ∧
    exchange.S.exp.length = [(0x7fff : BitVec 15), 0].length ∧ exchange.S.rxWf = true ∧
    exchange.S.rx P.ctrlSrc =
      (exchange.S.exp.zip [0x7fff, 0]).map (fun e => .bytes (frameBytes (readDataFrame e.1 e.2))) := by
  decide +kernel

/-- A read at its second guard, with as many responses as requests, one of another number. -/
def mismatch : State :=
  { running .rDrainAck (.read 2 false .guardAgain) with
    S := { opened.S with rapPhase := .rDrainAck, exp := [0, 1], ret := [(0, 5), (2, 6)] } }

theorem witness_GuardAndReadFailure :
    (running .rCollect (.read 0 false .guardFirst)).taskOf 0 = some (.read 0 false .guardFirst) ∧
    guardHolds (running .rCollect (.read 0 false .guardFirst)).S.exp
      (running .rCollect (.read 0 false .guardFirst)).S.ret = true ∧
    ({ mismatch with threads := [(0, .read 2 false .guardFirst)] } : State).taskOf 0 =
      some (.read 2 false .guardFirst) ∧
    mismatch.taskOf 0 = some (.read 2 false .guardAgain) ∧ mismatch.S.exp.length = mismatch.S.ret.length ∧
    mismatch.S.exp[1]? ≠ (mismatch.S.ret[1]?).map Prod.fst := by decide

/-- Every point of a read from its last request to its second guard, and each way its READ_FRAMEs go on: between two lines,
with a frame (CRC-valid or not), and with the channel quiet. -/
theorem witness_GuardAndReadFailure_steps :
    (running .rSend (.read 0 true (.send []))).taskOf 0 = some (.read 0 true (.send [])) ∧
    (running .rCollect (.read 2 true (.collect 2 .wait))).taskOf 0 = some (.read 2 true (.collect 2 .wait)) ∧
    (running .rCollect (.read 2 true (.collect 1 .start))).taskOf 0 = some (.read 2 true (.collect 1 .start)) ∧
    (running .rCollect (.read 2 true .toDrainRd)).taskOf 0 = some (.read 2 true .toDrainRd) ∧
    (running .rDrainRd (.read 2 true (.drainRd .wait))).taskOf 0 = some (.read 2 true (.drainRd .wait)) ∧
    (running .rDrainRd (.read 2 true .toDrainAck)).taskOf 0 = some (.read 2 true .toDrainAck) ∧
    (running .rDrainAck (.read 2 true (.drainAck .wait))).taskOf 0 = some (.read 2 true (.drainAck .wait)) ∧
    opened.S.rx P.ctrlSrc = [] ∧
    readFrameStep P .rd P.tResp .start opened.S = (.more .check, opened.S) ∧
    (readFrameStep P .rd P.tResp .start stale).1 = .frame (rdFrame true) ∧
    (readFrameStep P .rd P.tDrain .start { stale with pendRd := [rdFrame false] }).1 = .frame (rdFrame false) ∧
    (readFrameStep P .rd 0 .wait opened.S).1 = .nodata := by decide

/-- A read at its second guard, which recovery has made hold. -/
def recovered : State :=
  { running .rDrainAck (.read 2 true .guardAgain) with
    S := { opened.S with rapPhase := .rDrainAck, exp := [0, 1], ret := [(0, 5), (1, 6)] } }

theorem witness_GuardAndReadFailure_holds : recovered.taskOf 0 = some (.read 2 true .guardAgain) ∧
    guardHolds recovered.S.exp recovered.S.ret = true ∧ 2 = recovered.S.exp.length ∧
    lastOf (runThread P 0 3 recovered) = ok (.reads [some 5, some 6]) := by decide

theorem witness_AlignmentFillsResult :
    ({ mismatch with threads := [(0, .read 2 true .stepFive)] } : State).taskOf 0 = some (.read 2 true .stepFive) ∧
    mismatch.S.res = [] ∧ mismatch.S.cMatched = 0 := by decide

/-- The corner cells of a matrix of one row and of three. -/
theorem witness_ScoreMatrixRecurrence : (1 ≤ 1 ∧ 1 ≤ [5].length ∧ 1 ≤ 1 ∧ 1 ≤ [5].length) ∧
    (3 ≤ [0, 1, 2].length ∧ 2 ≤ [0, 2].length) := by decide

theorem witness_MappingIsSoundAndIncreasing : 0 < 2 ∧
    (align [0, 1, 2] [0, 2])[0]? = some (some 0) ∧ (align [0, 1, 2] [0, 2])[2]? = some (some 1) := by
  decide +kernel

theorem witness_AlignOneDeletion : 0 < [4].length ∧ 2 < [0, 1, 0].length ∧ [0, 1, 2].Nodup ∧
    (align [0, 1, 0] ([0, 1, 0].eraseIdx 2))[0]? = some (some 0) := by decide +kernel

theorem witness_AlignLostMiddle : (0 : Nat) ≠ 1 ∧ (0 : Nat) ≠ 2 ∧ (1 : Nat) ≠ 2 := by decide

theorem witness_DemuxWriteMeaning : State.reset.callerIdle ∧ faulted.callerIdle ∧ opened.callerIdle ∧
    State.reset.S.session ≠ .opened ∧ faulted.S.session = .opened ∧ faulted.S.fault = true ∧
    opened.S.session = .opened ∧ opened.S.fault = false := ⟨rfl, rfl, rfl, by decide⟩

/-- An open session with one value from source 3. -/
def received : State := { opened with S := { opened.S with rxq := [(3, [.other 1])] } }

theorem witness_DemuxReadMeaning : State.reset.S.session ≠ .opened ∧ faulted.callerIdle ∧ faulted.S.fault = true ∧
    received.callerIdle ∧ received.S.session = .opened ∧ received.S.fault = false ∧
    received.S.rx 3 = .other 1 :: [] ∧ received.S.rx 4 = [] ∧ (0 : Duration) = 0 ∧ (1 : Duration) ≠ 0 ∧
    ({ received with threads := [(0, .demuxWait 3 1)] } : State).taskOf 0 = some (.demuxWait 3 1) ∧
    ({ received with threads := [(0, .demuxWait 4 1)] } : State).taskOf 0 = some (.demuxWait 4 1) ∧
    ({ received with threads := [(0, .demuxWait 4 0)] } : State).taskOf 0 = some (.demuxWait 4 0) ∧
    ({ received with threads := [(0, .apart .demuxEnded)] } : State).taskOf 0 = some (.apart .demuxEnded) ∧
    ({ received with threads := [(0, .apart (.demux 4 0))] } : State).taskOf 0 = some (.apart (.demux 4 0)) :=
  ⟨by decide, rfl, rfl, rfl, by decide⟩

theorem witness_SendwAndPollwSteps : opened.S.wSend = .running ∧ opened.S.stage = none ∧ opened.S.sendq = [] ∧
    ({ opened.S with stage := some ⟨.other 1, 3⟩ } : SessionState).stage = some ⟨.other 1, 3⟩ ∧
    ({ opened.S with sendq := [⟨.other 1, 3⟩] } : SessionState).sendq = ⟨.other 1, 3⟩ :: [] ∧
    opened.S.wPoll = .running ∧ SessionState.reset.wSend ≠ .running ∧ SessionState.reset.wPoll ≠ .running := by
  decide

theorem witness_CommStepByPriority : faulted.S.wComm ≠ .running ∧ polling.S.wComm = .running ∧ polling.S.wrq = [] ∧
    0 < polling.S.readPending ∧ polling.S.stop = false ∧ stopping.S.wComm = .running ∧ stopping.S.wrq = [] ∧
    stopping.S.stop = true ∧ opened.S.readPending = 0 ∧
    ({ polling.S with wrq := [⟨.other 1, 3⟩] } : SessionState).wrq = ⟨.other 1, 3⟩ :: [] := by decide

theorem witness_FrameWordsCrossThePort : Instr.frameRd24 2 4 4 = .frameRd24 2 4 4 ∧
    encodeRd24 2 4 4 = 0xa000a4 ∧ polling.S.wComm = .running ∧ polling.S.wrq = [] ∧ 0 < polling.S.readPending ∧
    polling.S.stop = false ∧ opened.S.readPending = 0 ∧
    ({ opened.S with wrq := [⟨.bytes (bytesOfDown (encodeDl40 9 7 2 0x7654 0x615c)), 3⟩] } : SessionState).wrq =
      ⟨.bytes (bytesOfDown (encodeDl40 9 7 2 0x7654 0x615c)), 3⟩ :: [] ∧
    opened.S.wrq.head?.map (·.value) ≠ some (.bytes (bytesOfDown (encodeDl40 9 7 2 0x7654 0x615c))) := by
  decide +kernel

/-- An open session with an item to send, SENDW being next. -/
def sending : State := { opened with S := { opened.S with sendq := [⟨.other 1, 3⟩] }, inputs := [.sendw] }

/-- A step that answers a next state. -/
theorem step_sending : step sending =
    .next { opened with S := { opened.S with stage := some ⟨.other 1, 3⟩ } } := rfl

theorem witness_WritesAreFifo : ∃ s', step sending = .next s' := ⟨_, step_sending⟩

/-- A value from source 3 comes in; an open session in which a poll tick is next. -/
theorem witness_ReceiveQueuesKeepOrder :
    ∃ s', step { polling with inputs := [.comm .ok (.data 3 (.other 1))] } = .next s' ∧
      s'.S.rx 3 = [.other 1] := ⟨_, rfl, rfl⟩

theorem witness_ReadPendingNeverDecreases : ∃ s', step { opened with inputs := [.pollw] } = .next s' ∧
    opened.S.session = .opened ∧ s'.S.session = .opened ∧ s'.S.fault = false := ⟨_, rfl, rfl, rfl, rfl⟩

/-- R309, R311: the READ task whose TP_Read answers an error is taken and not re-armed. -/
theorem witness_ReadPendingNeverDecreases_error :
    ∃ s', step { polling with inputs := [.comm .ok (.err 5)] } = .next s' ∧ polling.S.session = .opened ∧
      s'.S.session = .opened ∧ s'.S.readPending = 0 := ⟨_, rfl, rfl, rfl, rfl⟩

/-- A session whose transport has failed, idle but for a choice to come, meets the invariant. -/
theorem faulted_inv (i : List Input) : State.Inv { faulted with inputs := i } where
  threadsWf := rfl
  rxWf := rfl
  oneHolder := fun _ _ _ _ h => nomatch h
  holderPhase := fun _ _ h => nomatch h
  phaseHolder := fun h => absurd rfl h
  holderSession := fun _ _ h => nomatch h
  closedReset := fun h => nomatch h
  stopMeansStopping := (by decide : faulted.S.stop = true ↔ faulted.S.session = .stopping)
  faultMeansHalted := (by decide : faulted.S.fault = true ↔ faulted.S.wComm = .halted)
  faultInfoHeld := rfl
  onlyCommHalts := (by decide : faulted.S.wSend ≠ .halted ∧ faulted.S.wPoll ≠ .halted)
  openWorkers := fun _ =>
    (by decide : faulted.S.wSend = .running ∧ faulted.S.wPoll = .running ∧ faulted.S.wComm ≠ .exited)
  sendwLeavesNothing := fun h => nomatch h
  commLeavesNothing := fun h => nomatch h

theorem witness_FaultIsSticky : State.Inv { faulted with inputs := [.pollw] } ∧
    (∃ s', step { faulted with inputs := [.pollw] } = .next s') ∧ faulted.S.fault = true :=
  ⟨faulted_inv _, ⟨_, rfl⟩, rfl⟩

theorem witness_OnlyCommUsesTheTransport :
    ∃ s', step { polling with inputs := [.comm .ok .nodata] } = .next s' ∧ s'.wire = [.read .nodata] := ⟨_, rfl, rfl⟩

theorem witness_SessionRegistersMoveByRule :
    ∃ s', step { running .wSend (.write (.draw .wrAddr 16 [])) with inputs := [.advance 0] } = .next s' ∧
      s'.S.seq = 1 := ⟨_, rfl, rfl⟩

/-- RST, the end of a close, and a SESSION_OPEN. -/
theorem witness_SessionRegistersMoveByRule_lifecycle :
    (∃ s', step { busy with inputs := [.rst] } = .next s' ∧ s'.S = SessionState.reset) ∧
    (∃ s', step { joined with inputs := [.advance 0] } = .next s' ∧ s'.S = SessionState.reset) ∧
    ∃ s', step { State.reset with inputs := [.issue 0 0x30 [.nat 15]] } = .next s' ∧
      s'.S = SessionState.atOpen 15 := ⟨⟨_, rfl, rfl⟩, ⟨_, rfl, rfl⟩, _, rfl, rfl⟩

theorem witness_BlockResetMeaning : ({ busy with inputs := [.rst] } : State).inputs = .rst :: [] := rfl

theorem witness_StepKeepsInvariant : State.Inv { faulted with inputs := [.sendw] } ∧
    ∃ s', step { faulted with inputs := [.sendw] } = .next s' := ⟨faulted_inv _, _, rfl⟩

end Sys2Proof.Tests
end

/-! The proofs of the family `00_scope`: what one step does with the choice at the head of the list (R7, R8, R293). -/

namespace Sys2Proof.Machine

/-! ### The decoder's errors (R8, R105, R123) -/

/-- A command's code is the one that names it (R120). -/
theorem code_of_ofCode {code : BitVec 8} {c : Command} (h : Command.ofCode code = some c) : c.code = code := by
  simpa using List.find?_some h

/-- A command is not decoded because its code is reserved, or because its operands are no value of the command type. -/
theorem decode_command_error {code : BitVec 8} {ops : List Operand} {e : DecodeError}
    (h : decode (.command code ops) = .error e) :
    e = .reservedCode code ∨ ∃ c : Command, c.code = code ∧ (e = .operandShape c ∨ e = .operandValue c) := by
  simp only [decode, decodeCommand] at h
  split at h
  · cases h
    exact .inl rfl
  · rename_i c hc
    have hcode := code_of_ofCode hc
    split at h
    · split at h
      · cases h
      · cases h
        exact .inr ⟨c, hcode, .inl rfl⟩
    · cases h
      exact .inr ⟨c, hcode, .inr rfl⟩

/-- A 24-bit word that begins `11` is no frame (R105). -/
theorem decode_up_of_leading_11 {w : BitVec 24} (h : w.extractLsb' 22 2 = 0b11#2) :
    decode (.up w) = .error (.noFrame w) := by
  have h23 : w.getLsbD 23 = true := by simpa using congrArg (·.getLsbD 1) h
  have h22 : w.getLsbD 22 = true := by simpa using congrArg (·.getLsbD 0) h
  have hHit : w.extractLsb' 23 1 ≠ 0#1 := ne_of_apply_ne (·.getLsbD 0) (by simp [h23])
  have hAck : w.extractLsb' 21 3 ≠ 0b100#3 := ne_of_apply_ne (·.getLsbD 1) (by simp [h22])
  have hRd : w.extractLsb' 21 3 ≠ 0b101#3 := ne_of_apply_ne (·.getLsbD 1) (by simp [h22])
  simp only [decode, decodeUp, if_neg hHit, if_neg hAck, if_neg hRd]

/-! ### Executing never stops (R342) -/

/-- A pure command always ends in its step. -/
theorem answerPure_next (s : State) (r : Except ConstructionError Result) : ∃ s', s.answerPure r = .next s' := by
  cases r with
  | ok x => exact ⟨_, rfl⟩
  | error e => exact ⟨_, rfl⟩

/-- Every instruction has a meaning that answers a next state: an error the spec names is a status, never a stop. -/
theorem exec_next (i : Instr) (s : State) : ∃ s', exec i s = .next s' := by
  cases i with
  | bvFromValue | bvToBytes | bvPopLeft | bvPopRight | polyNew | polyToRepr | crc | frameBuild | frameBuildCrc
  | frameCrcOk | uplinkResolve => exact answerPure_next s _
  | bvFromBytes b => exact answerPure_next s ((bvFromBytes b).map .bv)
  | bvAppendRight a b => exact answerPure_next s ((bvAppendRight a b).map .bv)
  | bvAppendLeft a b => exact answerPure_next s ((bvAppendLeft a b).map .bv)
  | bvConcat a b => exact answerPure_next s ((bvConcat a b).map .bv)
  | frameDecode type v =>
    simp only [exec, execFrameDecode]
    split
    · exact answerPure_next s _
    · split
      · exact answerPure_next s _
      · exact ⟨_, rfl⟩
      · exact answerPure_next s _
  | sessionOpen chip =>
    simp only [exec, execSessionOpen]
    split
    · exact ⟨_, rfl⟩
    · split <;> exact ⟨_, rfl⟩
  | statusRead =>
    simp only [exec, execStatusRead]
    split <;> exact ⟨_, rfl⟩
  | demuxRead source timeout =>
    simp only [exec, execDemuxRead]
    split <;> exact ⟨_, rfl⟩
  | bvToValue | bvReverse | bvEq | bvLen | frameEncode | sessionClose | writeRegisters | readRegisters | demuxWrite
  | frameDl40 | frameAck24 | frameRd24 | frameHit24 => exact ⟨_, rfl⟩

/-- Taken with its lines apart, an instruction answers a next state as well. -/
theorem execApart_next (i : Instr) (s : State) : ∃ s', execApart i s = .next s' := by
  simp only [execApart]
  split
  · exact ⟨_, rfl⟩
  · exact exec_next i s

/-! ### Issue apart (R241, R301) -/

/-- An instruction that does not block is executed. -/
theorem execApart_of_none {i : Instr} (h : apartOf i = none) (s : State) : execApart i s = exec i s := by
  simp only [execApart, h]

/-- A blocking command in an open session has passed its check of S.session and keeps the rest for later. -/
theorem execApart_opened {i : Instr} {c : Apart} (h : apartOf i = some c) {s : State}
    (hs : s.S.session = .opened) : execApart i s = .next (s.setTask s.caller (.apart c)) := by
  simp [execApart, h, hs]

/-- A blocking command of an idle thread outside OPEN ends with NOT_OPEN. -/
theorem execApart_notOpen {i : Instr} {c : Apart} (h : apartOf i = some c) {s : State}
    (hidle : s.taskOf s.caller = none) (hs : s.S.session ≠ .opened) :
    execApart i s = .next { s with out := s.out ++ [(s.caller, ⟨.notOpen, .none⟩)] } := by
  simp [execApart, h, hs, takeException_idle hidle]

/-! ### A thread issues a command (R8) -/

section
variable {run : Instr → State → Host.Outcome State Fault Refusal} {t : ThreadId} {code : BitVec 8}
  {ops : List Operand} {s : State}

/-- A thread with a command outstanding issues none. -/
theorem issueBy_busy (h : s.taskOf t ≠ none) : issueBy run t code ops s = .next s := by
  rw [issueBy, if_pos (Option.isSome_iff_ne_none.mpr h)]

/-- An idle thread is the caller of the instruction its command decodes to. -/
theorem issueBy_decoded (h : s.taskOf t = none) {i : Instr} (hd : decode (.command code ops) = .ok i) :
    issueBy run t code ops s = run i { s with caller := t } := by
  simp [issueBy, h, hd]

/-- A reserved code of an idle thread is answered with ILLEGAL_COMMAND (R338). -/
theorem issueBy_reserved (h : s.taskOf t = none) {c : BitVec 8}
    (hd : decode (.command code ops) = .error (.reservedCode c)) :
    issueBy run t code ops s = .next { s with caller := t, out := s.out ++ [(t, ⟨.illegalCommand c, .none⟩)] } := by
  have hidle : ({ s with caller := t } : State).taskOf t = none := h
  simp [issueBy, h, hd, takeException_idle hidle]

/-- Operands of an idle thread that are no value of the command type are no command (assumption log 3). -/
theorem issueBy_refused (h : s.taskOf t = none) {e : DecodeError} {c : Command}
    (he : e = .operandShape c ∨ e = .operandValue c) (hd : decode (.command code ops) = .error e) :
    issueBy run t code ops s = .refused (.notACommand e) := by
  rcases he with rfl | rfl <;> simp [issueBy, h, hd]

/-- A command issued is answered with a next state, or an idle thread brought operands that are no value of the command
type. -/
theorem issueBy_next_or_refused (hrun : ∀ i s, ∃ s', run i s = .next s') :
    (∃ s', issueBy run t code ops s = .next s') ∨
    (s.taskOf t = none ∧ ∃ e, ∃ c : Command, c.code = code ∧ (e = .operandShape c ∨ e = .operandValue c) ∧
      decode (.command code ops) = .error e ∧ issueBy run t code ops s = .refused (.notACommand e)) := by
  by_cases h : s.taskOf t = none
  · cases hd : decode (.command code ops) with
    | ok i =>
      rw [issueBy_decoded h hd]
      exact .inl (hrun i _)
    | error e =>
      rcases decode_command_error hd with rfl | ⟨c, hc, he⟩
      · exact .inl ⟨_, issueBy_reserved h hd⟩
      · exact .inr ⟨h, e, c, hc, he, rfl, issueBy_refused h he hd⟩
  · exact .inl ⟨_, issueBy_busy h⟩

end

/-! ### A frame word crosses the port (R105, R311) -/

/-- A 24-bit word that decodes is executed. -/
theorem uplinkWord_decoded {w : BitVec 24} {i : Instr} (h : decode (.up w) = .ok i) (s : State) :
    uplinkWord w s = exec i s := by
  simp only [uplinkWord, h]

/-- A 24-bit word that is no frame is routed like any other value. -/
theorem uplinkWord_noFrame {w : BitVec 24} {e : DecodeError} (h : decode (.up w) = .error e) (s : State) :
    uplinkWord w s = .next (uplinkCrosses w s) := by
  simp only [uplinkWord, h]

/-- A 24-bit word never stops the machine. -/
theorem uplinkWord_next (w : BitVec 24) (s : State) : ∃ s', uplinkWord w s = .next s' := by
  cases h : decode (.up w) with
  | ok i =>
    rw [uplinkWord_decoded h]
    exact exec_next i s
  | error e => exact ⟨_, uplinkWord_noFrame h s⟩

/-- A 40-bit word that decodes is executed. -/
theorem downlinkWord_decoded {w : BitVec 40} {i : Instr} (h : decode (.down w) = .ok i) (s : State) :
    downlinkWord w s = exec i s := by
  simp only [downlinkWord, h]

/-- An uplink word where COMM may read is what the READ returns on CTRL_SRC, and the READ task is re-armed. -/
theorem uplinkCrosses_of_reads {s : State} (h : s.S.commReads = true) (w : BitVec 24) :
    uplinkCrosses w s = (s.withS (s.S.pushRx Config.ctrlSrc (.bytes (bytesOfUp w)))).record
      (.read (.data Config.ctrlSrc (.bytes (bytesOfUp w)))) := by
  rw [uplinkCrosses, if_pos h]
  rcases commTakeRead_cases h (.data Config.params.ctrlSrc (.bytes (bytesOfUp w))) with
    ⟨ha, -⟩ | ⟨src, v, ha, e⟩ | ⟨info, ha, -⟩
  · cases ha
  · cases ha
    exact e
  · cases ha

/-- An uplink word where COMM may not read changes nothing. -/
theorem uplinkCrosses_of_not_reads {s : State} (h : s.S.commReads ≠ true) (w : BitVec 24) : uplinkCrosses w s = s := by
  rw [uplinkCrosses, if_neg h]

/-! ### One step (R293) -/

/-- With a choice left, a step is what that choice does with the choice used up. -/
theorem step_cons {s : State} {i : Input} {rest : List Input} (h : s.inputs = i :: rest) :
    step s = stepInput Config.params i { s with inputs := rest } := stepWith_cons h

/-- The step of a command in a thread that has none in progress changes nothing. -/
theorem advanceThread_idle (P : Config.Params) {s : State} {t : ThreadId} (h : s.taskOf t = none) :
    advanceThread P t s = s := by
  simp only [advanceThread, h]

/-- The timeout of a command in a thread that has none in progress changes nothing. -/
theorem timeoutThread_idle (P : Config.Params) {s : State} {t : ThreadId} (h : s.taskOf t = none) :
    timeoutThread P t s = s := by
  simp only [timeoutThread, h]

/-- A choice is answered with a next state, or it is an idle thread's, with operands that are no value of the command
type. -/
theorem stepInput_next_or_refused (P : Config.Params) (i : Input) (s : State) :
    (∃ s', stepInput P i s = .next s') ∨
    ∃ t code ops e, ∃ c : Command, (i = .issue t code ops ∨ i = .issueApart t code ops) ∧ s.taskOf t = none ∧
      c.code = code ∧ (e = .operandShape c ∨ e = .operandValue c) ∧ decode (.command code ops) = .error e ∧
      stepInput P i s = .refused (.notACommand e) := by
  cases i with
  | issue t code ops =>
    rcases issueBy_next_or_refused (t := t) (code := code) (ops := ops) (s := s) exec_next with
      h | ⟨ht, e, c, hc, he, hd, hr⟩
    · exact .inl h
    · exact .inr ⟨t, code, ops, e, c, .inl rfl, ht, hc, he, hd, hr⟩
  | issueApart t code ops =>
    rcases issueBy_next_or_refused (t := t) (code := code) (ops := ops) (s := s) execApart_next with
      h | ⟨ht, e, c, hc, he, hd, hr⟩
    · exact .inl h
    · exact .inr ⟨t, code, ops, e, c, .inr rfl, ht, hc, he, hd, hr⟩
  | down w => exact .inl (exec_next (decodeDown w) s)
  | up w => exact .inl (uplinkWord_next w s)
  | advance | timeout | sendw | pollw | comm | rst => exact .inl ⟨_, rfl⟩

/-- Settles O60: no instruction stops the machine, and a choice that is no instruction is refused only at issue. -/
theorem stepStopsOnlyAtNoCommand : Obligations.StepStopsOnlyAtNoCommand := by
  unfold Obligations.StepStopsOnlyAtNoCommand
  intro s
  cases hs : s.inputs with
  | nil => exact .inl ⟨s, stepWith_nil hs⟩
  | cons i rest =>
    rw [step_cons hs]
    rcases stepInput_next_or_refused Config.params i { s with inputs := rest } with
      h | ⟨t, code, ops, e, c, hi, ht, hc, he, hd, hr⟩
    · exact .inl h
    · exact .inr ⟨t, code, ops, rest, e, c, by simpa using hi, ht, hc, he, hd, hr⟩

/-- Both refusals of O60 happen: BV_LEN with no operand, and POLY_TO_REPR of a polynomial of degree 0 (R170). -/
theorem step_refuses_shape_and_value :
    step { State.reset with inputs := [.issue 0 0x0C []] } = .refused (.notACommand (.operandShape .bvLen)) ∧
    step { State.reset with inputs := [.issueApart 0 0x11 [.poly ⟨0, 0⟩, .nat 0]] } =
      .refused (.notACommand (.operandValue .polyToRepr)) := ⟨rfl, rfl⟩

/-! ### A step by the choice at the head of the list -/

section
variable {s : State} {rest : List Input} {t : ThreadId} {code : BitVec 8} {ops : List Operand} {i : Instr}

/-- A command of an idle thread is executed in the step in which it is issued. -/
theorem step_issue_decoded (h : s.inputs = .issue t code ops :: rest) (ht : s.taskOf t = none)
    (hd : decode (.command code ops) = .ok i) : step s = exec i { s with inputs := rest, caller := t } := by
  rw [step_cons h]
  exact issueBy_decoded (s := { s with inputs := rest }) ht hd

/-- A command of an idle thread issued apart is taken apart in that step. -/
theorem step_issueApart_decoded (h : s.inputs = .issueApart t code ops :: rest) (ht : s.taskOf t = none)
    (hd : decode (.command code ops) = .ok i) : step s = execApart i { s with inputs := rest, caller := t } := by
  rw [step_cons h]
  exact issueBy_decoded (s := { s with inputs := rest }) ht hd

/-- A command of a thread that has one outstanding is not taken (R8). -/
theorem step_issue_busy (h : s.inputs = .issue t code ops :: rest ∨ s.inputs = .issueApart t code ops :: rest)
    (ht : s.taskOf t ≠ none) : step s = .next { s with inputs := rest } := by
  rcases h with h | h <;> rw [step_cons h] <;> exact issueBy_busy (s := { s with inputs := rest }) ht

/-- The step or the timeout of a thread that has no command in progress changes nothing. -/
theorem step_thread_idle (h : s.inputs = .advance t :: rest ∨ s.inputs = .timeout t :: rest)
    (ht : s.taskOf t = none) : step s = .next { s with inputs := rest } := by
  have hidle : ({ s with inputs := rest } : State).taskOf t = none := ht
  rcases h with h | h <;> rw [step_cons h]
  · exact congrArg _ (advanceThread_idle _ hidle)
  · exact congrArg _ (timeoutThread_idle _ hidle)

/-- A 24-bit word that begins `11` is routed in its step (R105, R311). -/
theorem step_up_noFrame {w : BitVec 24} (h : s.inputs = .up w :: rest) (hw : w.extractLsb' 22 2 = 0b11#2) :
    step s = .next (uplinkCrosses w { s with inputs := rest }) := by
  rw [step_cons h]
  exact uplinkWord_noFrame (decode_up_of_leading_11 hw) _

end

/-- COMM may not read where one of the four conditions of R309 fails. -/
theorem not_commReads_iff (S : SessionState) :
    S.commReads ≠ true ↔ S.wComm ≠ .running ∨ S.wrq ≠ [] ∨ S.readPending = 0 ∨ S.stop = true := by
  rw [Ne, commReads_iff]
  simp only [not_and_or, Nat.pos_iff_ne_zero, not_not, Bool.not_eq_false, ne_eq]

/-- Settles O5, one choice at a time. -/
theorem stepRunsDecodedInstruction : Obligations.StepRunsDecodedInstruction := by
  unfold Obligations.StepRunsDecodedInstruction
  refine ⟨fun s i rest => ⟨?issue, ?apart, ?up, ?down⟩, fun s rest =>
    ⟨stepWith_nil, ?advance, ?timeout, ?sendw, ?pollw, ?comm, ?busy, ?idle, ?noFrame⟩⟩
  case issue => exact fun t code ops h ht hd => step_issue_decoded h ht hd
  case apart =>
    intro t code ops h ht hd
    rw [step_issueApart_decoded h ht hd]
    exact ⟨fun hn => execApart_of_none hn _, fun c hc hs => execApart_opened hc hs,
      fun c hc hs => execApart_notOpen hc ht hs⟩
  case up =>
    intro w h hd
    rw [step_cons h]
    exact uplinkWord_decoded hd _
  case down =>
    intro w h hd
    rw [step_cons h]
    exact downlinkWord_decoded hd _
  case advance => exact fun t h => step_cons h
  case timeout => exact fun t h => step_cons h
  case sendw => exact fun h => step_cons h
  case pollw => exact fun h => step_cons h
  case comm => exact fun x y h => step_cons h
  case busy => exact fun t code ops h ht => step_issue_busy h ht
  case idle => exact fun t h ht => step_thread_idle h ht
  case noFrame =>
    intro w h hw
    rw [step_up_noFrame h hw]
    exact ⟨fun hrun hq hp hstop =>
        congrArg _ (uplinkCrosses_of_reads (s := { s with inputs := rest })
          ((commReads_iff _).mpr ⟨hrun, hq, hp, hstop⟩) w),
      fun hno => congrArg _ (uplinkCrosses_of_not_reads (s := { s with inputs := rest })
        ((not_commReads_iff _).mpr hno) w)⟩

end Sys2Proof.Machine

/-! The proofs of the family `10_state`: the session registers, STATUS_READ, the transport fault, the invariant, and the
exchange in which every request is answered. -/

namespace Sys2Proof.Machine

/-! ### What the workers' steps leave unchanged (R305, R307) -/

/-- SENDW touches its queue, its stage, S.wrq and its own state. -/
theorem sendwStep_touches (S : SessionState) :
    ∃ q st wq w, sendwStep S = { S with sendq := q, stage := st, wrq := wq, wSend := w } := by
  rcases sendwStep_cases S with e | ⟨-, item, -, e⟩ | ⟨-, -, item, q, -, e⟩ | ⟨-, -, -, -, e⟩ <;> rw [e]
  · exact ⟨S.sendq, S.stage, S.wrq, S.wSend, rfl⟩
  · exact ⟨S.sendq, none, _, S.wSend, rfl⟩
  · exact ⟨q, some item, S.wrq, S.wSend, rfl⟩
  · exact ⟨S.sendq, S.stage, S.wrq, .exited, rfl⟩

/-- POLLW touches its own state, or counts one READ task more. -/
theorem pollwStep_touches (S : SessionState) :
    ∃ n w, S.readPending ≤ n ∧ pollwStep S = { S with readPending := n, wPoll := w } := by
  rcases pollwStep_cases S with e | ⟨-, -, e⟩ | ⟨-, -, e⟩ <;> rw [e]
  · exact ⟨S.readPending, S.wPoll, le_rfl, rfl⟩
  · exact ⟨S.readPending, .exited, le_rfl, rfl⟩
  · exact ⟨S.readPending + 1, S.wPoll, Nat.le_succ _, rfl⟩

section
variable {P : Config.Params} {s : State} {i : Input} {S' : SessionState} {wire : List TpEvent}

/-! ### The session registers (R34 to R36) -/

/-- How one move takes S.session, S.chip_addr and S.seq on. -/
theorem Move.registers (hm : Move P s i S' wire) :
    (S' = SessionState.reset ∧ (i = .rst ∨ ∃ t, s.taskOf t = some .closeJoin ∧ (i = .advance t ∨ i = .timeout t))) ∨
    (s.S.session = .closed ∧ ∃ t code ops a, (i = .issue t code ops ∨ i = .issueApart t code ops) ∧
      s.taskOf t = none ∧ decode (.command code ops) = .ok (.sessionOpen a) ∧ a < 16 ∧
      S' = SessionState.atOpen (BitVec.ofNat 4 a)) ∨
    (S'.chipAddr = s.S.chipAddr ∧
      (S'.session = s.S.session ∨
        (S'.session = .stopping ∧ ∃ t, i = .advance t ∧ s.taskOf t = some .closeStop)) ∧
      (S'.seq = s.S.seq ∨ (S'.seq = s.S.seq + 1 ∧ ∃ t, i = .advance t ∧
        ((∃ rt payload frames, s.taskOf t = some (.write (.draw rt payload frames))) ∨
          ∃ n al a addrs, s.taskOf t = some (.read n al (.draw a addrs)))))) := by
  cases hm with
  | reset hi => exact .inl ⟨rfl, hi⟩
  | opening t code ops a hi ht hd ha hs => exact .inr (.inl ⟨hs, t, code, ops, a, hi, ht, hd, ha, rfl⟩)
  | draw t hi ht => exact .inr (.inr ⟨rfl, .inl rfl, .inr ⟨rfl, t, hi, ht⟩⟩)
  | stop t hi ht => exact .inr (.inr ⟨rfl, .inr ⟨rfl, t, hi, ht⟩, .inl rfl⟩)
  | sendw =>
    obtain ⟨q, st, wq, w, e⟩ := sendwStep_touches s.S
    rw [e]
    exact .inr (.inr ⟨rfl, .inl rfl, .inl rfl⟩)
  | pollw =>
    obtain ⟨n, w, -, e⟩ := pollwStep_touches s.S
    rw [e]
    exact .inr (.inr ⟨rfl, .inl rfl, .inl rfl⟩)
  | transaction | pop | push | write | writeFault | readNothing | readValue | readFault | commExit =>
    exact .inr (.inr ⟨rfl, .inl rfl, .inl rfl⟩)

/-! ### Pending READ tasks (R50, R308) -/

/-- How one move that stays in OPEN takes S.read_pending on (assumption log 13). -/
theorem Move.readPending (hm : Move P s i S' wire) (hs : s.S.session = .opened) (hs' : S'.session = .opened) :
    s.S.readPending ≤ S'.readPending ∨
    ∃ info, wire = s.wire ++ [.read (.err info)] ∧ S'.readPending + 1 = s.S.readPending ∧
      S'.fault = true ∧ S'.faultInfo = some info ∧ S'.wComm = .halted := by
  cases hm with
  | readFault info hi hr =>
    obtain ⟨-, -, hpos, -⟩ := (commReads_iff _).mp hr
    exact .inr ⟨info, rfl, Nat.sub_add_cancel hpos, rfl, rfl, rfl⟩
  | reset | stop => cases hs'
  | opening t code ops a hi ht hd ha hc => exact nomatch hc.symm.trans hs
  | sendw =>
    obtain ⟨q, st, wq, w, e⟩ := sendwStep_touches s.S
    exact .inl (by rw [e])
  | pollw =>
    obtain ⟨n, w, hn, e⟩ := pollwStep_touches s.S
    exact .inl (by rw [e]; exact hn)
  | transaction | pop | push | draw | write | writeFault | readNothing | readValue | commExit => exact .inl le_rfl

/-! ### The transport fault (R313) -/

/-- With a fault, COMM being HALTED, no move crosses the transport port, and the fault stays with its info until every
item takes its reset value. -/
theorem Move.fault_sticky (hm : Move P s i S' wire) (hf : s.S.fault = true) (hc : s.S.wComm = .halted)
    (hclosed : s.S.session ≠ .closed) :
    wire = s.wire ∧ ((S'.fault = true ∧ S'.faultInfo = s.S.faultInfo) ∨ S' = SessionState.reset) := by
  have notRunning : s.S.wComm ≠ .running := by simp [hc]
  have noRead : s.S.commReads ≠ true := fun hr => notRunning ((commReads_iff _).mp hr).1
  cases hm with
  | reset => exact ⟨rfl, .inr rfl⟩
  | opening t code ops a hi ht hd ha hs => exact absurd hs hclosed
  | write item rest hi hw | writeFault item rest info hi hw | commExit hi hw => exact absurd hw notRunning
  | readNothing hi hr | readValue src v hi hr | readFault info hi hr => exact absurd hr noRead
  | sendw =>
    obtain ⟨q, st, wq, w, e⟩ := sendwStep_touches s.S
    rw [e]
    exact ⟨rfl, .inl ⟨hf, rfl⟩⟩
  | pollw =>
    obtain ⟨n, w, -, e⟩ := pollwStep_touches s.S
    rw [e]
    exact ⟨rfl, .inl ⟨hf, rfl⟩⟩
  | transaction | pop | push | draw | stop => exact ⟨rfl, .inl ⟨hf, rfl⟩⟩

end

/-- Settles O56, move by move. -/
theorem sessionRegistersMoveByRule : Obligations.SessionRegistersMoveByRule := by
  unfold Obligations.SessionRegistersMoveByRule
  intro s s' h
  rcases step_move h with ⟨rfl, -⟩ | ⟨i, rest, hi, hm⟩
  · exact .inr (.inr ⟨rfl, .inl rfl, .inl rfl⟩)
  rw [hi]
  rcases hm.registers with ⟨hS, rfl | ⟨t, ht, hc⟩⟩ | ⟨hs, t, code, ops, a, hc, ht, hd, ha, hS⟩ | ⟨hchip, hsess, hseq⟩
  · exact .inl ⟨hS, rest, .inl rfl⟩
  · exact .inl ⟨hS, rest, .inr ⟨t, ht, by simpa using hc⟩⟩
  · exact .inr (.inl ⟨hs, t, code, ops, a, rest, by simpa using hc, ht, hd, ha, hS⟩)
  · refine .inr (.inr ⟨hchip, hsess.imp_right ?_, hseq.imp_right ?_⟩)
    · rintro ⟨hstop, t, rfl, ht⟩
      exact ⟨hstop, t, rest, rfl, ht⟩
    · rintro ⟨hone, t, rfl, ht⟩
      exact ⟨hone, t, rest, rfl, ht⟩

/-- Settles O53: the one move in OPEN that lowers S.read_pending is the TP_Read that answers an error. -/
theorem readPendingNeverDecreases : Obligations.ReadPendingNeverDecreases := by
  unfold Obligations.ReadPendingNeverDecreases
  intro s s' h hs hs'
  rcases step_move h with ⟨rfl, -⟩ | ⟨i, rest, -, hm⟩
  · exact .inl le_rfl
  · exact hm.readPending hs hs'

/-- A fault is held only while a session is open or stopping. -/
theorem State.Inv.not_closed_of_fault {s : State} (h : s.Inv) (hf : s.S.fault = true) : s.S.session ≠ .closed := by
  intro hc
  rw [h.closedReset hc] at hf
  cases hf

/-- Settles O54: a fault means that COMM is HALTED, and only COMM RUNNING moves the port. -/
theorem faultIsSticky : Obligations.FaultIsSticky := by
  unfold Obligations.FaultIsSticky
  intro s s' hs h hf
  rcases step_move h with ⟨rfl, -⟩ | ⟨i, rest, -, hm⟩
  · exact ⟨rfl, .inl ⟨hf, rfl⟩⟩
  · exact hm.fault_sticky hf (hs.faultMeansHalted.mp hf) (hs.not_closed_of_fault hf)

/-! ### STATUS_READ (R42) -/

/-- In canonical form the listed queues are the non-empty ones. -/
theorem mem_rxq_iff {S : SessionState} (h : S.rxWf = true) {src : Chan} {q : List Value} :
    (src, q) ∈ S.rxq ↔ S.rx src = q ∧ q ≠ [] := by
  simp only [SessionState.rxWf, Bool.and_eq_true, List.all_eq_true] at h
  obtain ⟨hwf, hne⟩ := h
  rw [← assocGet_iff_mem hwf, SessionState.rx]
  constructor
  · intro hq
    have := hne _ (assocGet_mem hq)
    exact ⟨by simp [hq], by simpa using this⟩
  · rintro ⟨rfl, hq⟩
    cases hg : assocGet src S.rxq with
    | none => simp [hg] at hq
    | some q => rfl

/-- The lengths STATUS_READ lists are those of the non-empty queues. -/
theorem mem_rxLens_iff {S : SessionState} (h : S.rxWf = true) {src : Chan} {n : Nat} :
    (src, n) ∈ S.statusRecord.rxLens ↔ n = (S.rx src).length ∧ S.rx src ≠ [] := by
  simp only [SessionState.statusRecord, List.mem_map, Prod.mk.injEq]
  constructor
  · rintro ⟨⟨src', q⟩, hm, rfl, rfl⟩
    obtain ⟨rfl, hq⟩ := (mem_rxq_iff h).mp hm
    exact ⟨rfl, hq⟩
  · rintro ⟨rfl, hq⟩
    exact ⟨(src, S.rx src), (mem_rxq_iff h).mpr ⟨rfl, hq⟩, rfl, rfl⟩

/-- STATUS_READ lists no source twice. -/
theorem rxLens_nodup {S : SessionState} (h : S.rxWf = true) : S.statusRecord.rxLens.Nodup := by
  simp only [SessionState.rxWf, Bool.and_eq_true] at h
  refine List.Nodup.of_map Prod.fst ?_
  simpa [SessionState.statusRecord, Function.comp_def] using assocWf_keys_nodup h.1

/-- STATUS_READ of an idle thread in CLOSED answers the record of the reset state. -/
theorem execStatusRead_closed {s : State} (hidle : s.callerIdle) (h : s.S.session = .closed) :
    exec .statusRead s = .next (s.answered .ok (.status SessionState.reset.statusRecord)) := by
  simp only [exec, execStatusRead, h]
  exact congrArg _ (finish_idle hidle _)

/-- STATUS_READ of an idle thread outside CLOSED answers the record of the session state. -/
theorem execStatusRead_session {s : State} (hidle : s.callerIdle) (h : s.S.session ≠ .closed) :
    exec .statusRead s = .next (s.answered .ok (.status s.S.statusRecord)) := by
  simp only [exec, execStatusRead]
  split
  · rename_i hc
    exact absurd hc h
  · exact congrArg _ (finish_idle hidle _)
  · exact congrArg _ (finish_idle hidle _)

/-- Settles O31. -/
theorem statusReadMeaning : Obligations.StatusReadMeaning := by
  unfold Obligations.StatusReadMeaning
  exact fun s hidle => ⟨fun hc => execStatusRead_closed hidle hc, fun hc hwf =>
    ⟨s.S.statusRecord.rxLens, rxLens_nodup hwf, fun _ _ => mem_rxLens_iff hwf, execStatusRead_session hidle hc⟩⟩

/-! ### The polynomials of the ROM (R30, R180) -/

/-- Settles O19: seven closed values. -/
theorem romPolynomials : Obligations.RomPolynomials := by
  unfold Obligations.RomPolynomials
  refine ⟨rfl, rfl, rfl, ?_, ?_, ?_, rfl⟩ <;> decide

/-! ### The invariant in three parts: the session state, the owner of the phase, and the sessions of the commands -/

/-- The clauses of the invariant that speak of the session state alone. -/
structure SessionState.Wf (S : SessionState) : Prop where
  rxWf : S.rxWf = true
  closedReset : S.session = .closed → S = SessionState.reset
  stopMeansStopping : S.stop = true ↔ S.session = .stopping
  faultMeansHalted : S.fault = true ↔ S.wComm = .halted
  faultInfoHeld : S.faultInfo.isSome = S.fault
  onlyCommHalts : S.wSend ≠ .halted ∧ S.wPoll ≠ .halted
  openWorkers : S.session = .opened → S.wSend = .running ∧ S.wPoll = .running ∧ S.wComm ≠ .exited
  sendwLeavesNothing : S.wSend = .exited → S.sendq = [] ∧ S.stage = none
  commLeavesNothing : S.wComm = .exited → S.wSend = .exited ∧ S.wrq = []

/-- The phases S.rap_phase may have for the sake of the command in progress in a thread; none where it needs none. -/
def State.phasesOf (s : State) (t : ThreadId) : List RapPhase := ((s.taskOf t).map Task.phases).getD []

theorem phasesOf_of_task {s : State} {t : ThreadId} {k : Task} (h : s.taskOf t = some k) :
    s.phasesOf t = k.phases := by
  simp [State.phasesOf, h]

theorem phasesOf_of_idle {s : State} {t : ThreadId} (h : s.taskOf t = none) : s.phasesOf t = [] := by
  simp [State.phasesOf, h]

/-- The phase is IDLE and no command holds it, or exactly one thread's command does (R38, R249). -/
def State.PhaseOwned (s : State) : Prop :=
  (s.S.rapPhase = .idle ∧ ∀ t, s.phasesOf t = []) ∨
  ∃ t, s.S.rapPhase ∈ s.phasesOf t ∧ ∀ t', t' ≠ t → s.phasesOf t' = []

/-- No command holds the phase IDLE. -/
theorem idle_not_mem_phases (k : Task) : RapPhase.idle ∉ k.phases := by
  unfold Task.phases
  split <;> decide

theorem idle_not_mem_phasesOf (s : State) (t : ThreadId) : RapPhase.idle ∉ s.phasesOf t := by
  cases h : s.taskOf t with
  | none => simp [phasesOf_of_idle h]
  | some k => simpa [phasesOf_of_task h] using idle_not_mem_phases k

theorem exists_task_of_phasesOf {s : State} {t : ThreadId} (h : s.phasesOf t ≠ []) :
    ∃ k, s.taskOf t = some k ∧ k.phases ≠ [] := by
  cases hk : s.taskOf t with
  | none => exact absurd (phasesOf_of_idle hk) h
  | some k => exact ⟨k, rfl, phasesOf_of_task hk ▸ h⟩

/-- The owner of the phase is what the three clauses on its holders say. -/
theorem State.Inv.phaseOwned {s : State} (h : s.Inv) : s.PhaseOwned := by
  have only : ∀ t k, s.taskOf t = some k → k.phases ≠ [] → ∀ t', t' ≠ t → s.phasesOf t' = [] := by
    intro t k hk hp t' hne
    by_contra hp'
    obtain ⟨k', hk', hp'⟩ := exists_task_of_phasesOf hp'
    exact hne (h.oneHolder t' t k' k hk' hk hp' hp)
  by_cases hidle : s.S.rapPhase = .idle
  · refine .inl ⟨hidle, fun t => ?_⟩
    by_contra hp
    obtain ⟨k, hk, hp⟩ := exists_task_of_phasesOf hp
    exact idle_not_mem_phases k (hidle ▸ h.holderPhase t k hk hp)
  · obtain ⟨t, k, hk, hp⟩ := h.phaseHolder hidle
    exact .inr ⟨t, phasesOf_of_task hk ▸ h.holderPhase t k hk hp, only t k hk hp⟩

/-- The session-state part of the invariant. -/
theorem State.Inv.sessionWf {s : State} (h : s.Inv) : s.S.Wf where
  rxWf := h.rxWf
  closedReset := h.closedReset
  stopMeansStopping := h.stopMeansStopping
  faultMeansHalted := h.faultMeansHalted
  faultInfoHeld := h.faultInfoHeld
  onlyCommHalts := h.onlyCommHalts
  openWorkers := h.openWorkers
  sendwLeavesNothing := h.sendwLeavesNothing
  commLeavesNothing := h.commLeavesNothing

/-- The parts make the invariant. -/
theorem State.Inv.of_parts {s : State} (hthreads : assocWf s.threads = true) (hwf : s.S.Wf) (hown : s.PhaseOwned)
    (hfits : ∀ t k, s.taskOf t = some k → k.sessionFits s.S) : s.Inv where
  threadsWf := hthreads
  rxWf := hwf.rxWf
  oneHolder := by
    intro t t' k k' hk hk' hp hp'
    rw [← phasesOf_of_task hk] at hp
    rw [← phasesOf_of_task hk'] at hp'
    rcases hown with ⟨-, hnone⟩ | ⟨u, -, honly⟩
    · exact absurd (hnone t) hp
    · exact (not_imp_comm.mp (honly t) hp).trans (not_imp_comm.mp (honly t') hp').symm
  holderPhase := by
    intro t k hk hp
    rw [← phasesOf_of_task hk] at hp ⊢
    rcases hown with ⟨-, hnone⟩ | ⟨u, hu, honly⟩
    · exact absurd (hnone t) hp
    · obtain rfl := not_imp_comm.mp (honly t) hp
      exact hu
  phaseHolder := by
    intro hbusy
    rcases hown with ⟨hidle, -⟩ | ⟨t, ht, -⟩
    · exact absurd hidle hbusy
    · obtain ⟨k, hk, hp⟩ := exists_task_of_phasesOf (List.ne_nil_of_mem ht)
      exact ⟨t, k, hk, hp⟩
  holderSession := hfits
  closedReset := hwf.closedReset
  stopMeansStopping := hwf.stopMeansStopping
  faultMeansHalted := hwf.faultMeansHalted
  faultInfoHeld := hwf.faultInfoHeld
  onlyCommHalts := hwf.onlyCommHalts
  openWorkers := hwf.openWorkers
  sendwLeavesNothing := hwf.sendwLeavesNothing
  commLeavesNothing := hwf.commLeavesNothing

/-! ### Which session a command may stand in (R244, R301, R337) -/

/-- Whether a command fits a session state depends on S.session alone. -/
theorem Task.sessionFits_congr {S S' : SessionState} (h : S'.session = S.session) {k : Task}
    (hk : k.sessionFits S) : k.sessionFits S' := by
  cases k with
  | write | read | admitWrite | admitRead | closeWait | closeStop | closeJoin | demuxWait => exact h.trans hk
  | apart c => cases c with
    | write | read | demux => exact h.trans hk
    | admitEnded | demuxEnded => trivial
  | admitEnded | closeEnded | closeRet | demuxEnded | demuxRoom => trivial

/-- Outside OPEN the commands that hold no phase wait on no session. -/
theorem Task.sessionFits_any {S : SessionState} {k : Task} (hk : k.sessionFits S) (hs : S.session ≠ .opened)
    (hp : k.phases = []) (S' : SessionState) : k.sessionFits S' := by
  cases k with
  | write | read | admitWrite | admitRead | closeWait | closeStop | demuxWait => exact absurd hk hs
  | closeJoin => cases hp
  | apart c => cases c with
    | write | read | demux => exact absurd hk hs
    | admitEnded | demuxEnded => trivial
  | admitEnded | closeEnded | closeRet | demuxEnded | demuxRoom => trivial

/-- A command that has passed ADMIT holds the phase (R241). -/
theorem Task.phases_ne_nil_of_holdsPhase {k : Task} (h : k.holdsPhase = true) : k.phases ≠ [] := by
  cases k with
  | write pc => cases pc <;> exact List.cons_ne_nil _ _
  | read n al pc => cases pc <;> exact List.cons_ne_nil _ _
  | apart | admitWrite | admitRead | admitEnded | closeWait | closeEnded | closeStop | closeJoin | closeRet | demuxWait
  | demuxEnded | demuxRoom => cases h

/-- A command that has passed ADMIT runs in OPEN. -/
theorem Task.opened_of_holdsPhase {k : Task} (h : k.holdsPhase = true) {S : SessionState} (hk : k.sessionFits S) :
    S.session = .opened := by
  cases k with
  | write | read => exact hk
  | apart | admitWrite | admitRead | admitEnded | closeWait | closeEnded | closeStop | closeJoin | closeRet | demuxWait
  | demuxEnded | demuxRoom => cases h

/-- The stop step moves no holder of the phase. -/
theorem Task.phases_sessionLeft (k : Task) : k.sessionLeft.phases = k.phases := by
  unfold Task.sessionLeft
  split <;> rfl

/-- What the stop step makes of a command that holds no phase waits on no session. -/
theorem Task.sessionFits_sessionLeft {k : Task} (hp : k.phases = []) (S : SessionState) :
    k.sessionLeft.sessionFits S := by
  cases k with
  | write pc => exact absurd hp (phases_ne_nil_of_holdsPhase rfl)
  | read n al pc => exact absurd hp (phases_ne_nil_of_holdsPhase rfl)
  | closeStop | closeJoin => cases hp
  | apart c => cases c <;> trivial
  | admitWrite | admitRead | admitEnded | closeWait | closeEnded | closeRet | demuxWait | demuxEnded | demuxRoom =>
    trivial

/-! ### Steps of the agents keep the session-state part (R305, R307, R309) -/

/-- CLOSED has no worker running. -/
theorem SessionState.Wf.closed_exited {S : SessionState} (h : S.Wf) (hc : S.session = .closed) :
    S.wSend = .exited ∧ S.wPoll = .exited ∧ S.wComm = .exited := by
  rw [h.closedReset hc]
  exact ⟨rfl, rfl, rfl⟩

/-- CLOSED is not where COMM runs. -/
theorem SessionState.Wf.not_closed_of_comm {S : SessionState} (h : S.Wf) (hw : S.wComm = .running) :
    S.session ≠ .closed :=
  fun hc => nomatch hw.symm.trans (h.closed_exited hc).2.2

/-- The stop signal is not up in OPEN. -/
theorem SessionState.Wf.not_opened_of_stop {S : SessionState} (h : S.Wf) (hs : S.stop = true) :
    S.session ≠ .opened :=
  fun ho => nomatch ho.symm.trans (h.stopMeansStopping.mp hs)

/-- COMM runs where there is no fault. -/
theorem SessionState.Wf.no_fault_of_comm {S : SessionState} (h : S.Wf) (hw : S.wComm = .running) : S.fault = false :=
  Bool.eq_false_iff.mpr fun hf => nomatch hw.symm.trans (h.faultMeansHalted.mp hf)

theorem sendwStep_wf {S : SessionState} (h : S.Wf) : (sendwStep S).Wf := by
  have notClosed : S.wSend = .running → S.session ≠ .closed :=
    fun hw hc => nomatch hw.symm.trans (h.closed_exited hc).1
  rcases sendwStep_cases S with e | ⟨hw, item, -, e⟩ | ⟨hw, -, item, q, -, e⟩ | ⟨hw, hst, hq, hstop, e⟩ <;> rw [e]
  · exact h
  · exact { h with
      closedReset := fun hc => absurd hc (notClosed hw)
      sendwLeavesNothing := fun hx => nomatch hw.symm.trans hx
      commLeavesNothing := fun hx => nomatch hw.symm.trans (h.commLeavesNothing hx).1 }
  · exact { h with
      closedReset := fun hc => absurd hc (notClosed hw)
      sendwLeavesNothing := fun hx => nomatch hw.symm.trans hx }
  · exact { h with
      closedReset := fun hc => absurd hc (notClosed hw)
      onlyCommHalts := ⟨nofun, h.onlyCommHalts.2⟩
      openWorkers := fun ho => absurd ho (h.not_opened_of_stop hstop)
      sendwLeavesNothing := fun _ => ⟨hq, hst⟩
      commLeavesNothing := fun hx => ⟨rfl, (h.commLeavesNothing hx).2⟩ }

theorem pollwStep_wf {S : SessionState} (h : S.Wf) : (pollwStep S).Wf := by
  have notClosed : S.wPoll = .running → S.session ≠ .closed :=
    fun hw hc => nomatch hw.symm.trans (h.closed_exited hc).2.1
  rcases pollwStep_cases S with e | ⟨hw, hstop, e⟩ | ⟨hw, -, e⟩ <;> rw [e]
  · exact h
  · exact { h with
      closedReset := fun hc => absurd hc (notClosed hw)
      onlyCommHalts := ⟨h.onlyCommHalts.1, nofun⟩
      openWorkers := fun ho => absurd ho (h.not_opened_of_stop hstop) }
  · exact { h with closedReset := fun hc => absurd hc (notClosed hw) }

/-- COMM may take S.wrq and S.read_pending on. -/
theorem SessionState.Wf.comm_queues {S : SessionState} (h : S.Wf) (hw : S.wComm = .running) (q : List Item) (n : Nat) :
    ({ S with wrq := q, readPending := n } : SessionState).Wf :=
  { h with
    closedReset := fun hc => absurd hc (h.not_closed_of_comm hw)
    commLeavesNothing := fun hx => nomatch hw.symm.trans hx }

/-- FAULT (R313) halts COMM. -/
theorem transportFault_wf {S : SessionState} (h : S.Wf) (hw : S.wComm = .running) (info : ErrInfo) :
    (transportFault info S).Wf :=
  { h with
    closedReset := fun hc => absurd hc (h.not_closed_of_comm hw)
    faultMeansHalted := ⟨fun _ => rfl, fun _ => rfl⟩
    faultInfoHeld := rfl
    openWorkers := fun ho => ⟨(h.openWorkers ho).1, (h.openWorkers ho).2.1, nofun⟩
    commLeavesNothing := nofun }

/-- COMM routes a value to its receive queue (R311). -/
theorem pushRx_wf {S : SessionState} (h : S.Wf) (hw : S.wComm = .running) (src : Chan) (v : Value) :
    (S.pushRx src v).Wf :=
  { h with
    rxWf := rxWf_pushRx h.rxWf src v
    closedReset := fun hc => absurd hc (h.not_closed_of_comm hw) }

/-- COMM exits after SENDW with S.wrq empty (R309). -/
theorem commExit_wf {S : SessionState} (h : S.Wf) (hw : S.wComm = .running) (hstop : S.stop = true)
    (hsend : S.wSend = .exited) (hq : S.wrq = []) : ({ S with wComm := .exited } : SessionState).Wf :=
  { h with
    closedReset := fun hc => absurd hc (h.not_closed_of_comm hw)
    faultMeansHalted := ⟨fun hf => (nomatch hf.symm.trans (h.no_fault_of_comm hw)), nofun⟩
    openWorkers := fun ho => absurd ho (h.not_opened_of_stop hstop)
    commLeavesNothing := fun _ => ⟨hsend, hq⟩ }

/-- A step of an agent that is no thread: it moves neither a command, nor S.session, nor the phase. -/
theorem State.Inv.of_agent {s s' : State} (h : s.Inv) (hthreads : s'.threads = s.threads)
    (hsession : s'.S.session = s.S.session) (hphase : s'.S.rapPhase = s.S.rapPhase) (hwf : s'.S.Wf) : s'.Inv := by
  have htask : s'.taskOf = s.taskOf := by
    funext t
    rw [State.taskOf, hthreads, State.taskOf]
  have hphases : s'.phasesOf = s.phasesOf := by
    funext t
    rw [State.phasesOf, htask, State.phasesOf]
  refine .of_parts (hthreads ▸ h.threadsWf) hwf ?_ ?_
  · rw [State.PhaseOwned, hphases, hphase]
    exact h.phaseOwned
  · intro t k hk
    exact Task.sessionFits_congr hsession (h.holderSession t k (htask ▸ hk))

/-- What was said at the ports, who called last and the choices to come are no part of the invariant. -/
theorem State.Inv.of_eq {s s' : State} (h : s.Inv) (hS : s'.S = s.S) (hthreads : s'.threads = s.threads) : s'.Inv :=
  h.of_agent hthreads (hS ▸ rfl) (hS ▸ rfl) (hS ▸ h.sessionWf)

theorem sendwStep_inv {s : State} (h : s.Inv) : (s.withS (sendwStep s.S)).Inv := by
  have hwf := sendwStep_wf h.sessionWf
  obtain ⟨q, st, wq, w, e⟩ := sendwStep_touches s.S
  rw [e] at hwf ⊢
  exact h.of_agent rfl rfl rfl hwf

theorem pollwStep_inv {s : State} (h : s.Inv) : (s.withS (pollwStep s.S)).Inv := by
  have hwf := pollwStep_wf h.sessionWf
  obtain ⟨n, w, -, e⟩ := pollwStep_touches s.S
  rw [e] at hwf ⊢
  exact h.of_agent rfl rfl rfl hwf

theorem downlinkCrosses_inv {s : State} (h : s.Inv) (w : BitVec 40) : (downlinkCrosses w s).Inv := by
  rcases downlinkCrosses_cases w s with e | ⟨hw, dest, rest, hq, e⟩ <;> rw [e]
  · exact h
  · exact h.of_agent rfl rfl rfl (h.sessionWf.comm_queues hw rest s.S.readPending)

theorem uplinkCrosses_inv {s : State} (h : s.Inv) (w : BitVec 24) : (uplinkCrosses w s).Inv := by
  rcases uplinkCrosses_cases w s with e | ⟨hr, e⟩ <;> rw [e]
  · exact h
  · exact h.of_agent rfl rfl rfl (pushRx_wf h.sessionWf ((commReads_iff _).mp hr).1 _ _)

theorem commTakeRead_inv {s : State} (h : s.Inv) (hr : s.S.commReads = true) (a : ReadAnswer) :
    (commTakeRead a s).Inv := by
  have hw := ((commReads_iff _).mp hr).1
  rcases commTakeRead_cases hr a with ⟨-, e⟩ | ⟨src, v, -, e⟩ | ⟨info, -, e⟩ <;> rw [e]
  · exact h.of_eq rfl rfl
  · exact h.of_agent rfl rfl rfl (pushRx_wf h.sessionWf hw src v)
  · exact h.of_agent rfl rfl rfl
      (transportFault_wf (h.sessionWf.comm_queues hw s.S.wrq (s.S.readPending - 1)) hw info)

theorem commStep_inv {s : State} (h : s.Inv) (onWrite : WriteAnswer) (onRead : ReadAnswer) :
    (commStep onWrite onRead s).Inv := by
  rcases commStep_cases onWrite onRead s with e | ⟨hw, item, rest, -, ⟨-, e⟩ | ⟨info, -, e⟩⟩ | ⟨hr, e⟩ |
    ⟨hw, hq, hstop, hsend, e⟩ <;> rw [e]
  · exact h
  · exact h.of_agent rfl rfl rfl (h.sessionWf.comm_queues hw rest s.S.readPending)
  · exact h.of_agent rfl rfl rfl
      (transportFault_wf (h.sessionWf.comm_queues hw rest s.S.readPending) hw info)
  · exact commTakeRead_inv h hr onRead
  · exact h.of_agent rfl rfl rfl (commExit_wf h.sessionWf hw hstop hsend hq)

/-! ### One step of a command in progress, as a change of the thread's slot (R8, R249) -/

/-- What no command but SESSION_OPEN, SESSION_CLOSE and RST moves: S.session, the stop signal, the fault and the
workers. -/
def SessionState.lifecycle (S : SessionState) :
    SessionMode × Bool × Bool × Option ErrInfo × Worker × Worker × Worker :=
  (S.session, S.stop, S.fault, S.faultInfo, S.wSend, S.wPoll, S.wComm)

/-- A change of the session state that a command makes in OPEN: the lifecycle and the form of the queues stay. -/
structure SessionState.OpenUpdate (S S' : SessionState) : Prop where
  opened : S.session = .opened
  lifecycle : S'.lifecycle = S.lifecycle
  rxWf : S.rxWf = true → S'.rxWf = true

theorem SessionState.OpenUpdate.session {S S' : SessionState} (h : S.OpenUpdate S') : S'.session = S.session :=
  congrArg Prod.fst h.lifecycle

/-- A change that a command makes in OPEN keeps the session-state part: all its other clauses are about the lifecycle,
or about workers that have exited, of which OPEN has none. -/
theorem SessionState.OpenUpdate.wf {S S' : SessionState} (h : S.OpenUpdate S') (hwf : S.Wf) : S'.Wf := by
  obtain ⟨hopen, hlife, hrx⟩ := h
  simp only [SessionState.lifecycle, Prod.mk.injEq] at hlife
  obtain ⟨hsession, hstop, hfault, hinfo, hsend, hpoll, hcomm⟩ := hlife
  obtain ⟨runSend, runPoll, runComm⟩ := hwf.openWorkers hopen
  exact {
    rxWf := hrx hwf.rxWf
    closedReset := fun hc => nomatch (hsession.symm.trans hc).symm.trans hopen
    stopMeansStopping := by rw [hstop, hsession]; exact hwf.stopMeansStopping
    faultMeansHalted := by rw [hfault, hcomm]; exact hwf.faultMeansHalted
    faultInfoHeld := by rw [hinfo, hfault]; exact hwf.faultInfoHeld
    onlyCommHalts := by rw [hsend, hpoll]; exact hwf.onlyCommHalts
    openWorkers := fun _ => by rw [hsend, hpoll, hcomm]; exact ⟨runSend, runPoll, runComm⟩
    sendwLeavesNothing := fun hx => nomatch (hsend.symm.trans hx).symm.trans runSend
    commLeavesNothing := fun hx => absurd (hcomm.symm.trans hx) runComm }

/-- How the phase passes where a thread's claim on it goes from the phases `old` to `new`. -/
inductive PhasePasses (old new : List RapPhase) (p p' : RapPhase) : Prop
  /-- No claim before or after. -/
  | aside (hold : old = []) (hnew : new = []) (hp : p' = p)
  /-- Taken while IDLE, or held on. -/
  | held (hfree : old ≠ [] ∨ p = .idle) (hp : p' ∈ new)
  /-- Given back. -/
  | released (hold : old ≠ []) (hnew : new = []) (hp : p' = .idle)

/-- The phase stays with one owner where it passes in one thread only. -/
theorem State.PhaseOwned.pass {s s' : State} {t : ThreadId} (h : s.PhaseOwned)
    (hothers : ∀ t', t' ≠ t → s'.phasesOf t' = s.phasesOf t')
    (hp : PhasePasses (s.phasesOf t) (s'.phasesOf t) s.S.rapPhase s'.S.rapPhase) : s'.PhaseOwned := by
  have noneElse : (∀ u, u ≠ t → s.phasesOf u = []) → ∀ u, u ≠ t → s'.phasesOf u = [] :=
    fun hnone u hu => (hothers u hu).trans (hnone u hu)
  have noneAtAll : (∀ u, u ≠ t → s.phasesOf u = []) → s'.phasesOf t = [] → ∀ u, s'.phasesOf u = [] := by
    intro hnone ht u
    by_cases hu : u = t
    · exact hu ▸ ht
    · exact noneElse hnone u hu
  rcases h with ⟨hidle, hnone⟩ | ⟨u, hu, honly⟩
  · cases hp with
    | aside hold hnew hp => exact .inl ⟨hp.trans hidle, noneAtAll (fun u _ => hnone u) hnew⟩
    | held hfree hp => exact .inr ⟨t, hp, noneElse fun u _ => hnone u⟩
    | released hold hnew hp => exact absurd (hnone t) hold
  · by_cases hut : t = u
    · subst hut
      cases hp with
      | aside hold hnew hp => exact absurd hold (List.ne_nil_of_mem hu)
      | held hfree hp => exact .inr ⟨t, hp, noneElse honly⟩
      | released hold hnew hp => exact .inl ⟨hp, noneAtAll honly hnew⟩
    · have htNone := honly t hut
      cases hp with
      | aside hold hnew hp =>
        refine .inr ⟨u, ?_, fun v hv => ?_⟩
        · rw [hothers u (Ne.symm hut), hp]
          exact hu
        · by_cases hvt : v = t
          · exact hvt ▸ hnew
          · exact (hothers v hvt).trans (honly v hv)
      | held hfree hp =>
        rcases hfree with hfree | hfree
        · exact absurd htNone hfree
        · exact absurd (hfree ▸ hu) (idle_not_mem_phasesOf s u)
      | released hold hnew hp => exact absurd htNone hold

/-- What a step of the command in thread `t` can do: no change; on to a point or to its end, with a change made in OPEN;
the stop step or the end of a close; or, in a thread without a command, a SESSION_OPEN. -/
inductive ThreadMove (s : State) (t : ThreadId) : State → Prop
  | stays : ThreadMove s t s
  | goes (S' : SessionState) (k : Task) (hS : S' = s.S ∨ s.S.OpenUpdate S') (hk : k.sessionFits s.S)
      (hp : PhasePasses (s.phasesOf t) k.phases s.S.rapPhase S'.rapPhase) : ThreadMove s t ((s.withS S').setTask t k)
  | ends (S' : SessionState) (r : Response) (hS : S' = s.S ∨ s.S.OpenUpdate S') (hp : S'.rapPhase = s.S.rapPhase)
      (hk : ∀ k, s.taskOf t = some k → k.holdsPhase = true ∨ k.phases = []) :
      ThreadMove s t ((s.withS S').endCommand t r)
  | stop (ht : s.taskOf t = some .closeStop) : ThreadMove s t (shutdownStop t s)
  | join (st : Status) (ht : s.taskOf t = some .closeJoin) : ThreadMove s t (joinEnd t st s)
  | opening (chip : BitVec 4) (r : Result) (ht : s.taskOf t = none) (hs : s.S.session = .closed) :
      ThreadMove s t ((s.withS (SessionState.atOpen chip)).finish t r)

/-! ### Every step of a thread keeps the invariant -/

/-- The session state right after RST. -/
theorem reset_wf : SessionState.reset.Wf where
  rxWf := rfl
  closedReset := fun _ => rfl
  stopMeansStopping := ⟨nofun, nofun⟩
  faultMeansHalted := ⟨nofun, nofun⟩
  faultInfoHeld := rfl
  onlyCommHalts := ⟨nofun, nofun⟩
  openWorkers := nofun
  sendwLeavesNothing := fun _ => ⟨rfl, rfl⟩
  commLeavesNothing := fun _ => ⟨rfl, rfl⟩

/-- The session state right after SESSION_OPEN. -/
theorem atOpen_wf (chip : BitVec 4) : (SessionState.atOpen chip).Wf where
  rxWf := rfl
  closedReset := nofun
  stopMeansStopping := ⟨nofun, nofun⟩
  faultMeansHalted := ⟨nofun, nofun⟩
  faultInfoHeld := rfl
  onlyCommHalts := ⟨nofun, nofun⟩
  openWorkers := fun _ => ⟨rfl, rfl, nofun⟩
  sendwLeavesNothing := nofun
  commLeavesNothing := nofun

/-- SHUTDOWN's stop step on the session state (R315). -/
theorem stopped_wf {S : SessionState} (h : S.Wf) :
    ({ S with stop := true, session := .stopping, readPending := 0 } : SessionState).Wf :=
  { h with
    closedReset := nofun
    stopMeansStopping := ⟨fun _ => rfl, fun _ => rfl⟩
    openWorkers := nofun }

/-- A step that touches one thread's slot, and the session state in OPEN only, keeps the invariant. -/
theorem State.Inv.of_slot {s s' : State} (h : s.Inv) {t : ThreadId} (hthreads : assocWf s'.threads = true)
    (hothers : ∀ t', t' ≠ t → s'.taskOf t' = s.taskOf t') (hS : s'.S = s.S ∨ s.S.OpenUpdate s'.S)
    (hfits : ∀ k, s'.taskOf t = some k → k.sessionFits s.S)
    (hp : PhasePasses (s.phasesOf t) (s'.phasesOf t) s.S.rapPhase s'.S.rapPhase) : s'.Inv := by
  have hsession : s'.S.session = s.S.session := hS.elim (fun e => by rw [e]) (·.session)
  have hwf : s'.S.Wf := hS.elim (fun e => e ▸ h.sessionWf) (·.wf h.sessionWf)
  refine .of_parts hthreads hwf (h.phaseOwned.pass (fun u hu => ?_) hp) fun u k hk => ?_
  · rw [State.phasesOf, hothers u hu, State.phasesOf]
  · refine Task.sessionFits_congr hsession ?_
    by_cases hu : u = t
    · exact hfits k (hu ▸ hk)
    · exact h.holderSession u k (hothers u hu ▸ hk)

/-- The end of a command gives back the phase it holds, and only that (R241). -/
theorem phaseAfter_passes {s : State} (h : s.Inv) {t : ThreadId} {S' : SessionState} (hS : S' = s.S ∨ s.S.OpenUpdate S')
    (hp : S'.rapPhase = s.S.rapPhase) (hk : ∀ k, s.taskOf t = some k → k.holdsPhase = true ∨ k.phases = []) :
    ((s.withS S').phaseAfter t = s.S ∨ s.S.OpenUpdate ((s.withS S').phaseAfter t)) ∧
    PhasePasses (s.phasesOf t) [] s.S.rapPhase ((s.withS S').phaseAfter t).rapPhase := by
  cases ht : s.taskOf t with
  | none =>
    have hafter : (s.withS S').phaseAfter t = S' := by simp [State.phaseAfter, ht]
    rw [hafter]
    exact ⟨hS, .aside (phasesOf_of_idle ht) rfl hp⟩
  | some k =>
    rw [phaseAfter_of_task (s := s.withS S') ht, phasesOf_of_task ht]
    cases hheld : k.holdsPhase with
    | false =>
      exact ⟨hS, .aside ((hk k ht).resolve_left (by simp [hheld])) rfl hp⟩
    | true =>
      have hopen := Task.opened_of_holdsPhase hheld (h.holderSession t k ht)
      refine ⟨.inr ?_, .released (Task.phases_ne_nil_of_holdsPhase hheld) rfl rfl⟩
      rcases hS with rfl | hS
      · exact ⟨hopen, rfl, id⟩
      · exact ⟨hopen, hS.lifecycle, hS.rxWf⟩

/-- The phase is held by no other thread than the one whose command holds it. -/
theorem State.Inv.others_aside {s : State} (h : s.Inv) {t t' : ThreadId} (hne : t' ≠ t) {k k' : Task}
    (hk : s.taskOf t = some k) (hp : k.phases ≠ []) (hk' : s.taskOf t' = some k') : k'.phases = [] := by
  by_contra hp'
  exact hne (h.oneHolder t' t k' k hk' hk hp' hp)

/-- SHUTDOWN's stop step (R315): the closing command holds the phase on, and no other command waits on the session. -/
theorem shutdownStop_inv {s : State} (h : s.Inv) {t : ThreadId} (ht : s.taskOf t = some .closeStop) :
    (shutdownStop t s).Inv := by
  have hsame : (shutdownStop t s).taskOf t = some .closeJoin := setTask_taskOf_same ..
  have hothers : ∀ t', t' ≠ t → (shutdownStop t s).phasesOf t' = s.phasesOf t' := by
    intro t' hne
    rw [State.phasesOf, shutdownStop_taskOf_other s hne, Option.map_map, State.phasesOf]
    exact congrArg (fun f => (Option.map f (s.taskOf t')).getD []) (funext Task.phases_sessionLeft)
  refine .of_parts (assocWf_insert t _ (assocWf_endWaits h.threadsWf)) (stopped_wf h.sessionWf)
    (h.phaseOwned.pass hothers (.held (.inl ?_) ?_)) fun t' k hk => ?_
  · simp [phasesOf_of_task ht, Task.phases]
  · rw [phasesOf_of_task hsame]
    have hclosing := h.holderPhase t _ ht (List.cons_ne_nil _ _)
    exact hclosing
  · by_cases hne : t' = t
    · obtain rfl : Task.closeJoin = k := by simpa [hne, hsame] using hk
      rfl
    · rw [shutdownStop_taskOf_other s hne, Option.map_eq_some_iff] at hk
      obtain ⟨k', hk', rfl⟩ := hk
      exact Task.sessionFits_sessionLeft (h.others_aside hne ht (List.cons_ne_nil _ _) hk') _

/-- The end of JOIN (R316): the phase is IDLE again, and every command left waits on no session. -/
theorem joinEnd_inv {s : State} (h : s.Inv) {t : ThreadId} (ht : s.taskOf t = some .closeJoin) (st : Status) :
    (joinEnd t st s).Inv := by
  have hsame : (joinEnd t st s).taskOf t = some (.closeRet st) := setTask_taskOf_same ..
  have hother : ∀ t', t' ≠ t → (joinEnd t st s).taskOf t' = s.taskOf t' := fun t' hne => setTask_taskOf_other _ hne _
  have hstopping : s.S.session ≠ .opened := by
    rw [show s.S.session = .stopping from h.holderSession t _ ht]
    nofun
  refine .of_parts (assocWf_insert t _ h.threadsWf) reset_wf
    (h.phaseOwned.pass (t := t) (fun t' hne => ?_) (.released ?_ ?_ rfl)) fun t' k hk => ?_
  · rw [State.phasesOf, hother t' hne, State.phasesOf]
  · simp [phasesOf_of_task ht, Task.phases]
  · rw [phasesOf_of_task hsame]
    rfl
  · by_cases hne : t' = t
    · obtain rfl : Task.closeRet st = k := by simpa [hne, hsame] using hk
      trivial
    · rw [hother t' hne] at hk
      exact Task.sessionFits_any (h.holderSession t' k hk) hstopping
        (h.others_aside hne ht (List.cons_ne_nil _ _) hk) _

/-- SESSION_OPEN (R242): in CLOSED the phase is IDLE, and every command in progress waits on no session. -/
theorem opening_inv {s : State} (h : s.Inv) {t : ThreadId} (ht : s.taskOf t = none) (hs : s.S.session = .closed)
    (chip : BitVec 4) (r : Result) : ((s.withS (SessionState.atOpen chip)).finish t r).Inv := by
  have hidle : s.S.rapPhase = .idle := by rw [h.closedReset hs]; rfl
  have hnone : ∀ t' k, s.taskOf t' = some k → k.phases = [] := by
    intro t' k hk
    by_contra hp
    exact idle_not_mem_phases k (hidle ▸ h.holderPhase t' k hk hp)
  have hnotOpen : s.S.session ≠ .opened := by rw [hs]; nofun
  rw [State.finish, endCommand_idle (by exact ht)]
  refine .of_parts h.threadsWf (atOpen_wf chip) (.inl ⟨rfl, fun t' => ?_⟩) fun t' k hk => ?_
  · cases hk : s.taskOf t' with
    | none => exact phasesOf_of_idle hk
    | some k => exact (phasesOf_of_task hk).trans (hnone t' k hk)
  · exact Task.sessionFits_any (h.holderSession t' k hk) hnotOpen (hnone t' k hk) _

/-- Every move of a thread keeps the invariant. -/
theorem ThreadMove.inv {s s' : State} {t : ThreadId} (hm : ThreadMove s t s') (h : s.Inv) : s'.Inv := by
  cases hm with
  | stays => exact h
  | goes S' k hS hk hp =>
    have hsame : ((s.withS S').setTask t k).taskOf t = some k := setTask_taskOf_same ..
    refine h.of_slot (t := t) (assocWf_insert t k h.threadsWf) (fun t' hne => setTask_taskOf_other _ hne _) hS ?_ ?_
    · intro k' hk'
      obtain rfl : k = k' := by simpa [hsame] using hk'
      exact hk
    · rw [phasesOf_of_task hsame]
      exact hp
  | ends S' r hS hp hk =>
    have hsame : ((s.withS S').endCommand t r).taskOf t = none := endCommand_taskOf_same ..
    obtain ⟨hS', hp'⟩ := phaseAfter_passes h hS hp hk
    refine h.of_slot (t := t) (assocWf_erase t h.threadsWf) (fun t' hne => endCommand_taskOf_other _ hne _) hS' ?_ ?_
    · intro k hk
      simp [hsame] at hk
    · rw [phasesOf_of_idle hsame]
      exact hp'
  | stop ht => exact shutdownStop_inv h ht
  | join st ht => exact joinEnd_inv h ht st
  | opening chip r ht hs => exact opening_inv h ht hs chip r

/-! ### What a step of each command in progress can do to its thread's slot -/

/-- A command that has passed ADMIT may stand in OPEN. -/
theorem Task.sessionFits_of_holdsPhase {k : Task} (h : k.holdsPhase = true) {S : SessionState}
    (hs : S.session = .opened) : k.sessionFits S := by
  cases k with
  | write | read => exact hs
  | apart | admitWrite | admitRead | admitEnded | closeWait | closeEnded | closeStop | closeJoin | closeRet | demuxWait
  | demuxEnded | demuxRoom => cases h

/-- One step of READ_FRAME in OPEN touches neither the lifecycle nor the phase. -/
theorem readFrameStep_update {P : Config.Params} {kind : CtrlKind} {d : Duration} {pc : FramePc} {S : SessionState}
    (hopen : S.session = .opened) : S.OpenUpdate (readFrameStep P kind d pc S).2 ∧
      (readFrameStep P kind d pc S).2.rapPhase = S.rapPhase := by
  rcases readFrameStep_touches P kind d pc S with ⟨pa, pr, a, n, b, h, u, e⟩ | ⟨x, q, -, e⟩ <;> rw [e]
  · exact ⟨⟨hopen, rfl, id⟩, rfl⟩
  · exact ⟨⟨hopen, rfl, fun hrx => rxWf_setRx hrx _ _⟩, rfl⟩

/-- The timeout of READ_FRAME leaves the session state as it is. -/
theorem readFrameTimeout_state (P : Config.Params) (pc : FramePc) (S : SessionState) :
    (readFrameTimeout P pc S).2 = S := by
  rcases readFrameTimeout_cases P pc S with e | ⟨-, -, e⟩ <;> rw [e]

/-- KEEP touches S.ret alone (R257). -/
theorem keep_touches (S : SessionState) (f : RxFrame) : ∃ ret, S.keep f = { S with ret := ret } := by
  simp only [SessionState.keep]
  split
  · exact ⟨_, rfl⟩
  · exact ⟨S.ret, rfl⟩

/-- Between two attempts and after the last a read is in R_COLLECT. -/
theorem phases_nextAttempt (n : Nat) (al : Bool) (left : Nat) :
    (Task.read n al (nextAttempt left)).phases = [.rCollect] := by
  simp only [nextAttempt]
  split <;> rfl

/-- A command passes the checks of R341 in OPEN only. -/
theorem opened_of_ready {S : SessionState} (hn : S.notReady = none) : S.session = .opened := by
  rcases notReady_cases S with ⟨-, e⟩ | ⟨-, -, e⟩ | ⟨hopen, -, -⟩
  · exact nomatch e.symm.trans hn
  · exact nomatch e.symm.trans hn
  · exact hopen

section
variable {P : Config.Params} {s : State} {t : ThreadId}

/-- A command that holds no phase goes on to wait. -/
theorem ThreadMove.waits (hfree : s.phasesOf t = []) {k : Task} (hk : k.sessionFits s.S) (hp : k.phases = []) :
    ThreadMove s t (s.setTask t k) := .goes s.S k (.inl rfl) hk (.aside hfree hp rfl)

/-- A command that holds no phase ends. -/
theorem ThreadMove.ended (hfree : s.phasesOf t = []) (r : Response) : ThreadMove s t (s.endCommand t r) :=
  .ends s.S r (.inl rfl) rfl fun _ hk => .inr ((phasesOf_of_task hk).symm.trans hfree)

/-- A command that holds no phase takes it while it is IDLE. -/
theorem ThreadMove.takes (hopen : s.S.session = .opened) (hidle : s.S.rapPhase = .idle) {p : RapPhase} {k : Task}
    (hk : k.sessionFits s.S) (hp : p ∈ k.phases) :
    ThreadMove s t ((s.withS { s.S with rapPhase := p }).setTask t k) :=
  .goes _ k (.inr ⟨hopen, rfl, id⟩) hk (.held (.inr hidle) hp)

/-- ADMIT (R241): an exception, the phase taken, or the wait. -/
theorem rapBegin_move (hfree : s.phasesOf t = []) {phase : RapPhase} {waiting running : Task}
    (hw : s.S.session = .opened → waiting.sessionFits s.S) (hwp : waiting.phases = [])
    (hr : running.holdsPhase = true) (hrp : phase ∈ running.phases) :
    ThreadMove s t (rapBegin t phase waiting running s) := by
  rcases rapBegin_cases t phase waiting running s with ⟨st, -, e⟩ | ⟨hn, hidle, e⟩ | ⟨hn, -, e⟩ <;> rw [e]
  · exact .ended hfree _
  · have hopen := opened_of_ready hn
    exact .takes hopen hidle (Task.sessionFits_of_holdsPhase hr hopen) hrp
  · exact .waits hfree (hw (opened_of_ready hn)) hwp

theorem writeBegin_move (hfree : s.phasesOf t = []) (ops : List (Nat × Nat)) :
    ThreadMove s t (writeBegin t ops s) := rapBegin_move hfree id rfl rfl (List.mem_singleton_self _)

theorem readBegin_move (hfree : s.phasesOf t = []) (addrs : List Nat) (al : Bool) :
    ThreadMove s t (readBegin t addrs al s) := rapBegin_move hfree id rfl rfl (List.mem_singleton_self _)

/-- SESSION_CLOSE up to its wait or its hold of the phase (R244). -/
theorem closeBegin_move (hfree : s.phasesOf t = []) : ThreadMove s t (closeBegin t s) := by
  rcases closeBegin_cases t s with ⟨-, e⟩ | ⟨hopen, hidle, e⟩ | ⟨hopen, -, e⟩ <;> rw [e]
  · exact .ended hfree _
  · exact .takes hopen hidle hopen (List.mem_singleton_self _)
  · exact .waits hfree hopen rfl

/-- DEMUX_WRITE (R300). -/
theorem demuxWrite_move (hfree : s.phasesOf t = []) (v : Value) (d : Chan) : ThreadMove s t (demuxWrite t v d s) := by
  rcases demuxWrite_cases t v d s with ⟨st, -, e⟩ | ⟨hn, e⟩ <;> rw [e]
  · exact .ended hfree _
  · exact .ends _ _ (.inr ⟨opened_of_ready hn, rfl, id⟩) rfl fun _ hk => .inr ((phasesOf_of_task hk).symm.trans hfree)

/-- DEMUX_READ's wait (R301). -/
theorem demuxWaitStep_move (hfree : s.phasesOf t = []) (src : Chan) (d : Duration) :
    ThreadMove s t (demuxWaitStep t src d s) := by
  rcases demuxWaitStep_cases t src d s with ⟨-, e⟩ | ⟨hopen, v, q, -, e⟩ | ⟨-, -, -, e⟩ | ⟨hopen, -, -, e⟩ <;> rw [e]
  · exact .ended hfree _
  · exact .ends _ _ (.inr ⟨hopen, rfl, fun hrx => rxWf_setRx hrx _ _⟩) rfl
      fun _ hk => .inr ((phasesOf_of_task hk).symm.trans hfree)
  · exact .ended hfree _
  · exact .waits hfree hopen rfl

/-- The check of S.fault of a command whose lines are taken apart (R241, R301). -/
theorem apartStep_move (hfree : s.phasesOf t = []) {c : Apart} (hk : (Task.apart c).sessionFits s.S) :
    ThreadMove s t (apartStep t c s) := by
  simp only [apartStep]
  split
  · exact .ended hfree _
  · cases c with
    | write | read | demux => exact .waits hfree hk rfl
    | admitEnded | demuxEnded => exact .waits hfree trivial rfl

section
variable {k : Task} (ht : s.taskOf t = some k) (hheld : k.holdsPhase = true)
include ht hheld

/-- A command that has passed ADMIT goes on. -/
theorem ThreadMove.onward {S' : SessionState} {k' : Task} (hS : s.S.OpenUpdate S') (hk' : k'.holdsPhase = true)
    (hp : S'.rapPhase ∈ k'.phases) : ThreadMove s t ((s.withS S').setTask t k') :=
  .goes S' k' (.inr hS) (Task.sessionFits_of_holdsPhase hk' hS.opened)
    (.held (.inl (phasesOf_of_task ht ▸ Task.phases_ne_nil_of_holdsPhase hheld)) hp)

/-- A command that has passed ADMIT ends. -/
theorem ThreadMove.over {S' : SessionState} (hS : s.S.OpenUpdate S') (hp : S'.rapPhase = s.S.rapPhase) (r : Response) :
    ThreadMove s t ((s.withS S').endCommand t r) :=
  .ends S' r (.inr hS) hp fun k' hk' => .inl (by rwa [← Option.some_inj.mp (ht.symm.trans hk')])


end

/-! ### WRITE_REGISTERS and READ_REGISTERS once admitted (R249) -/

section
variable {r : FrameOut × SessionState} (hr : s.S.OpenUpdate r.2) (hrp : r.2.rapPhase = s.S.rapPhase)
include hr hrp

/-- The drain of a write after one step of its READ_FRAME (R253). -/
theorem writeDrain_move {pc : FramePc} (ht : s.taskOf t = some (.write (.drain pc))) (hp : s.S.rapPhase = .wAck) :
    ThreadMove s t (writeDrain t r s) := by
  have hphase : r.2.rapPhase ∈ [RapPhase.wAck] := List.mem_singleton.mpr (hrp.trans hp)
  simp only [writeDrain]
  split
  · exact .onward ht rfl hr rfl hphase
  · exact .onward ht rfl hr rfl hphase
  · exact .onward ht rfl hr rfl hphase
  · exact .over ht rfl hr hrp _

variable {n : Nat} {al : Bool}

/-- Step 2 of a read after one step of its READ_FRAME (R257). -/
theorem readCollect_move {left : Nat} {pc : FramePc} (ht : s.taskOf t = some (.read n al (.collect left pc)))
    (hp : s.S.rapPhase = .rCollect) : ThreadMove s t (readCollect t n al left r s) := by
  have hphase : r.2.rapPhase ∈ [RapPhase.rCollect] := List.mem_singleton.mpr (hrp.trans hp)
  simp only [readCollect]
  split
  · exact .onward ht rfl hr rfl hphase
  · rename_i f _
    obtain ⟨ret, e⟩ := keep_touches r.2 f
    rw [e]
    exact .onward ht rfl ⟨hr.opened, hr.lifecycle, hr.rxWf⟩ rfl (phases_nextAttempt n al left ▸ hphase)
  · exact .onward ht rfl hr rfl (phases_nextAttempt n al left ▸ hphase)
  · exact .over ht rfl hr hrp _

/-- The first drain of the recovery after one step of its READ_FRAME (R260). -/
theorem readDrainRd_move {pc : FramePc} (ht : s.taskOf t = some (.read n al (.drainRd pc)))
    (hp : s.S.rapPhase = .rDrainRd) : ThreadMove s t (readDrainRd t n al r s) := by
  have hphase : r.2.rapPhase ∈ [RapPhase.rDrainRd] := List.mem_singleton.mpr (hrp.trans hp)
  simp only [readDrainRd]
  split
  · exact .onward ht rfl hr rfl hphase
  · rename_i f _
    obtain ⟨ret, e⟩ := keep_touches r.2 f
    rw [e]
    exact .onward ht rfl ⟨hr.opened, hr.lifecycle, hr.rxWf⟩ rfl hphase
  · exact .onward ht rfl hr rfl hphase
  · exact .over ht rfl hr hrp _

/-- The second drain of the recovery after one step of its READ_FRAME (R260). -/
theorem readDrainAck_move {pc : FramePc} (ht : s.taskOf t = some (.read n al (.drainAck pc)))
    (hp : s.S.rapPhase = .rDrainAck) : ThreadMove s t (readDrainAck t n al r s) := by
  have hphase : r.2.rapPhase ∈ [RapPhase.rDrainAck] := List.mem_singleton.mpr (hrp.trans hp)
  simp only [readDrainAck]
  split
  · exact .onward ht rfl hr rfl hphase
  · exact .onward ht rfl hr rfl hphase
  · exact .onward ht rfl hr rfl hphase
  · exact .over ht rfl hr hrp _

end

/-- The phase of a command that has passed ADMIT is one of its point (R249). -/
theorem State.Inv.phase_mem {k : Task} (h : s.Inv) (ht : s.taskOf t = some k) (hheld : k.holdsPhase = true) :
    s.S.rapPhase ∈ k.phases := h.holderPhase t k ht (Task.phases_ne_nil_of_holdsPhase hheld)

/-- One step of a WRITE_REGISTERS once admitted (R241, R250, R251). -/
theorem writeStep_move (h : s.Inv) {pc : WritePc} (ht : s.taskOf t = some (.write pc)) :
    ThreadMove s t (writeStep P t pc s) := by
  have hopen : s.S.session = .opened := h.holderSession t _ ht
  have hphase := h.phase_mem ht rfl
  have same : s.S.OpenUpdate s.S := ⟨hopen, rfl, id⟩
  cases pc with
  | counters frames => exact .onward ht rfl ⟨hopen, rfl, id⟩ rfl hphase
  | lists frames => exact .onward ht rfl ⟨hopen, rfl, id⟩ rfl hphase
  | send frames =>
    cases frames with
    | nil => exact .onward ht rfl ⟨hopen, rfl, id⟩ rfl (List.mem_singleton_self _)
    | cons f frames =>
      simp only [writeStep]
      split
      · exact .over ht rfl same rfl _
      · exact .onward ht rfl same rfl hphase
  | draw rt payload frames => exact .onward ht rfl ⟨hopen, rfl, id⟩ rfl hphase
  | push q rt payload frames =>
    simp only [writeStep, sendHasRoom_true, if_true]
    split
    · exact .over ht rfl same rfl _
    · exact .onward ht rfl ⟨hopen, rfl, id⟩ rfl hphase
  | drain pc =>
    obtain ⟨hr, hrp⟩ := readFrameStep_update (P := P) (kind := .ack) (d := P.tAck) (pc := pc) hopen
    exact writeDrain_move hr hrp ht (List.mem_singleton.mp hphase)
  | ret => exact .over ht rfl same rfl _

/-- The guard of a read goes on in the phase it stands in (R258). -/
theorem readGuard_move (h : s.Inv) {n : Nat} {al : Bool} {pc otherwise : ReadPc}
    (ht : s.taskOf t = some (.read n al pc)) (hfast : s.S.rapPhase ∈ (Task.read n al .fast).phases)
    (hother : s.S.rapPhase ∈ (Task.read n al otherwise).phases) : ThreadMove s t (readGuard t n al otherwise s) := by
  have same : s.S.OpenUpdate s.S := ⟨h.holderSession t _ ht, rfl, id⟩
  simp only [readGuard]
  split
  · exact .onward ht rfl same rfl hfast
  · exact .onward ht rfl same rfl hother

/-- One step of a READ_REGISTERS once admitted (R241, R255 to R261). -/
theorem readStep_move (h : s.Inv) {n : Nat} {al : Bool} {pc : ReadPc} (ht : s.taskOf t = some (.read n al pc)) :
    ThreadMove s t (readStep P t n al pc s) := by
  have hopen : s.S.session = .opened := h.holderSession t _ ht
  have hphase := h.phase_mem ht rfl
  have same : s.S.OpenUpdate s.S := ⟨hopen, rfl, id⟩
  cases pc with
  | counters addrs => exact .onward ht rfl ⟨hopen, rfl, id⟩ rfl hphase
  | lists addrs => exact .onward ht rfl ⟨hopen, rfl, id⟩ rfl hphase
  | send addrs =>
    cases addrs with
    | nil =>
      refine .onward ht rfl ⟨hopen, rfl, id⟩ rfl ?_
      split <;> exact List.mem_singleton_self _
    | cons a addrs =>
      simp only [readStep]
      split
      · exact .over ht rfl same rfl _
      · exact .onward ht rfl same rfl hphase
  | draw a addrs => exact .onward ht rfl ⟨hopen, rfl, id⟩ rfl hphase
  | push q a addrs =>
    simp only [readStep, sendHasRoom_true, if_true]
    split
    · exact .over ht rfl same rfl _
    · exact .onward ht rfl ⟨hopen, rfl, id⟩ rfl hphase
  | count addrs => exact .onward ht rfl ⟨hopen, rfl, id⟩ rfl hphase
  | collect left pc =>
    obtain ⟨hr, hrp⟩ := readFrameStep_update (P := P) (kind := .rd) (d := P.tResp) (pc := pc) hopen
    exact readCollect_move hr hrp ht (List.mem_singleton.mp hphase)
  | guardFirst => exact readGuard_move h ht (List.mem_cons.mpr (.inl (List.mem_singleton.mp hphase))) hphase
  | toDrainRd => exact .onward ht rfl ⟨hopen, rfl, id⟩ rfl (List.mem_singleton_self _)
  | drainRd pc =>
    obtain ⟨hr, hrp⟩ := readFrameStep_update (P := P) (kind := .rd) (d := P.tDrain) (pc := pc) hopen
    exact readDrainRd_move hr hrp ht (List.mem_singleton.mp hphase)
  | toDrainAck => exact .onward ht rfl ⟨hopen, rfl, id⟩ rfl (List.mem_singleton_self _)
  | drainAck pc =>
    obtain ⟨hr, hrp⟩ := readFrameStep_update (P := P) (kind := .ack) (d := P.tAck) (pc := pc) hopen
    exact readDrainAck_move hr hrp ht (List.mem_singleton.mp hphase)
  | guardAgain => exact readGuard_move h ht (List.mem_cons_of_mem _ hphase) hphase
  | stepFive =>
    simp only [readStep]
    split
    · exact .onward ht rfl ⟨hopen, rfl, id⟩ rfl (List.mem_singleton_self _)
    · exact .over ht rfl same rfl _
  | align => exact .onward ht rfl same rfl hphase
  | fill m =>
    cases m with
    | nil => exact .over ht rfl same rfl _
    | cons m ms => cases m <;> exact .onward ht rfl ⟨hopen, rfl, id⟩ rfl hphase
  | fast => exact .onward ht rfl ⟨hopen, rfl, id⟩ rfl hphase
  | ret => exact .over ht rfl same rfl _

/-! ### The step and the timeout of a command in progress -/

/-- The step of a command in progress, by the point it has reached. -/
theorem taskStep_threadMove (h : s.Inv) {task : Task} (ht : s.taskOf t = some task) :
    ThreadMove s t (taskStep P t task s) := by
  have hfree : task.phases = [] → s.phasesOf t = [] := (phasesOf_of_task ht).trans
  cases task with
  | apart c => exact apartStep_move (hfree rfl) (h.holderSession t _ ht)
  | admitWrite ops =>
    simp only [taskStep]
    split
    · exact writeBegin_move (hfree rfl) ops
    · exact .stays
  | admitRead addrs al =>
    simp only [taskStep]
    split
    · exact readBegin_move (hfree rfl) addrs al
    · exact .stays
  | admitEnded =>
    simp only [taskStep]
    split
    · exact .ended (hfree rfl) _
    · exact .stays
  | write pc => exact writeStep_move h ht
  | read n al pc => exact readStep_move h ht
  | closeWait =>
    simp only [taskStep]
    split
    · exact closeBegin_move (hfree rfl)
    · exact .stays
  | closeEnded => exact .ended (hfree rfl) _
  | closeStop => exact .stop ht
  | closeJoin =>
    simp only [taskStep]
    split
    · exact .join .ok ht
    · exact .stays
  | closeRet st => exact .ended (hfree rfl) _
  | demuxWait src d => exact demuxWaitStep_move (hfree rfl) src d
  | demuxEnded => exact .ended (hfree rfl) _
  | demuxRoom v d => exact demuxWrite_move (hfree rfl) v d

/-- The timeout of a command in progress, by the waits that have one. -/
theorem taskTimeout_threadMove (h : s.Inv) {task : Task} (ht : s.taskOf t = some task) :
    ThreadMove s t (taskTimeout P t task s) := by
  have update : ∀ pc, s.S.session = .opened → s.S.OpenUpdate (readFrameTimeout P pc s.S).2 ∧
      (readFrameTimeout P pc s.S).2.rapPhase = s.S.rapPhase := by
    intro pc hopen
    rw [readFrameTimeout_state]
    exact ⟨⟨hopen, rfl, id⟩, rfl⟩
  unfold taskTimeout
  split
  case h_1 pc =>
    obtain ⟨hr, hrp⟩ := update pc (h.holderSession t _ ht)
    exact writeDrain_move hr hrp ht (List.mem_singleton.mp (h.phase_mem ht rfl))
  case h_2 n al left pc =>
    obtain ⟨hr, hrp⟩ := update pc (h.holderSession t _ ht)
    exact readCollect_move hr hrp ht (List.mem_singleton.mp (h.phase_mem ht rfl))
  case h_3 n al pc =>
    obtain ⟨hr, hrp⟩ := update pc (h.holderSession t _ ht)
    exact readDrainRd_move hr hrp ht (List.mem_singleton.mp (h.phase_mem ht rfl))
  case h_4 n al pc =>
    obtain ⟨hr, hrp⟩ := update pc (h.holderSession t _ ht)
    exact readDrainAck_move hr hrp ht (List.mem_singleton.mp (h.phase_mem ht rfl))
  case h_5 =>
    split
    · exact .stays
    · exact .join .joinTimeout ht
  case h_6 src d =>
    simp only [demuxTimeout]
    split
    · exact .ended (phasesOf_of_task ht) _
    · exact .stays
  case h_7 => exact .stays

/-! ### A command issued in an idle thread -/

/-- A command executed in an idle thread touches that thread's slot alone. -/
theorem exec_threadMove {code : BitVec 8} {ops : List Operand} {instr : Instr} {s' : State}
    (hidle : s.taskOf s.caller = none) (hd : decode (.command code ops) = .ok instr) (h : exec instr s = .next s') :
    ThreadMove s s.caller s' := by
  have hfree := phasesOf_of_idle hidle
  have ended : ∀ r, .next (s.endCommand s.caller r) = (.next s' : Host.Outcome State Fault Refusal) →
      ThreadMove s s.caller s' := by
    intro r h
    cases h
    exact .ended hfree r
  have pure : ∀ r, s.answerPure r = .next s' → ThreadMove s s.caller s' := by
    intro r h
    cases r <;> exact ended _ h
  obtain ⟨notDl, notAck, notRd, notHit⟩ := decode_command_not_frame hd
  cases instr with
  | bvFromValue | bvToBytes | bvPopLeft | bvPopRight | polyNew | polyToRepr | crc | frameBuild | frameBuildCrc
  | frameCrcOk | uplinkResolve => exact pure _ h
  | bvFromBytes b => exact pure ((bvFromBytes b).map .bv) h
  | bvAppendRight a b => exact pure ((bvAppendRight a b).map .bv) h
  | bvAppendLeft a b => exact pure ((bvAppendLeft a b).map .bv) h
  | bvConcat a b => exact pure ((bvConcat a b).map .bv) h
  | bvToValue | bvReverse | bvEq | bvLen | frameEncode => exact ended _ h
  | frameDecode type v =>
    simp only [exec, execFrameDecode] at h
    split at h
    · exact pure _ h
    · split at h
      · exact pure _ h
      · exact ended _ h
      · exact pure _ h
  | sessionOpen chip =>
    simp only [exec, execSessionOpen] at h
    split at h
    · exact ended _ h
    · split at h
      · exact ended _ h
      · rename_i hclosed
        cases h
        exact .opening _ _ hidle (not_not.mp hclosed)
  | sessionClose =>
    cases h
    exact closeBegin_move hfree
  | writeRegisters ops =>
    cases h
    exact writeBegin_move hfree ops
  | readRegisters addrs al =>
    cases h
    exact readBegin_move hfree addrs al
  | statusRead =>
    simp only [exec, execStatusRead] at h
    split at h <;> exact ended _ h
  | demuxWrite v d =>
    cases h
    exact demuxWrite_move hfree v d
  | demuxRead src d =>
    simp only [exec, execDemuxRead] at h
    split at h
    · exact ended _ h
    · cases h
      exact demuxWaitStep_move hfree src d
  | frameDl40 a q rt p c => exact absurd rfl (notDl a q rt p c)
  | frameAck24 k q cp ta sa se oe ts c => exact absurd rfl (notAck k q cp ta sa se oe ts c)
  | frameRd24 d q c => exact absurd rfl (notRd d q c)
  | frameHit24 r => exact absurd rfl (notHit r)

/-- A command whose check of S.session stands in a step of its own touches that thread's slot alone. -/
theorem execApart_threadMove {code : BitVec 8} {ops : List Operand} {instr : Instr} {s' : State}
    (hidle : s.taskOf s.caller = none) (hd : decode (.command code ops) = .ok instr)
    (h : execApart instr s = .next s') : ThreadMove s s.caller s' := by
  have hfree := phasesOf_of_idle hidle
  simp only [execApart] at h
  split at h
  · rename_i c hc
    cases h
    split
    · exact .ended hfree _
    · rename_i hopen
      refine .waits hfree ?_ rfl
      cases instr <;> cases hc <;> exact not_not.mp hopen
  · exact exec_threadMove hidle hd h

/-- A command issued, however it is taken, keeps the invariant. -/
theorem issueBy_inv {run : Instr → State → Host.Outcome State Fault Refusal} {code : BitVec 8} {ops : List Operand}
    {s' : State} (hrun : ∀ {instr : Instr} {s s' : State}, s.taskOf s.caller = none →
      decode (.command code ops) = .ok instr → run instr s = .next s' → ThreadMove s s.caller s')
    (h : s.Inv) (hstep : issueBy run t code ops s = .next s') : s'.Inv := by
  have hcaller : ({ s with caller := t } : State).Inv := h.of_eq rfl rfl
  simp only [issueBy] at hstep
  split at hstep
  · cases hstep
    exact h
  rename_i hbusy
  have hidle : ({ s with caller := t } : State).taskOf t = none := by simpa [State.taskOf] using hbusy
  split at hstep
  · rename_i instr hd
    exact (hrun hidle hd hstep).inv hcaller
  · cases hstep
    exact (ThreadMove.ended (phasesOf_of_idle hidle) _).inv hcaller
  · cases hstep

end

/-! ### Every step keeps the invariant -/

/-- With every item at its reset value and no command in progress the invariant holds (R360). -/
theorem State.Inv.of_reset {s : State} (hS : s.S = SessionState.reset) (hthreads : s.threads = []) : s.Inv := by
  have hnone : ∀ t, s.taskOf t = none := by
    intro t
    rw [State.taskOf, hthreads]
    rfl
  refine .of_parts (by rw [hthreads]; rfl) (hS ▸ reset_wf) (.inl ⟨by rw [hS]; rfl, fun t => ?_⟩) fun t k hk => ?_
  · exact phasesOf_of_idle (hnone t)
  · cases (hnone t).symm.trans hk

/-- Settles O58. -/
theorem resetMeetsInvariant : Obligations.ResetMeetsInvariant := by
  unfold Obligations.ResetMeetsInvariant
  exact .of_reset rfl rfl

/-- A 24-bit word crossing the port keeps the invariant. -/
theorem uplinkWord_inv {s s' : State} (h : s.Inv) {w : BitVec 24} (hstep : uplinkWord w s = .next s') : s'.Inv := by
  cases hd : decode (.up w) with
  | ok i =>
    obtain ⟨w', e⟩ := exec_of_decode_up hd s
    rw [uplinkWord_decoded hd, e] at hstep
    cases hstep
    exact uplinkCrosses_inv h w'
  | error e =>
    rw [uplinkWord_noFrame hd] at hstep
    cases hstep
    exact uplinkCrosses_inv h w

/-- What every choice does keeps the invariant. -/
theorem stepInput_inv {P : Config.Params} {i : Input} {s s' : State} (h : s.Inv)
    (hstep : stepInput P i s = .next s') : s'.Inv := by
  cases i with
  | issue t code ops => exact issueBy_inv exec_threadMove h hstep
  | issueApart t code ops => exact issueBy_inv execApart_threadMove h hstep
  | down w =>
    cases hstep
    exact downlinkCrosses_inv h _
  | up w => exact uplinkWord_inv h hstep
  | advance t =>
    cases hstep
    simp only [advanceThread]
    split
    · rename_i task ht
      exact (taskStep_threadMove h ht).inv h
    · exact h
  | timeout t =>
    cases hstep
    simp only [timeoutThread]
    split
    · rename_i task ht
      exact (taskTimeout_threadMove h ht).inv h
    · exact h
  | sendw =>
    cases hstep
    exact sendwStep_inv h
  | pollw =>
    cases hstep
    exact pollwStep_inv h
  | comm onWrite onRead =>
    cases hstep
    exact commStep_inv h onWrite onRead
  | rst =>
    cases hstep
    exact .of_reset rfl rfl

/-- Settles O59: the choice is taken off the list, which the invariant does not speak of, and then acts. -/
theorem stepKeepsInvariant : Obligations.StepKeepsInvariant := by
  unfold Obligations.StepKeepsInvariant
  intro s s' h hstep
  cases hi : s.inputs with
  | nil =>
    rw [step, stepWith_nil hi] at hstep
    cases hstep
    exact h
  | cons i rest =>
    rw [step_cons hi] at hstep
    have hrest : ({ s with inputs := rest } : State).Inv := h.of_eq rfl rfl
    exact stepInput_inv hrest hstep

/-! ### The residue of a CRC (R179, R210) -/

/-- A register fed with the bits it still holds, its most significant bit first, shifts out to zero: the feedback bit is
zero at every step. -/
theorem crcFrom_bits_held (p : Poly) (r : Nat) {w : Nat} (hw : w ≤ p.degree) :
    crcFrom p (r * 2 ^ (p.degree - w) % 2 ^ p.degree) (bits w r) = 0 := by
  induction w with
  | zero => simp [bits]
  | succ w ih =>
    have hmsb : (r * 2 ^ (p.degree - (w + 1)) % 2 ^ p.degree).testBit (p.degree - 1) = r.testBit w := by
      rw [Nat.testBit_mod_two_pow, Nat.testBit_mul_two_pow]
      have hpos : p.degree - 1 < p.degree := by omega
      have hle : p.degree - (w + 1) ≤ p.degree - 1 := by omega
      have hsub : p.degree - 1 - (p.degree - (w + 1)) = w := by omega
      simp [hpos, hle, hsub]
    have hshift : (r * 2 ^ (p.degree - (w + 1)) % 2 ^ p.degree) <<< 1 % 2 ^ p.degree =
        r * 2 ^ (p.degree - w) % 2 ^ p.degree := by
      have hexp : p.degree - w = p.degree - (w + 1) + 1 := by omega
      rw [Nat.shiftLeft_eq, Nat.mod_mul_mod, pow_one, hexp, Nat.pow_succ, Nat.mul_assoc]
    have hstep : crcStep p (r * 2 ^ (p.degree - (w + 1)) % 2 ^ p.degree) (r.testBit w) =
        r * 2 ^ (p.degree - w) % 2 ^ p.degree := by
      simp only [crcStep, hmsb, Bool.xor_self, Bool.false_eq_true, if_false, hshift]
    rw [bits, crcFrom_cons, hstep]
    exact ih (by omega)

/-- Data followed by its own CRC leave the register at zero (R179). -/
theorem crcFrom_append_own {p : Poly} (hp : p.normal < 2 ^ p.degree) {start : Nat} (hs : start < 2 ^ p.degree)
    (data : Bv) : crcFrom p start (data ++ bits p.degree (crcFrom p start data)) = 0 := by
  have hlt := crcFrom_lt hp hs data
  have h := crcFrom_bits_held p (crcFrom p start data) le_rfl
  rw [Nat.sub_self, pow_zero, Nat.mul_one, Nat.mod_eq_of_lt hlt] at h
  rw [crcFrom_append, h]

/-- A frame that carries the CRC of its own body verifies (R213). -/
theorem crcOkFlag_fresh {t : FrameType} {p : Poly} (h : Config.polyOf t = some p) (xs : List Nat) :
    crcOkFlag ⟨t, xs, some (crcOf p (bodyBits t xs))⟩ = some true := by
  have hp : p.normal < 2 ^ p.degree := by cases t <;> cases h <;> decide
  have hinit : crcInit p < 2 ^ p.degree := Nat.sub_lt (by positivity) Nat.one_pos
  have hw : Config.crcWidth t = p.degree := by simp [Config.crcWidth, h]
  have hzero := crcFrom_append_own hp hinit (bodyBits t xs)
  simp only [crcOkFlag, h, Option.map_some, frameBits, hw, crcOf, hzero, beq_self_eq_true]

/-! ### Decoding the bits and the bytes of a frame (R209, R211) -/

/-- The fields and the crc of a frame are read back from its bits after the leading ones of its type. -/
theorem parseBody_frameBits {f : Frame} (h : f.wellFormed = true) :
    parseBody f.type ((frameBits f).drop (Config.prefixOf f.type).2) = f := by
  obtain ⟨t, xs, c⟩ := f
  simp only [Frame.wellFormed, Bool.and_eq_true] at h
  obtain ⟨hfit, hcrc⟩ := h
  simp only [parseBody, frameBits, bodyBits, prefixBits, List.append_assoc]
  rw [List.drop_left' (length_bits ..), unpackFields_packFields hfit]
  cases hp : Config.polyOf t with
  | none =>
    cases c with
    | none => rfl
    | some c => simp [hp] at hcrc
  | some p =>
    cases c with
    | none => simp [hp] at hcrc
    | some c =>
      have hlt : c < 2 ^ p.degree := by simpa [hp] using hcrc
      simp [Config.crcWidth, hp, bvValue_bits_of_lt hlt]

/-- Decoding the bits of a frame gives the frame back (R214). -/
theorem frameDecode_frameBits {f : Frame} (h : f.wellFormed = true) :
    frameDecode f.type (frameBits f) = .ok (.frame f (crcOkFlag f)) := by
  have hlen := length_frameBits h
  have hprefix := frameBits_take_prefix f
  have hle : (Config.prefixOf f.type).2 ≤ Config.frameWidth f.type := by cases f.type <;> decide
  rcases frameDecode_cases f.type (frameBits f) with ⟨hl, -⟩ | ⟨-, hne, -⟩ | ⟨-, hne, -⟩ | ⟨-, -, e⟩
  · omega
  · exact absurd hprefix hne
  · exact absurd hlen hne
  · rwa [parseBody_frameBits h] at e

/-- A vector with other leading bits is not of the type (R209). -/
theorem frameDecode_of_prefix_ne {t : FrameType} {v : Bv} (hl : (Config.prefixOf t).2 ≤ v.length)
    (h : v.take (Config.prefixOf t).2 ≠ prefixBits t) : frameDecode t v = .ok .prefixMismatch := by
  rcases frameDecode_cases t v with ⟨hlt, -⟩ | ⟨-, -, e⟩ | ⟨he, -, -⟩ | ⟨he, -, -⟩
  · omega
  · exact e
  · exact absurd he h
  · exact absurd he h

/-- The bits of the bytes of a frame of whole bytes are the bits of the frame (R207). -/
theorem bitsOfBytes_frameBytes {f : Frame} (h : (frameBits f).length % 8 = 0) :
    bitsOfBytes (frameBytes f) = frameBits f :=
  bitsOfBytes_bytesOfBits _ _ (Nat.mul_div_cancel' (Nat.dvd_of_mod_eq_zero h)).symm

/-- UPLINK_RESOLVE of the bytes of a ReadData frame answers that frame (R211). -/
theorem uplinkResolve_rd {f : Frame} (h : f.wellFormed = true) (ht : f.type = .rd) :
    uplinkResolve (frameBytes f) = .ok (.rd, some (f, crcOkFlag f)) := by
  have hlen : (frameBits f).length = 24 := by rw [length_frameBits h, ht]; rfl
  have hbits : bitsOfBytes (frameBytes f) = frameBits f := bitsOfBytes_frameBytes (by rw [hlen])
  have hbytes : (frameBytes f).length = 3 := by
    have := length_bitsOfBytes (frameBytes f)
    rw [hbits, hlen] at this
    omega
  have htake : (frameBits f).take 3 = [true, false, true] := by
    have hprefix := frameBits_take_prefix f
    rw [ht] at hprefix
    exact hprefix
  have hHit : frameDecode .hit (frameBits f) = .ok .prefixMismatch := by
    have htake1 : (frameBits f).take 1 = [true] := by
      rw [show (1 : Nat) = min 1 3 from rfl, ← List.take_take, htake]
      rfl
    refine frameDecode_of_prefix_ne ?_ ?_
    · rw [hlen]; decide
    · change (frameBits f).take 1 ≠ prefixBits .hit
      rw [htake1]
      decide
  have hAck : frameDecode .ack (frameBits f) = .ok .prefixMismatch := by
    refine frameDecode_of_prefix_ne ?_ ?_
    · rw [hlen]; decide
    · change (frameBits f).take 3 ≠ prefixBits .ack
      rw [htake]
      decide
  have hRd : frameDecode .rd (frameBits f) = .ok (.frame f (crcOkFlag f)) := ht ▸ frameDecode_frameBits h
  simp [uplinkResolve, hbytes, hbits, Config.probeOrder, resolveIn, hHit, hAck, hRd, kindOf]

/-! ### A CRC-valid response (R252, R257) -/

/-- The ReadData frame with a fresh CRC is a frame value. -/
theorem readDataFrame_wellFormed (q : BitVec 3) (d : BitVec 15) : (readDataFrame q d).wellFormed = true := by
  have hcrc : crcOf Config.polyRd (bodyBits .rd [d.toNat, q.toNat]) < 2 ^ 3 :=
    crcFrom_lt (p := Config.polyRd) (by decide) (by decide) _
  have hd : d.toNat < 2 ^ 15 := d.isLt
  have hq : q.toNat < 2 ^ 3 := q.isLt
  simp only [Frame.wellFormed, readDataFrame, Config.fieldWidths, Config.fieldList, Config.polyOf, Config.polyRd,
    List.map_cons, List.map_nil, fitWidths, Bool.and_eq_true, decide_eq_true_eq] at hcrc ⊢
  exact ⟨⟨hd, hq, trivial⟩, hcrc⟩

/-- READ_FRAME(RD) returns a CRC-valid ReadData frame and counts nothing. -/
theorem acceptValue_readDataFrame (P : Config.Params) (q : BitVec 3) (d : BitVec 15) (S : SessionState) :
    acceptValue P .rd (.bytes (frameBytes (readDataFrame q d))) S = (.frame ⟨readDataFrame q d, true⟩, S) := by
  have hok : crcOkFlag (readDataFrame q d) = some true := crcOkFlag_fresh (p := Config.polyRd) rfl _
  simp [acceptValue, uplinkResolve_rd (readDataFrame_wellFormed q d) rfl, hok, takeFrame, countFrame]

/-- KEEP of it appends its pair (R257). -/
theorem keep_readDataFrame (S : SessionState) (q : BitVec 3) (d : BitVec 15) :
    S.keep ⟨readDataFrame q d, true⟩ = { S with ret := S.ret ++ [(q, d)] } := keep_rd S d q _ true

/-! ### Setting a slot twice -/

theorem assocInsert_insert {α : Type} (k : Nat) (v w : α) (l : List (Nat × α)) :
    assocInsert k w (assocInsert k v l) = assocInsert k w l := by
  induction l with
  | nil => simp [assocInsert]
  | cons e es ih =>
    by_cases hlt : k < e.1
    · simp [assocInsert, hlt]
    · by_cases heq : e.1 = k
      · simp [assocInsert, heq]
      · simp [assocInsert, hlt, heq, ih]

theorem assocErase_insert {α : Type} (k : Nat) (v : α) (l : List (Nat × α)) :
    assocErase k (assocInsert k v l) = assocErase k l := by
  induction l with
  | nil => simp [assocInsert, assocErase]
  | cons e es ih =>
    have ih' : (assocInsert k v es).filter (fun e => e.1 != k) = es.filter (fun e => e.1 != k) := ih
    by_cases hlt : k < e.1
    · simp [assocInsert, assocErase, hlt]
    · by_cases heq : e.1 = k
      · simp [assocInsert, assocErase, heq]
      · simp [assocInsert, assocErase, hlt, heq, ih']

theorem assocErase_erase {α : Type} (k : Nat) (l : List (Nat × α)) :
    assocErase k (assocErase k l) = assocErase k l := by
  simp [assocErase]

/-- Of two commands put in a thread one after the other the second stays. -/
@[simp] theorem setTask_setTask (s : State) (t : ThreadId) (k k' : Task) :
    (s.setTask t k).setTask t k' = s.setTask t k' := by
  simp only [State.setTask, assocInsert_insert]

/-- The session state and the commands in progress are replaced apart. -/
theorem withS_setTask (s : State) (t : ThreadId) (k : Task) (S' : SessionState) :
    (s.setTask t k).withS S' = (s.withS S').setTask t k := rfl

/-- The session state replaced by itself. -/
@[simp] theorem withS_self (s : State) : s.withS s.S = s := rfl

/-- A receive queue set and then emptied is emptied. -/
theorem setRx_setRx_nil (S : SessionState) (src : Chan) (q : List Value) :
    (S.setRx src q).setRx src [] = S.setRx src [] := by
  cases q with
  | nil => simp [SessionState.setRx, assocErase_erase]
  | cons v q => simp [SessionState.setRx, assocErase_insert]

/-- In canonical form, emptying an empty receive queue changes nothing. -/
theorem setRx_nil_of_empty {S : SessionState} (hwf : S.rxWf = true) {src : Chan} (h : S.rx src = []) :
    S.setRx src [] = S := by
  have habsent : assocGet src S.rxq = none := by
    cases hg : assocGet src S.rxq with
    | none => rfl
    | some q =>
      simp only [SessionState.rxWf, Bool.and_eq_true, List.all_eq_true] at hwf
      have hne := hwf.2 _ (assocGet_mem hg)
      rw [SessionState.rx, hg] at h
      simp_all
  simp [SessionState.setRx, assocErase_of_absent habsent]

/-! ### The steps of a read whose requests are all answered (R257 to R259) -/

/-- The command put in a thread takes its next step. -/
theorem advanceThread_setTask (P : Config.Params) (s : State) (t : ThreadId) (k : Task) :
    advanceThread P t (s.setTask t k) = taskStep P t k (s.setTask t k) := by
  simp only [advanceThread, setTask_taskOf_same]

/-- The command in progress in a thread takes its next step. -/
theorem advanceThread_of_task (P : Config.Params) {s : State} {t : ThreadId} {k : Task} (h : s.taskOf t = some k) :
    advanceThread P t s = taskStep P t k s := by
  simp only [advanceThread, h]

theorem runThread_succ (P : Config.Params) (t : ThreadId) (k : Nat) (s : State) :
    runThread P t (k + 1) s = runThread P t k (advanceThread P t s) := rfl

/-- Steps of a thread one after the other. -/
theorem runThread_add (P : Config.Params) (t : ThreadId) (a b : Nat) (s : State) :
    runThread P t (a + b) s = runThread P t b (runThread P t a s) := by
  induction a generalizing s with
  | zero => rw [Nat.zero_add]; rfl
  | succ a ih => rw [Nat.succ_add, runThread_succ, runThread_succ, ih]

/-- Step 2 of a read with this many attempts to make (R257). -/
def attempts : Nat → ReadPc
  | 0 => .guardFirst
  | k + 1 => .collect (k + 1) .start

/-- An attempt over, one less is to make. -/
theorem nextAttempt_succ (k : Nat) : nextAttempt (k + 1) = attempts k := by
  cases k <;> rfl

/-- What ENV delivers where a request numbered `e.1` is answered with the data `e.2`. -/
def readResponse (e : BitVec 3 × BitVec 15) : Value := .bytes (frameBytes (readDataFrame e.1 e.2))

section
variable {P : Config.Params} {t : ThreadId} {n : Nat} {al : Bool} {s : State}

/-- After its last request a read starts its attempts, one per address (R255). -/
theorem readStep_send_nil (hs : s.taskOf t = some (.read n al (.send []))) : advanceThread P t s =
    (s.withS { s.S with rapPhase := .rCollect }).setTask t (.read n al (attempts n)) := by
  rw [advanceThread_of_task P hs]
  cases n <;> rfl

/-- An attempt that finds a CRC-valid response takes four steps: nothing is pending, there is no fault, the response is
popped, and KEEP appends its pair (R252, R257). -/
theorem runThread_attempt {left : Nat} {e : BitVec 3 × BitVec 15} {rest : List Value} (hpend : s.S.pendRd = [])
    (hfault : s.S.fault = false) (hrx : s.S.rx P.ctrlSrc = readResponse e :: rest) :
    runThread P t 4 (s.setTask t (.read n al (.collect left .start))) =
      (s.withS { s.S.setRx P.ctrlSrc rest with ret := s.S.ret ++ [e] }).setTask t
        (.read n al (nextAttempt left)) := by
  have hstart : advanceThread P t (s.setTask t (.read n al (.collect left .start))) =
      s.setTask t (.read n al (.collect left .check)) := by
    rw [advanceThread_setTask]
    simp [taskStep, readStep, readFrameStep, SessionState.pend, hpend, readCollect, withS_setTask]
  have hcheck : advanceThread P t (s.setTask t (.read n al (.collect left .check))) =
      s.setTask t (.read n al (.collect left .wait)) := by
    rw [advanceThread_setTask]
    simp [taskStep, readStep, readFrameStep, hfault, readCollect, withS_setTask]
  have hwait : advanceThread P t (s.setTask t (.read n al (.collect left .wait))) =
      (s.withS (s.S.setRx P.ctrlSrc rest)).setTask t (.read n al (.collect left (.got (readResponse e)))) := by
    rw [advanceThread_setTask]
    simp [taskStep, readStep, readFrameStep, SessionState.waitPop, hrx, readCollect, withS_setTask]
  have hgot : ∀ u : State, advanceThread P t (u.setTask t (.read n al (.collect left (.got (readResponse e))))) =
      (u.withS { u.S with ret := u.S.ret ++ [e] }).setTask t (.read n al (nextAttempt left)) := by
    intro u
    rw [advanceThread_setTask]
    simp [taskStep, readStep, readFrameStep, readResponse, acceptValue_readDataFrame, readCollect, keep_readDataFrame,
      withS_setTask]
  calc runThread P t 4 (s.setTask t (.read n al (.collect left .start)))
      = advanceThread P t (advanceThread P t (advanceThread P t (advanceThread P t
          (s.setTask t (.read n al (.collect left .start)))))) := rfl
    _ = _ := by rw [hstart, hcheck, hwait, hgot]; rfl

/-- Step 2 with a CRC-valid response waiting for every attempt collects them all, in order (R257). -/
theorem runThread_attempts (l : List (BitVec 3 × BitVec 15)) (hpend : s.S.pendRd = []) (hfault : s.S.fault = false)
    (hwf : s.S.rxWf = true) (hrx : s.S.rx P.ctrlSrc = l.map readResponse) :
    runThread P t (4 * l.length) (s.setTask t (.read n al (attempts l.length))) =
      (s.withS { s.S.setRx P.ctrlSrc [] with ret := s.S.ret ++ l }).setTask t (.read n al .guardFirst) := by
  induction l generalizing s with
  | nil =>
    rw [setRx_nil_of_empty hwf hrx, List.append_nil]
    rfl
  | cons e l ih =>
    have hcount : 4 * (e :: l).length = 4 + 4 * l.length := by rw [List.length_cons]; omega
    rw [hcount, runThread_add]
    simp only [List.length_cons, attempts]
    rw [runThread_attempt hpend hfault hrx, nextAttempt_succ,
      ih (s := s.withS { s.S.setRx P.ctrlSrc (l.map readResponse) with ret := s.S.ret ++ [e] }) hpend hfault
        (rxWf_setRx hwf _ _) (rx_setRx_same ..)]
    have hcollected : ({ (s.S.setRx P.ctrlSrc (l.map readResponse)).setRx P.ctrlSrc [] with
        ret := (s.S.ret ++ [e]) ++ l } : SessionState) = { s.S.setRx P.ctrlSrc [] with ret := s.S.ret ++ e :: l } := by
      rw [setRx_setRx_nil, List.append_assoc]
      rfl
    exact congrArg (fun S => (s.withS S).setTask t (.read n al .guardFirst)) hcollected

/-- A read whose requests are all answered stands, after its attempts, before the guard with the answers collected. -/
theorem runThread_collect (l : List (BitVec 3 × BitVec 15)) (hs : s.taskOf t = some (.read l.length al (.send [])))
    (hpend : s.S.pendRd = []) (hfault : s.S.fault = false) (hret : s.S.ret = []) (hwf : s.S.rxWf = true)
    (hrx : s.S.rx P.ctrlSrc = l.map readResponse) :
    runThread P t (4 * l.length + 1) s =
      (s.withS { s.S.setRx P.ctrlSrc [] with rapPhase := .rCollect, ret := l }).setTask t
        (.read l.length al .guardFirst) := by
  have hall : s.S.ret ++ l = l := by rw [hret, List.nil_append]
  rw [runThread_succ, readStep_send_nil hs,
    runThread_attempts (s := s.withS { s.S with rapPhase := .rCollect }) l hpend hfault hwf hrx]
  exact congrArg (fun ret => (s.withS { s.S.setRx P.ctrlSrc [] with rapPhase := .rCollect, ret := ret }).setTask t
    (.read l.length al .guardFirst)) hall

/-- A guard that holds is followed by FAST and the return of the data (R258, R259). -/
theorem runThread_guardFirst_fast (h : s.S.exp = s.S.ret.map Prod.fst) :
    runThread P t 3 (s.setTask t (.read n al .guardFirst)) =
      ((s.withS (s.S.fastPath n)).setTask t (.read n al .ret)).finish t (.reads (s.S.ret.map (fun r => some r.2))) := by
  have hguard : advanceThread P t (s.setTask t (.read n al .guardFirst)) = s.setTask t (.read n al .fast) := by
    rw [advanceThread_setTask]
    simp [taskStep, readStep, readGuard, guardHolds, h]
  have hfast : advanceThread P t (s.setTask t (.read n al .fast)) =
      (s.withS (s.S.fastPath n)).setTask t (.read n al .ret) := by
    rw [advanceThread_setTask]
    simp [taskStep, readStep, withS_setTask]
  calc runThread P t 3 (s.setTask t (.read n al .guardFirst))
      = advanceThread P t (advanceThread P t (advanceThread P t (s.setTask t (.read n al .guardFirst)))) := rfl
    _ = _ := by rw [hguard, hfast, advanceThread_setTask]; rfl

end

/-- Settles O38: the attempts collect the responses, their numbers are the expected ones, and the fast path returns
their data. -/
theorem losslessExchangeReturnsData : Obligations.LosslessExchangeReturnsData := by
  unfold Obligations.LosslessExchangeReturnsData
  intro P t al data s hs hfault hpend hret hlen hwf hrx
  have hcount : (s.S.exp.zip data).length = data.length := by rw [List.length_zip, hlen, Nat.min_self]
  have hnumbers : s.S.exp = (s.S.exp.zip data).map Prod.fst := (List.map_fst_zip hlen.le).symm
  have hdata : (s.S.exp.zip data).map (fun r => some r.2) = data.map some := by
    conv_rhs => rw [← List.map_snd_zip hlen.ge, List.map_map]
    rfl
  have hcollect := runThread_collect (P := P) (s.S.exp.zip data) (hcount ▸ hs) hpend hfault hret hwf hrx
  have hrun : runThread P t (4 * data.length + 4) s =
      ((s.withS { s.S.setRx P.ctrlSrc [] with
          rapPhase := .rCollect
          ret := s.S.exp.zip data
          res := data.map some
          cMatched := saturate data.length }).setTask t (.read data.length al .ret)).finish t
        (.reads (data.map some)) := by
    rw [hcount] at hcollect
    rw [show 4 * data.length + 4 = 4 * data.length + 1 + 3 from rfl, runThread_add, hcollect,
      runThread_guardFirst_fast hnumbers, ← hdata]
    rfl
  simp only [hrun]
  refine ⟨rfl, endCommand_taskOf_same .., ?_⟩
  rw [State.finish, endCommand_S, phaseAfter_of_task (setTask_taskOf_same ..)]
  rfl

end Sys2Proof.Machine

/-! The proofs of the family `20_memory`: the order of the values in a receive queue. -/

namespace Sys2Proof.Machine

/-- How one move takes the receive queue of a source on: only a WaitPop and a TP_Read of a value reach S.rxq, each at the
queue of its own source, and only the two ways to the values of R51 replace every queue (R15, R311). -/
theorem Move.rx {P : Config.Params} {s : State} {i : Input} {S' : SessionState} {wire : List TpEvent}
    (hm : Move P s i S' wire) (src : Chan) :
    S'.rx src = s.S.rx src ∨
    (∃ v, S'.rx src = s.S.rx src ++ [v] ∧ wire = s.wire ++ [.read (.data src v)]) ∨
    (∃ v, s.S.rx src = v :: S'.rx src) ∨
    S' = SessionState.reset ∨ ∃ a, S' = SessionState.atOpen a := by
  cases hm with
  | pop source v q hq =>
    by_cases h : src = source
    · subst h
      exact .inr (.inr (.inl ⟨v, by rw [rx_setRx_same, hq]⟩))
    · exact .inl (rx_setRx_other _ h q)
  | readValue source v =>
    by_cases h : src = source
    · subst h
      exact .inr (.inl ⟨v, rx_pushRx_same .., rfl⟩)
    · exact .inl (rx_pushRx_other _ h v)
  | reset => exact .inr (.inr (.inr (.inl rfl)))
  | opening => exact .inr (.inr (.inr (.inr ⟨_, rfl⟩)))
  | sendw =>
    obtain ⟨q, st, wq, w, e⟩ := sendwStep_touches s.S
    exact .inl (by rw [e]; rfl)
  | pollw =>
    obtain ⟨n, w, -, e⟩ := pollwStep_touches s.S
    exact .inl (by rw [e]; rfl)
  | transaction | push | draw | stop | write | writeFault | readNothing | readFault | commExit => exact .inl rfl

/-- Settles O52, move by move. -/
theorem receiveQueuesKeepOrder : Obligations.ReceiveQueuesKeepOrder := by
  unfold Obligations.ReceiveQueuesKeepOrder
  intro s s' src h
  rcases step_move h with ⟨rfl, -⟩ | ⟨i, rest, -, hm⟩
  · exact .inl rfl
  · exact hm.rx src

end Sys2Proof.Machine

/-! The proofs of the family `30_encoding`: the port words of instructions, the prefixes of the uplink words, and the
frame words as bits, as bytes and at the transport port. -/

namespace Sys2Proof.Machine

open Sys2Proof.Laws

/-! ### Commands and their codes (R120, R121) -/

/-- A code names the command it belongs to. -/
theorem ofCode_code (c : Command) : Command.ofCode c.code = some c := by cases c <;> rfl

/-- A command's code beside operands that exist decodes to what the operands stand for. -/
theorem decode_code {c : Command} {ops : List Operand} {i : Instr} (hwf : ops.all Operand.wellFormed = true)
    (hops : decodeOperands c ops = some i) : decode (.command c.code ops) = .ok i := by
  simp only [decode, decodeCommand, ofCode_code, hwf, hops, if_true]

/-! ### The prefixes of the uplink words (R102 to R105) -/

/-- Bits taken from bits that were taken. -/
theorem extract_extract {n : Nat} (x : BitVec n) {lo len lo' len' : Nat} (h : lo' + len' ≤ len) :
    (x.extractLsb' lo len).extractLsb' lo' len' = x.extractLsb' (lo + lo') len' := by
  apply BitVec.eq_of_getLsbD_eq
  intro i hi
  have hin : lo' + i < len := by omega
  simp [hi, hin, Nat.add_assoc]

theorem decode_up_hit {w : BitVec 24} (h : w.extractLsb' 23 1 = 0#1) :
    decode (.up w) = .ok (.frameHit24 (w.extractLsb' 0 23)) := by
  simp only [decode, decodeUp, if_pos h]

/-- The first of the first three bits. -/
theorem extract_first (w : BitVec 24) : w.extractLsb' 23 1 = (w.extractLsb' 21 3).extractLsb' 2 1 := by
  rw [extract_extract _ (by decide)]

theorem decode_up_ack {w : BitVec 24} (h : w.extractLsb' 21 3 = 0b100#3) :
    decode (.up w) = .ok (.frameAck24 (w.extractLsb' 19 2) (w.extractLsb' 15 4) (w.extractLsb' 14 1)
      (w.extractLsb' 13 1) (w.extractLsb' 12 1) (w.extractLsb' 11 1) (w.extractLsb' 10 1) (w.extractLsb' 4 6)
      (w.extractLsb' 0 4)) := by
  have hHit : w.extractLsb' 23 1 ≠ 0#1 := by rw [extract_first, h]; decide
  simp only [decode, decodeUp, if_neg hHit, if_pos h]

theorem decode_up_rd {w : BitVec 24} (h : w.extractLsb' 21 3 = 0b101#3) :
    decode (.up w) = .ok (.frameRd24 (w.extractLsb' 6 15) (w.extractLsb' 3 3) (w.extractLsb' 0 3)) := by
  have hHit : w.extractLsb' 23 1 ≠ 0#1 := by rw [extract_first, h]; decide
  have hAck : w.extractLsb' 21 3 ≠ 0b100#3 := by rw [h]; decide
  simp only [decode, decodeUp, if_neg hHit, if_neg hAck, if_pos h]

/-! ### Reading the fields back from a frame word (R101 to R104) -/

theorem decode_encodeDl40 (chip seq : BitVec 4) (rt : BitVec 2) (payload crc : BitVec 15) :
    decode (.down (encodeDl40 chip seq rt payload crc)) = .ok (.frameDl40 chip seq rt payload crc) := by
  simp (disch := decide) only [decode, decodeDown, encodeDl40, extract_append_high, extract_append_low,
    BitVec.extractLsb'_eq_self, Nat.reduceSub]

theorem decode_encodeAck24 (ack : BitVec 2) (seq : BitVec 4) (cp ta sa se oe : BitVec 1) (ts : BitVec 6)
    (crc : BitVec 4) : decode (.up (encodeAck24 ack seq cp ta sa se oe ts crc)) =
      .ok (.frameAck24 ack seq cp ta sa se oe ts crc) := by
  rw [decode_up_ack (EncodedRow.frameAck24 ack seq cp ta sa se oe ts crc)]
  simp (disch := decide) only [encodeAck24, extract_append_high, extract_append_low, BitVec.extractLsb'_eq_self,
    Nat.reduceSub]

theorem decode_encodeRd24 (data : BitVec 15) (seq crc : BitVec 3) :
    decode (.up (encodeRd24 data seq crc)) = .ok (.frameRd24 data seq crc) := by
  rw [decode_up_rd (EncodedRow.frameRd24 data seq crc)]
  simp (disch := decide) only [encodeRd24, extract_append_high, extract_append_low, BitVec.extractLsb'_eq_self,
    Nat.reduceSub]

theorem decode_encodeHit24 (raw : BitVec 23) : decode (.up (encodeHit24 raw)) = .ok (.frameHit24 raw) := by
  rw [decode_up_hit (EncodedRow.frameHit24 raw)]
  simp (disch := decide) only [encodeHit24, extract_append_low, BitVec.extractLsb'_eq_self]

/-- Settles O1, row by row: a command by its code and operands, a frame word by its leading bits and fields. -/
theorem decodeEncodeRoundTrip : Obligations.DecodeEncodeRoundTrip := by
  unfold Obligations.DecodeEncodeRoundTrip
  intro i hwf
  cases i with
  | bvFromValue | bvToValue | bvFromBytes | bvToBytes | bvAppendRight | bvAppendLeft | bvPopLeft | bvPopRight
  | bvConcat | bvReverse | bvEq | bvLen | polyNew | frameBuild | frameBuildCrc | frameDecode | uplinkResolve
  | sessionOpen | sessionClose | writeRegisters | readRegisters | statusRead | demuxWrite | demuxRead =>
    exact decode_code rfl rfl
  | polyToRepr p _ =>
    have hp : p.wellFormed = true := hwf
    exact decode_code (by simp [Operand.wellFormed, hp]) rfl
  | crc _ p start =>
    have hp : p.wellFormed = true := hwf
    cases start <;> exact decode_code (by simp [Operand.wellFormed, hp]) rfl
  | frameEncode f | frameCrcOk f =>
    have hf : f.wellFormed = true := hwf
    exact decode_code (by simp [Operand.wellFormed, hf]) rfl
  | frameDl40 => exact decode_encodeDl40 ..
  | frameAck24 => exact decode_encodeAck24 ..
  | frameRd24 => exact decode_encodeRd24 ..
  | frameHit24 => exact decode_encodeHit24 ..

/-! ### Putting a frame word together again from its fields (R101 to R104) -/

theorem encodeDl40_extract (w : BitVec 40) : encodeDl40 (w.extractLsb' 36 4) (w.extractLsb' 32 4)
    (w.extractLsb' 30 2) (w.extractLsb' 15 15) (w.extractLsb' 0 15) = w := by
  simp (disch := decide) only [encodeDl40, BitVec.extractLsb'_append_extractLsb'_eq_extractLsb']
  exact BitVec.extractLsb'_eq_self

theorem encodeAck24_extract {w : BitVec 24} (h : w.extractLsb' 21 3 = 0b100#3) :
    encodeAck24 (w.extractLsb' 19 2) (w.extractLsb' 15 4) (w.extractLsb' 14 1) (w.extractLsb' 13 1)
      (w.extractLsb' 12 1) (w.extractLsb' 11 1) (w.extractLsb' 10 1) (w.extractLsb' 4 6) (w.extractLsb' 0 4) = w := by
  simp (disch := decide) only [encodeAck24, ← h, BitVec.extractLsb'_append_extractLsb'_eq_extractLsb']
  exact BitVec.extractLsb'_eq_self

theorem encodeRd24_extract {w : BitVec 24} (h : w.extractLsb' 21 3 = 0b101#3) :
    encodeRd24 (w.extractLsb' 6 15) (w.extractLsb' 3 3) (w.extractLsb' 0 3) = w := by
  simp (disch := decide) only [encodeRd24, ← h, BitVec.extractLsb'_append_extractLsb'_eq_extractLsb']
  exact BitVec.extractLsb'_eq_self

theorem encodeHit24_extract {w : BitVec 24} (h : w.extractLsb' 23 1 = 0#1) : encodeHit24 (w.extractLsb' 0 23) = w := by
  simp (disch := decide) only [encodeHit24, ← h, BitVec.extractLsb'_append_extractLsb'_eq_extractLsb']
  exact BitVec.extractLsb'_eq_self

/-! ### A word of no frame (R105, R211) -/

/-- The bits of a word in two parts. -/
theorem bits_extract {m n : Nat} (w : BitVec (m + n)) :
    bits (m + n) w.toNat = bits m (w.extractLsb' n m).toNat ++ bits n (w.extractLsb' 0 n).toNat := by
  rw [← bits_append, BitVec.extractLsb'_append_extractLsb'_eq_extractLsb' (Nat.zero_add n).symm,
    BitVec.extractLsb'_eq_self]

/-- Where no type's leading bits match, the answer is NO_FRAME. -/
theorem resolveIn_noFrame {v : Bv} {ts : List FrameType} (h : ∀ t ∈ ts, frameDecode t v = .ok .prefixMismatch) :
    resolveIn v ts = .ok (.noFrame, none) := by
  induction ts with
  | nil => rfl
  | cons t ts ih =>
    rw [resolveIn, h t List.mem_cons_self]
    exact ih fun t' ht' => h t' (List.mem_cons_of_mem _ ht')

/-- UPLINK_RESOLVE answers NO_FRAME where the first three bits of its bytes are those of no uplink frame. -/
theorem uplinkResolve_noFrame {b : List Byte} {p v : Bv} (hb : bitsOfBytes b = p ++ v) (hlen : b.length = 3)
    (hp : ∀ t ∈ Config.probeOrder, (Config.prefixOf t).2 ≤ p.length ∧ p.take (Config.prefixOf t).2 ≠ prefixBits t) :
    uplinkResolve b = .ok (.noFrame, none) := by
  have hnone : ∀ t ∈ Config.probeOrder, frameDecode t (p ++ v) = .ok .prefixMismatch := by
    intro t ht
    obtain ⟨hle, hne⟩ := hp t ht
    refine frameDecode_of_prefix_ne ?_ ?_
    · rw [List.length_append]; omega
    · rwa [List.take_append_of_le_length hle]
  rw [uplinkResolve, if_neg (not_not.mpr hlen), hb, resolveIn_noFrame hnone]

/-- The bytes of a word that begins `110` or `111` are no frame's (R105). -/
theorem uplinkResolve_bytesOfUp {w : BitVec 24} (h : w.extractLsb' 21 3 = 0b110#3 ∨ w.extractLsb' 21 3 = 0b111#3) :
    uplinkResolve (bytesOfUp w) = .ok (.noFrame, none) := by
  have hb := (bitsOfBytes_bytesOfUp w).trans (bits_extract (m := 3) (n := 21) w)
  refine uplinkResolve_noFrame hb rfl ?_
  rcases h with h | h <;> rw [h] <;> decide

/-- A word that begins `110` or `111` begins `11`. -/
theorem extract_leading_11 {w : BitVec 24} (h : w.extractLsb' 21 3 = 0b110#3 ∨ w.extractLsb' 21 3 = 0b111#3) :
    w.extractLsb' 22 2 = 0b11#2 := by
  have h2 : w.extractLsb' 22 2 = (w.extractLsb' 21 3).extractLsb' 1 2 := by
    rw [extract_extract _ (by decide)]
  rcases h with h | h <;> rw [h2, h] <;> rfl

/-- The first bit by position from the left (R11). -/
theorem extract_first_of_msb {w : BitVec 24} (h : w.getMsbD 0 = false) : w.extractLsb' 23 1 = 0#1 := by
  apply BitVec.eq_of_getLsbD_eq
  intro i hi
  obtain rfl : i = 0 := by omega
  simpa [BitVec.getMsbD] using h

/-- Settles O2, one value of the leading bits at a time: the fields a word decodes to put the same word together again. -/
theorem uplinkPrefixSpace : Obligations.UplinkPrefixSpace := by
  unfold Obligations.UplinkPrefixSpace
  refine ⟨fun w => ⟨fun h => ?hit, fun h => ?ack, fun h => ?rd, fun h => ?none⟩, fun w => ?down⟩
  case hit =>
    have h0 := extract_first_of_msb h
    exact ⟨_, decode_up_hit h0, congrArg PortWord.up (encodeHit24_extract h0)⟩
  case ack => exact ⟨_, _, _, _, _, _, _, _, _, decode_up_ack h, congrArg PortWord.up (encodeAck24_extract h)⟩
  case rd => exact ⟨_, _, _, decode_up_rd h, congrArg PortWord.up (encodeRd24_extract h)⟩
  case none => exact ⟨decode_up_of_leading_11 (extract_leading_11 h), uplinkResolve_bytesOfUp h⟩
  case down => exact ⟨_, _, _, _, _, rfl, congrArg PortWord.down (encodeDl40_extract w)⟩

/-! ### The bits of a frame word are those of the frame value (R202, R207)

The width of a word is written as the sum of its fields' widths, along which `bits_append` takes the word apart. -/

theorem frameBits_dl40 (a s : BitVec 4) (t : BitVec 2) (p c : BitVec 15) :
    frameBits ⟨.dl, [a.toNat, s.toNat, t.toNat, p.toNat], some c.toNat⟩ = bits 40 (encodeDl40 a s t p c).toNat := by
  change _ = bits (4 + 4 + 2 + 15 + 15) (a ++ s ++ t ++ p ++ c).toNat
  simp only [bits_append, List.append_assoc]
  rfl

theorem frameBits_ack24 (k : BitVec 2) (s : BitVec 4) (cp ta sa se oe : BitVec 1) (t : BitVec 6) (c : BitVec 4) :
    frameBits ⟨.ack, [k.toNat, s.toNat, cp.toNat, ta.toNat, sa.toNat, se.toNat, oe.toNat, t.toNat], some c.toNat⟩ =
      bits 24 (encodeAck24 k s cp ta sa se oe t c).toNat := by
  change _ = bits (3 + 2 + 4 + 1 + 1 + 1 + 1 + 1 + 6 + 4)
    (0b100#3 ++ k ++ s ++ cp ++ ta ++ sa ++ se ++ oe ++ t ++ c).toNat
  simp only [bits_append, List.append_assoc]
  rfl

theorem frameBits_rd24 (d : BitVec 15) (s c : BitVec 3) :
    frameBits ⟨.rd, [d.toNat, s.toNat], some c.toNat⟩ = bits 24 (encodeRd24 d s c).toNat := by
  change _ = bits (3 + 15 + 3 + 3) (0b101#3 ++ d ++ s ++ c).toNat
  simp only [bits_append, List.append_assoc]
  rfl

theorem frameBits_hit24 (r : BitVec 23) :
    frameBits ⟨.hit, [r.toNat], none⟩ = bits 24 (encodeHit24 r).toNat := by
  change _ = bits (1 + 23) (0#1 ++ r).toNat
  rw [bits_append]
  rfl

/-- A frame with the bits of a 40-bit word has its bytes. -/
theorem bytesOfDown_of_bits {f : Frame} {w : BitVec 40} (h : frameBits f = bits 40 w.toNat) :
    bytesOfDown w = frameBytes f := by
  rw [frameBytes, h, length_bits, bytesOfDown]

/-- A frame with the bits of a 24-bit word has its bytes. -/
theorem bytesOfUp_of_bits {f : Frame} {w : BitVec 24} (h : frameBits f = bits 24 w.toNat) :
    bytesOfUp w = frameBytes f := by
  rw [frameBytes, h, length_bits, bytesOfUp]

/-- Settles O6: the two put the same fields in the same places. -/
theorem frameWordsAreCodecBytes : Obligations.FrameWordsAreCodecBytes := by
  unfold Obligations.FrameWordsAreCodecBytes
  exact ⟨fun a s t p c => bytesOfDown_of_bits (frameBits_dl40 a s t p c),
    fun k s cp ta sa se oe t c => bytesOfUp_of_bits (frameBits_ack24 k s cp ta sa se oe t c),
    fun d s c => bytesOfUp_of_bits (frameBits_rd24 d s c), fun r => bytesOfUp_of_bits (frameBits_hit24 r)⟩

/-! ### A frame word at the transport port (R310, R311) -/

theorem commWrites_iff (S : SessionState) (w : BitVec 40) :
    S.commWrites w = true ↔ S.wComm = .running ∧ S.wrq.head?.map (·.value) = some (.bytes (bytesOfDown w)) := by
  simp only [SessionState.commWrites, Bool.and_eq_true, beq_iff_eq]

/-- A Downlink word at the head of S.wrq is what COMM hands over. -/
theorem downlinkCrosses_of_writes {s : State} {w : BitVec 40} {dest : Chan} {rest : List Item}
    (hw : s.S.wComm = .running) (hq : s.S.wrq = ⟨.bytes (bytesOfDown w), dest⟩ :: rest) :
    downlinkCrosses w s =
      (s.withS { s.S with wrq := rest }).record (.wrote ⟨.bytes (bytesOfDown w), dest⟩ .ok) := by
  have hwrites : s.S.commWrites w = true := (commWrites_iff ..).mpr ⟨hw, by rw [hq]; rfl⟩
  rw [downlinkCrosses, if_pos hwrites, commStep, if_neg (not_not.mpr hw), hq]
  rfl

/-- A Downlink word changes nothing where COMM's next operation is not its TP_Write. -/
theorem downlinkCrosses_of_not_writes {s : State} {w : BitVec 40}
    (h : s.S.wComm ≠ .running ∨ s.S.wrq.head?.map (·.value) ≠ some (.bytes (bytesOfDown w))) :
    downlinkCrosses w s = s := by
  rw [downlinkCrosses, if_neg]
  rw [commWrites_iff]
  exact not_and_or.mpr h

/-- Settles O50: each frame row is the crossing of its word (assumption log 5). -/
theorem frameWordsCrossThePort : Obligations.FrameWordsCrossThePort := by
  unfold Obligations.FrameWordsCrossThePort
  refine ⟨fun s i w hi => ?up, fun s a q rt p c => ⟨fun dest rest hw hq => ?writes, fun h => ?stays⟩⟩
  case up =>
    have hexec : exec i s = .next (uplinkCrosses w s) := by
      rcases hi with ⟨d, q, c, rfl, rfl⟩ | ⟨r, rfl, rfl⟩ | ⟨k, q, cp, ta, sa, se, oe, t, c, rfl, rfl⟩ <;> rfl
    rw [hexec]
    exact ⟨fun hrun hq hp hstop => congrArg _ (uplinkCrosses_of_reads ((commReads_iff _).mpr ⟨hrun, hq, hp, hstop⟩) w),
      fun hno => congrArg _ (uplinkCrosses_of_not_reads ((not_commReads_iff _).mpr hno) w)⟩
  case writes => exact congrArg Host.Outcome.next (downlinkCrosses_of_writes hw hq)
  case stays => exact congrArg Host.Outcome.next (downlinkCrosses_of_not_writes h)

/-- Settles O3: the decoder evaluated on each word. -/
theorem writtenWordsDecode : Obligations.WrittenWordsDecode := by
  unfold Obligations.WrittenWordsDecode
  exact ⟨rfl, rfl, rfl, rfl, rfl, rfl, rfl, rfl, rfl, rfl⟩

end Sys2Proof.Machine

/-! The proofs of the family `40_bitvector`: the answer of a pure command, the value, the bytes and the parts of a
vector, and what each command of the BV unit answers. -/

namespace Sys2Proof.Machine

/-! ### The answer of a pure command (R9) -/

/-- A pure command with no check answers its result with status OK, and nothing else changes. -/
theorem answerPure_ok {s : State} (hidle : s.callerIdle) (x : Result) :
    s.answerPure (.ok x) = .next (s.answered .ok x) := answerPure_idle hidle _

section
variable {s : State} {α : Type} {f : α → Result} {r : Except ConstructionError α}

/-- A pure command whose checks pass answers its result with status OK, and nothing else changes. -/
theorem answerPure_map_ok (hidle : s.callerIdle) {x : α} (h : r = .ok x) :
    s.answerPure (r.map f) = .next (s.answered .ok (f x)) := by
  rw [h]
  exact answerPure_ok hidle _

/-- A pure command one of whose checks fails answers that error without a result, and nothing else changes. -/
theorem answerPure_map_error (hidle : s.callerIdle) {sub : SubCause} {operand : OperandName} {v : Operand}
    (h : r = constructionError sub operand v) :
    s.answerPure (r.map f) = .next (s.answered (.constructionError ⟨sub, operand, v⟩) .none) := by
  rw [h]
  exact answerPure_idle hidle _

end

/-! ### The value of a vector by its positions (R11) -/

/-- The bit at position p of n weighs 2^(n-1-p). -/
theorem bvValue_eq_sum (v : Bv) :
    bvValue v = ((List.range v.length).map (fun p => (v.getD p false).toNat * 2 ^ (v.length - 1 - p))).sum := by
  induction v with
  | nil => rfl
  | cons b v ih =>
    rw [bvValue_cons, ih, List.length_cons, List.range_succ_eq_map, List.map_cons, List.sum_cons, List.map_map]
    simp only [Function.comp_def, List.getD_cons_zero, List.getD_cons_succ, Nat.add_sub_cancel, Nat.sub_zero,
      Nat.sub_sub, Nat.succ_eq_add_one, Nat.add_comm 1]

/-- The value of the right part of a vector is what the division by its weight leaves. -/
theorem bvValue_append_mod (a b : Bv) : bvValue (a ++ b) % 2 ^ b.length = bvValue b := by
  rw [bvValue_append, Nat.mul_add_mod', Nat.mod_eq_of_lt (bvValue_lt b)]

/-- The flag of BV_EQ is equality of vectors (R140, R151). -/
theorem bvEqFlag_eq_decide (a b : Bv) : bvEqFlag a b = decide (a = b) := by
  rw [Bool.eq_iff_iff, decide_eq_true_iff, bvEqFlag, Bool.and_eq_true, beq_iff_eq, beq_iff_eq]
  exact ⟨fun ⟨hl, hv⟩ => bv_eq_of_value hl hv, fun h => ⟨congrArg _ h, congrArg _ h⟩⟩

/-! ### The bytes of a vector (R73, R74) -/

@[simp] theorem length_bytesOfBits (k : Nat) (v : Bv) : (bytesOfBits k v).length = k := by
  induction k generalizing v with
  | zero => rfl
  | succ k ih => rw [bytesOfBits, List.length_cons, ih]

/-- Byte i is the value of bits 8i to 8i+7. -/
theorem toNat_getD_bytesOfBits {i k : Nat} (v : Bv) (hi : i < k) :
    ((bytesOfBits k v).getD i 0).toNat = bvValue ((v.drop (8 * i)).take 8) := by
  induction k generalizing i v with
  | zero => cases hi
  | succ k ih =>
    cases i with
    | zero =>
      have hbyte : bvValue (v.take 8) < 2 ^ 8 :=
        (bvValue_lt _).trans_le (Nat.pow_le_pow_right (by decide) (List.length_take_le ..))
      simpa [bytesOfBits] using hbyte
    | succ i =>
      rw [bytesOfBits, List.getD_cons_succ, ih _ (by omega), List.drop_drop, Nat.mul_succ, Nat.add_comm]

/-- The bits of a byte string hold its bytes in order. -/
theorem bvValue_bitsOfBytes_byte {b : List Byte} {i : Nat} (hi : i < b.length) :
    bvValue (((bitsOfBytes b).drop (8 * i)).take 8) = (b.getD i 0).toNat := by
  have hback : bytesOfBits b.length (bitsOfBytes b) = b := by simpa using bytesOfBits_bitsOfBytes b []
  rw [← toNat_getD_bytesOfBits _ hi, hback]

/-! ### What the checks of the BV unit let through (R141 to R149) -/

theorem bvFromValue_of_fits {value : Int} {size : Nat} (h : 0 ≤ value ∧ value < 2 ^ size) :
    bvFromValue value size = .ok (bits size value.toNat) := by
  rw [bvFromValue, if_neg (by push_cast; omega), overCapacity_false]
  rfl

theorem bvFromValue_out_of_range {value : Int} {size : Nat} (h : value < 0 ∨ 2 ^ size ≤ value) :
    bvFromValue value size = constructionError .valueRange .value (.int value) := by
  rw [bvFromValue, if_pos (by push_cast; exact h)]

/-- The value of the bits BV_FROM_VALUE answers. -/
theorem bvValue_bits_toNat {value : Int} {size : Nat} (h : 0 ≤ value ∧ value < 2 ^ size) :
    (bvValue (bits size value.toNat) : Int) = value := by
  obtain ⟨hnonneg, hfits⟩ := h
  have hlt : value.toNat < 2 ^ size := by zify; omega
  rw [bvValue_bits_of_lt hlt, Int.toNat_of_nonneg hnonneg]

/-- No result is too long: BV_MAX is unbounded (R140). -/
theorem bvFromBytes_eq (b : List Byte) : bvFromBytes b = .ok (bitsOfBytes b) := by
  rw [bvFromBytes, overCapacity_false]
  rfl

theorem bvToBytes_of_whole {v : Bv} (h : v.length % 8 = 0) : bvToBytes v = .ok (bytesOfBits (v.length / 8) v) := by
  rw [bvToBytes, if_neg (not_not.mpr h)]

theorem bvToBytes_of_not_whole {v : Bv} (h : v.length % 8 ≠ 0) :
    bvToBytes v = constructionError .widthMismatch .bv (.bv v) := by
  rw [bvToBytes, if_pos h]

theorem bvJoin_eq (a b : Bv) (named : OperandName) (culprit : Bv) : bvJoin a b named culprit = .ok (a ++ b) := by
  rw [bvJoin, overCapacity_false]
  rfl

theorem bvPopLeft_of_le {v : Bv} {k : Nat} (h : k ≤ v.length) : bvPopLeft v k = .ok (v.take k, v.drop k) := by
  rw [bvPopLeft, if_neg (by omega)]

theorem bvPopRight_of_le {v : Bv} {k : Nat} (h : k ≤ v.length) :
    bvPopRight v k = .ok (v.drop (v.length - k), v.take (v.length - k)) := by
  rw [bvPopRight, if_neg (by omega)]

theorem bvPopLeft_underflow {v : Bv} {k : Nat} (h : v.length < k) :
    bvPopLeft v k = constructionError .popUnderflow .k (.nat k) := by
  rw [bvPopLeft, if_pos h]

theorem bvPopRight_underflow {v : Bv} {k : Nat} (h : v.length < k) :
    bvPopRight v k = constructionError .popUnderflow .k (.nat k) := by
  rw [bvPopRight, if_pos h]

/-- The k rightmost bits of a vector are its value mod 2^k (R148). -/
theorem bvValue_drop_right {v : Bv} {k : Nat} (h : k ≤ v.length) :
    bvValue (v.drop (v.length - k)) = bvValue v % 2 ^ k := by
  have hk : (v.drop (v.length - k)).length = k := by rw [List.length_drop]; omega
  have hmod := bvValue_append_mod (v.take (v.length - k)) (v.drop (v.length - k))
  rw [List.take_append_drop, hk] at hmod
  exact hmod.symm

/-! ### The commands of the BV unit (R141 to R152) -/

/-- Settles O7. -/
theorem bvFromValueMeaning : Obligations.BvFromValueMeaning := by
  unfold Obligations.BvFromValueMeaning
  intro value size s hidle
  refine ⟨fun hfits => ?fits, fun hout => ?out⟩
  case fits =>
    exact ⟨bits size value.toNat, length_bits .., bvValue_bits_toNat hfits,
      answerPure_map_ok hidle (bvFromValue_of_fits hfits)⟩
  case out => exact answerPure_map_error hidle (bvFromValue_out_of_range hout)

/-- Settles O8. -/
theorem bvToValueMeaning : Obligations.BvToValueMeaning := by
  unfold Obligations.BvToValueMeaning
  intro v s
  refine ⟨decode_code (c := .bvToValue) rfl rfl, fun hidle => ?_⟩
  rw [← bvValue_eq_sum]
  exact answerPure_ok hidle _

/-- Settles O9: both directions turn on `toNat_getD_bytesOfBits`. -/
theorem bvBytesMeaning : Obligations.BvBytesMeaning := by
  unfold Obligations.BvBytesMeaning
  refine ⟨fun b s hidle => ?fromBytes, fun v s hidle h => ?notWhole, fun v s hidle h => ?whole⟩
  case fromBytes =>
    exact ⟨bitsOfBytes b, length_bitsOfBytes b, fun i hi => bvValue_bitsOfBytes_byte hi,
      answerPure_map_ok hidle (bvFromBytes_eq b)⟩
  case notWhole => exact answerPure_map_error hidle (bvToBytes_of_not_whole h)
  case whole =>
    exact ⟨bytesOfBits (v.length / 8) v, length_bytesOfBits ..,
      fun i hi => toNat_getD_bytesOfBits v (hi.trans_eq (length_bytesOfBits ..)),
      answerPure_map_ok hidle (bvToBytes_of_whole h)⟩

/-- Settles O10: each command joins the two vectors, and only BV_APPEND_LEFT takes them in the other order. -/
theorem bvJoinMeaning : Obligations.BvJoinMeaning := by
  unfold Obligations.BvJoinMeaning
  intro a b s hidle
  refine ⟨⟨a ++ b, List.length_append, bvValue_append a b, ?right, ?concat⟩,
    ⟨b ++ a, by rw [List.length_append, Nat.add_comm], bvValue_append b a, ?left⟩⟩
  case right | concat => exact answerPure_map_ok hidle (bvJoin_eq a b .b b)
  case left => exact answerPure_map_ok hidle (bvJoin_eq b a .b b)

/-- Settles O11. -/
theorem bvPopMeaning : Obligations.BvPopMeaning := by
  unfold Obligations.BvPopMeaning
  intro v k s hidle
  refine ⟨fun hk => ?left, fun hk => ?right, fun hk => ?underflow⟩
  case left =>
    exact ⟨v.take k, v.drop k, List.length_take_of_le hk, List.take_append_drop ..,
      answerPure_map_ok hidle (bvPopLeft_of_le hk)⟩
  case right =>
    exact ⟨v.drop (v.length - k), v.take (v.length - k), by rw [List.length_drop]; omega, List.take_append_drop ..,
      bvValue_drop_right hk, answerPure_map_ok hidle (bvPopRight_of_le hk)⟩
  case underflow =>
    exact ⟨answerPure_map_error hidle (bvPopLeft_underflow hk),
      answerPure_map_error hidle (bvPopRight_underflow hk)⟩

/-- Settles O12. -/
theorem bvReverseEqLenMeaning : Obligations.BvReverseEqLenMeaning := by
  unfold Obligations.BvReverseEqLenMeaning
  refine ⟨fun a b => ?codes, fun v s hidle => ?reverse, fun a b s hidle => ?eq, fun v s hidle => ?len⟩
  case codes =>
    exact ⟨decode_code (c := .bvReverse) rfl rfl, decode_code (c := .bvEq) rfl rfl,
      decode_code (c := .bvLen) rfl rfl⟩
  case reverse =>
    exact ⟨v.reverse, List.length_reverse, fun p hp => congrFun (List.getD_reverse p hp) false,
      answerPure_ok hidle _⟩
  case eq =>
    rw [← bvEqFlag_eq_decide]
    exact answerPure_ok hidle _
  case len => exact answerPure_ok hidle _

end Sys2Proof.Machine

/-! The proofs of the family `41_poly_crc`: the coefficients of the three representations, what the checks of POLY_NEW
let through, the CRC step as arithmetic on registers and on polynomials over GF(2), and the residue of a fed-back crc. -/

namespace Sys2Proof.Machine

/-! ### Reversal bit by bit (R13) -/

theorem bvValue_concat (v : Bv) (b : Bool) : bvValue (v ++ [b]) = 2 * bvValue v + b.toNat := by
  rw [bvValue_append, bvValue_cons]
  simp [Nat.mul_comm]

/-- Read from the right, position i of a vector is bit i of its value. -/
theorem testBit_bvValue_reverse (v : Bv) (i : Nat) : (bvValue v.reverse).testBit i = v.getD i false := by
  induction v generalizing i with
  | nil => simp
  | cons b v ih =>
    rw [List.reverse_cons, bvValue_concat]
    cases i with
    | zero => cases b <;> simp [Nat.testBit_zero, Nat.add_mod]
    | succ i =>
      have hhalf : (2 * bvValue v.reverse + b.toNat) / 2 = bvValue v.reverse := by
        have := b.toNat_lt
        omega
      rw [Nat.testBit_succ, hhalf, ih, List.getD_cons_succ]

theorem getD_bits {w i : Nat} (v : Nat) (hi : i < w) : (bits w v).getD i false = v.testBit (w - 1 - i) := by
  induction w generalizing i with
  | zero => cases hi
  | succ w ih =>
    cases i with
    | zero => simp [bits]
    | succ i =>
      rw [bits, List.getD_cons_succ, ih (by omega)]
      congr 1
      omega

theorem testBit_revBits {n i : Nat} (v : Nat) (hi : i < n) : (revBits n v).testBit i = v.testBit (n - 1 - i) := by
  rw [revBits, testBit_bvValue_reverse, getD_bits v hi]

theorem revBits_lt (n v : Nat) : revBits n v < 2 ^ n := by
  simpa [revBits] using bvValue_lt (bits n v).reverse

theorem revBits_revBits {n v : Nat} (h : v < 2 ^ n) : revBits n (revBits n v) = v := by
  have hbits : bits n (revBits n v) = (bits n v).reverse := by
    simpa [revBits] using bits_bvValue (bits n v).reverse
  rw [revBits, hbits, List.reverse_reverse, bvValue_bits_of_lt h]

/-! ### The Koopman form bit by bit (R171) -/

/-- Normal form puts x^0 under the bits of a Koopman value and drops x^d. -/
theorem testBit_toNormal_koopman (v d i : Nat) :
    (toNormal v d .koopman).testBit i = (decide (i < d) && (decide (i = 0) || v.testBit (i - 1))) := by
  simp only [toNormal, Nat.testBit_mod_two_pow, Nat.testBit_or, Nat.testBit_shiftLeft]
  cases i with
  | zero => simp
  | succ i => simp [Nat.testBit_succ]

/-- A Koopman value drops x^0 from the normal form and puts x^d over it. -/
theorem testBit_ofNormal_koopman (p : Poly) (i : Nat) :
    (ofNormal p .koopman).testBit i = (p.normal.testBit (i + 1) || decide (p.degree - 1 = i)) := by
  simp only [ofNormal, Nat.testBit_or, Nat.testBit_shiftRight, Nat.testBit_two_pow, Nat.add_comm 1]

/-! ### The representations convert into each other (R173 to R175) -/

theorem poly_wellFormed_iff (p : Poly) :
    p.wellFormed = true ↔
      1 ≤ p.degree ∧ p.degree ≤ 16 ∧ p.normal < 2 ^ p.degree ∧ p.normal.testBit 0 = true := by
  simp only [Poly.wellFormed, Bool.and_eq_true, decide_eq_true_eq, and_assoc]
  rfl

section
variable {p : Poly} {value d : Nat} {r : Repn}

theorem toNormal_lt (hv : value < 2 ^ d) : toNormal value d r < 2 ^ d := by
  cases r with
  | normal => exact hv
  | reversed => exact revBits_lt d value
  | koopman => exact Nat.mod_lt _ (Nat.two_pow_pos d)

/-- Under the check of R173 the normal form has the coefficient of x^0. -/
theorem testBit_zero_toNormal (hd : 1 ≤ d) (hbit : implicitBitOk value d r = true) :
    (toNormal value d r).testBit 0 = true := by
  cases r with
  | normal => exact hbit
  | reversed => rw [toNormal, testBit_revBits value hd]; exact hbit
  | koopman =>
    rw [testBit_toNormal_koopman, decide_eq_true (show 0 < d from hd)]
    rfl

theorem ofNormal_lt (hp : p.wellFormed = true) : ofNormal p r < 2 ^ p.degree := by
  obtain ⟨hd, -, hlt, -⟩ := (poly_wellFormed_iff p).mp hp
  cases r with
  | normal => exact hlt
  | reversed => exact revBits_lt ..
  | koopman =>
    refine Nat.or_lt_two_pow ?_ (Nat.pow_lt_pow_right (by decide) (by omega))
    rw [Nat.shiftRight_eq_div_pow]
    omega

theorem implicitBitOk_ofNormal (hp : p.wellFormed = true) : implicitBitOk (ofNormal p r) p.degree r = true := by
  obtain ⟨hd, -, -, hbit⟩ := (poly_wellFormed_iff p).mp hp
  cases r with
  | normal => exact hbit
  | reversed =>
    rw [implicitBitOk, ofNormal, testBit_revBits _ (by omega), Nat.sub_self]
    exact hbit
  | koopman => simp [implicitBitOk, testBit_ofNormal_koopman]

/-- R175, from a polynomial. -/
theorem toNormal_ofNormal (hp : p.wellFormed = true) : toNormal (ofNormal p r) p.degree r = p.normal := by
  obtain ⟨hd, -, hlt, hbit⟩ := (poly_wellFormed_iff p).mp hp
  cases r with
  | normal => rfl
  | reversed => exact revBits_revBits hlt
  | koopman =>
    refine Nat.eq_of_testBit_eq fun i => ?_
    rw [testBit_toNormal_koopman, testBit_ofNormal_koopman]
    rcases Nat.lt_or_ge i p.degree with hi | hi
    · cases i with
      | zero => simp [hi, hbit]
      | succ i => simp [hi]; omega
    · have : p.normal.testBit i = false :=
        Nat.testBit_lt_two_pow (hlt.trans_le (Nat.pow_le_pow_right (by decide) hi))
      simp [this]
      omega

/-- R175, from a value. -/
theorem ofNormal_toNormal (hd : 1 ≤ d) (hv : value < 2 ^ d) (hbit : implicitBitOk value d r = true) :
    ofNormal ⟨toNormal value d r, d⟩ r = value := by
  cases r with
  | normal => rfl
  | reversed => exact revBits_revBits hv
  | koopman =>
    refine Nat.eq_of_testBit_eq fun i => ?_
    rw [testBit_ofNormal_koopman, testBit_toNormal_koopman]
    rcases Nat.lt_trichotomy i (d - 1) with hi | rfl | hi
    · simp [show i + 1 < d by omega, show d - 1 ≠ i by omega]
    · simpa [implicitBitOk] using hbit.symm
    · have : value.testBit i = false :=
        Nat.testBit_lt_two_pow (hv.trans_le (Nat.pow_le_pow_right (by decide) (by omega)))
      simp [this]
      omega

/-! ### The checks of the converter (R172, R174) -/

theorem ofCode_of_le {repr : Nat} (h : repr ≤ 2) : ∃ r, Repn.ofCode repr = some r := by
  interval_cases repr <;> exact ⟨_, rfl⟩

theorem ofCode_reserved {repr : Nat} (h : 2 < repr) : Repn.ofCode repr = none := by
  match repr, h with
  | _ + 3, _ => rfl

/-- The bit R173 checks stands at position 0 in NORMAL and at d-1 in the others. -/
theorem implicitBitOk_of_code {repr : Nat} (hr : Repn.ofCode repr = some r) :
    implicitBitOk value d r = value.testBit (if repr = 0 then 0 else d - 1) := by
  match repr, hr with
  | 0, rfl => rfl
  | 1, rfl => rfl
  | 2, rfl => rfl

theorem polyToRepr_of_code {repr : Nat} (hr : Repn.ofCode repr = some r) :
    polyToRepr p repr = .ok (ofNormal p r) := by
  rw [polyToRepr, hr]

theorem polyToRepr_reserved {repr : Nat} (h : 2 < repr) :
    polyToRepr p repr = constructionError .badRepr .repr (.nat repr) := by
  rw [polyToRepr, ofCode_reserved h]

theorem polyNew_badDegree (repr : Nat) (h : d < 1 ∨ 16 < d) :
    polyNew value d repr = constructionError .badDegree .degree (.nat d) := if_pos h

section
variable {repr : Nat} (h1 : 1 ≤ d) (h16 : d ≤ 16)
include h1 h16

theorem polyNew_reserved (h : 2 < repr) : polyNew value d repr = constructionError .badRepr .repr (.nat repr) := by
  rw [polyNew, if_neg (by rw [Config.degMax]; omega), ofCode_reserved h]

variable (hr : Repn.ofCode repr = some r)
include hr

/-- With a legal degree and representation two checks are left. -/
theorem polyNew_of_code : polyNew value d repr =
    if 2 ^ d ≤ value then constructionError .valueRange .value (.nat value)
    else if !implicitBitOk value d r then constructionError .polyImplicitBit .value (.nat value)
    else .ok ⟨toNormal value d r, d⟩ := by
  rw [polyNew, if_neg (by rw [Config.degMax]; omega), hr]

theorem polyNew_valueRange (hv : 2 ^ d ≤ value) :
    polyNew value d repr = constructionError .valueRange .value (.nat value) := by
  rw [polyNew_of_code h1 h16 hr, if_pos hv]

theorem polyNew_polyImplicitBit (hv : value < 2 ^ d) (hbit : implicitBitOk value d r = false) :
    polyNew value d repr = constructionError .polyImplicitBit .value (.nat value) := by
  rw [polyNew_of_code h1 h16 hr, if_neg (by omega), if_pos (by simpa using hbit)]

theorem polyNew_of_legal (hv : value < 2 ^ d) (hbit : implicitBitOk value d r = true) :
    polyNew value d repr = .ok ⟨toNormal value d r, d⟩ := by
  rw [polyNew_of_code h1 h16 hr, if_neg (by omega), if_neg (by simpa using hbit)]

end

/-- What POLY_NEW accepts has passed all four checks. -/
theorem polyNew_ok {repr : Nat} (h : polyNew value d repr = .ok p) :
    1 ≤ d ∧ d ≤ 16 ∧ ∃ r, Repn.ofCode repr = some r ∧ value < 2 ^ d ∧ implicitBitOk value d r = true ∧
      p = ⟨toNormal value d r, d⟩ := by
  by_cases hd : d < 1 ∨ 16 < d
  · rw [polyNew_badDegree repr hd] at h
    cases h
  obtain ⟨h1, h16⟩ : 1 ≤ d ∧ d ≤ 16 := by omega
  by_cases hrepr : 2 < repr
  · rw [polyNew_reserved h1 h16 hrepr] at h
    cases h
  obtain ⟨r, hr⟩ := ofCode_of_le (Nat.not_lt.mp hrepr)
  by_cases hv : 2 ^ d ≤ value
  · rw [polyNew_valueRange h1 h16 hr hv] at h
    cases h
  cases hbit : implicitBitOk value d r with
  | false =>
    rw [polyNew_polyImplicitBit h1 h16 hr (Nat.not_le.mp hv) hbit] at h
    cases h
  | true =>
    rw [polyNew_of_legal h1 h16 hr (Nat.not_le.mp hv) hbit] at h
    cases h
    exact ⟨h1, h16, r, hr, Nat.not_le.mp hv, hbit, rfl⟩

end

/-! ### The commands of the converter (R172, R174) -/

/-- Settles O13: one clause per check of `polyNew`, and the coefficients of the normal form by representation. -/
theorem polyNewMeaning : Obligations.PolyNewMeaning := by
  unfold Obligations.PolyNewMeaning
  refine ⟨fun value d repr => decode_code (c := .polyNew) rfl rfl, fun value d repr s hidle => ?_⟩
  refine ⟨fun hd => ?degree, fun h1 h16 hrepr => ?repr, fun h1 h16 hrepr hv => ?range,
    fun h1 h16 hrepr hv hbit => ?bit, fun h1 h16 hrepr hv hbit => ?legal⟩
  case degree => exact answerPure_map_error hidle (polyNew_badDegree repr hd)
  case repr => exact answerPure_map_error hidle (polyNew_reserved h1 h16 hrepr)
  all_goals obtain ⟨r, hr⟩ := ofCode_of_le hrepr
  case range => exact answerPure_map_error hidle (polyNew_valueRange h1 h16 hr hv)
  all_goals rw [← implicitBitOk_of_code hr] at hbit
  case bit => exact answerPure_map_error hidle (polyNew_polyImplicitBit h1 h16 hr hv hbit)
  case legal =>
    refine ⟨toNormal value d r, toNormal_lt hv, testBit_zero_toNormal h1 hbit, ?normal, ?reversed, ?koopman,
      answerPure_map_ok hidle (polyNew_of_legal h1 h16 hr hv hbit)⟩
    case normal =>
      rintro rfl
      cases hr
      rfl
    case reversed =>
      rintro rfl i hi
      cases hr
      exact testBit_revBits value hi
    case koopman =>
      rintro rfl i hi hpos
      cases hr
      simp [testBit_toNormal_koopman, hi, hpos.ne']

/-- Settles O14: the coefficients of `ofNormal` by representation. -/
theorem polyToReprMeaning : Obligations.PolyToReprMeaning := by
  unfold Obligations.PolyToReprMeaning
  intro p repr s hp hidle
  refine ⟨decode_code (c := .polyToRepr) (by simp [Operand.wellFormed, hp]) rfl,
    fun hrepr => answerPure_map_error hidle (polyToRepr_reserved hrepr), fun hrepr => ?_⟩
  obtain ⟨r, hr⟩ := ofCode_of_le hrepr
  refine ⟨ofNormal p r, ofNormal_lt hp, ?normal, ?reversed, ?koopman,
    answerPure_map_ok hidle (polyToRepr_of_code hr)⟩
  case normal =>
    rintro rfl
    cases hr
    rfl
  case reversed =>
    rintro rfl i hi
    cases hr
    exact testBit_revBits p.normal hi
  case koopman =>
    rintro rfl
    cases hr
    refine ⟨implicitBitOk_ofNormal (r := .koopman) hp, fun i hi => ?_⟩
    simp [testBit_ofNormal_koopman, hi.ne']

/-- Settles O15: `toNormal` and `ofNormal` undo each other on what the checks let through. -/
theorem polyRoundTrip : Obligations.PolyRoundTrip := by
  unfold Obligations.PolyRoundTrip
  refine ⟨fun p repr hp hrepr => ?fromPoly, fun value d repr p h => ?fromValue⟩
  case fromPoly =>
    obtain ⟨r, hr⟩ := ofCode_of_le hrepr
    obtain ⟨h1, h16, -, -⟩ := (poly_wellFormed_iff p).mp hp
    refine ⟨ofNormal p r, polyToRepr_of_code hr, ?_⟩
    rw [polyNew_of_legal h1 h16 hr (ofNormal_lt hp) (implicitBitOk_ofNormal hp), toNormal_ofNormal hp]
  case fromValue =>
    obtain ⟨h1, h16, r, hr, hv, hbit, rfl⟩ := polyNew_ok h
    refine ⟨(poly_wellFormed_iff _).mpr ⟨h1, h16, toNormal_lt hv, testBit_zero_toNormal h1 hbit⟩, ?_⟩
    rw [polyToRepr_of_code hr, ofNormal_toNormal h1 hv hbit]

/-! ### The CRC step as arithmetic (R176) -/

/-- The step by whether the register's top bit is the data bit. -/
theorem crcStep_eq (p : Poly) (r : Nat) (b : Bool) :
    crcStep p r b = (2 * r % 2 ^ p.degree) ^^^ (if r.testBit (p.degree - 1) = b then 0 else p.normal) := by
  rw [crcStep, Nat.shiftLeft_eq, pow_one, Nat.mul_comm r]
  cases r.testBit (p.degree - 1) <;> cases b <;> simp

/-- Bit i of a register moves to bit i+1; only the top bit is lost. -/
theorem testBit_shift_succ {d i : Nat} (r : Nat) (hi : i + 1 < d) : (2 * r % 2 ^ d).testBit (i + 1) = r.testBit i := by
  rw [Nat.testBit_mod_two_pow, decide_eq_true hi, Bool.true_and, Nat.testBit_succ,
    Nat.mul_div_cancel_left r Nat.two_pos]

theorem testBit_shift_zero (d r : Nat) : (2 * r % 2 ^ d).testBit 0 = false := by simp

theorem crcFrom_concat (p : Poly) (r : Nat) (v : Bv) (b : Bool) :
    crcFrom p r (v ++ [b]) = crcStep p (crcFrom p r v) b := crcFrom_append p r v [b]

theorem crc_of_fits {p : Poly} {i : Nat} (hi : i < 2 ^ p.degree) (data : Bv) :
    crc data p (some i) = .ok (crcFrom p i data) := by
  rw [crc, if_neg (by omega)]

theorem crc_valueRange {p : Poly} {i : Nat} (hi : 2 ^ p.degree ≤ i) (data : Bv) :
    crc data p (some i) = constructionError .valueRange .init (.nat i) := by
  rw [crc, if_pos hi]

/-- Without an init the register starts with all ones (R177). -/
theorem crc_default (p : Poly) (data : Bv) : crc data p none = crc data p (some (2 ^ p.degree - 1)) :=
  (crc_of_fits (Nat.sub_lt (Nat.two_pow_pos _) Nat.one_pos) data).symm

/-- Settles O16: `crcFrom` runs on from the register the data before the last bit left. -/
theorem crcMeaning : Obligations.CrcMeaning := by
  unfold Obligations.CrcMeaning
  intro p s hp hidle
  obtain ⟨-, -, hN, -⟩ := (poly_wellFormed_iff p).mp hp
  refine ⟨fun data => ?codeDefault, fun data i => ?code, fun data => ?default,
    fun data i hi => answerPure_map_error hidle (crc_valueRange hi data),
    fun i hi => answerPure_map_ok hidle (crc_of_fits hi []), fun data b i hi => ?bit⟩
  case codeDefault => exact decode_code (c := .crc) (by simp [Operand.wellFormed, hp]) rfl
  case code => exact decode_code (c := .crc) (by simp [Operand.wellFormed, hp]) rfl
  case default => exact congrArg (fun r => s.answerPure (r.map .nat)) (crc_default p data)
  case bit =>
    refine ⟨crcFrom p i data, crcFrom_lt hN hi data, answerPure_map_ok hidle (crc_of_fits hi data), ?_⟩
    rw [← crcStep_eq, ← crcFrom_concat]
    exact answerPure_map_ok hidle (crc_of_fits hi (data ++ [b]))

/-! ### Registers and data as polynomials over GF(2) (R178) -/

section
open Polynomial

/-- The d bits of a register as a polynomial over GF(2), bit i being the coefficient of x^i. -/
noncomputable def regPoly (d v : Nat) : (ZMod 2)[X] := ∑ i ∈ Finset.range d, if v.testBit i then X ^ i else 0

/-- Data as a polynomial over GF(2), the last bit being the coefficient of x^0. -/
noncomputable def dataPoly (v : Bv) : (ZMod 2)[X] :=
  ∑ q ∈ Finset.range v.length, if v.getD q false then X ^ (v.length - 1 - q) else 0

/-- The full generator `G(x)` (R170). -/
noncomputable def genPoly (p : Poly) : (ZMod 2)[X] := X ^ p.degree + regPoly p.degree p.normal

theorem regPoly_zero (d : Nat) : regPoly d 0 = 0 := by simp [regPoly]

theorem regPoly_xor (d a b : Nat) : regPoly d (a ^^^ b) = regPoly d a + regPoly d b := by
  rw [regPoly, regPoly, regPoly, ← Finset.sum_add_distrib]
  refine Finset.sum_congr rfl fun i _ => ?_
  rw [Nat.testBit_xor]
  cases a.testBit i <;> cases b.testBit i <;> simp [CharTwo.add_self_eq_zero]

/-- Shifting the register multiplies by x and drops the carry, which stands for x^d. -/
theorem regPoly_shift {d : Nat} (hd : 1 ≤ d) (r : Nat) :
    regPoly d (2 * r % 2 ^ d) = regPoly d r * X + (if r.testBit (d - 1) then X ^ d else 0) := by
  obtain ⟨e, rfl⟩ : ∃ e, d = e + 1 := ⟨d - 1, by omega⟩
  rw [← CharTwo.sub_eq_add, eq_sub_iff_add_eq, regPoly, Finset.sum_range_succ', testBit_shift_zero, regPoly,
    Finset.sum_mul, Finset.sum_range_succ]
  simp only [Bool.false_eq_true, if_false, add_zero, ite_mul, zero_mul, ← pow_succ, Nat.add_sub_cancel]
  congr 1
  exact Finset.sum_congr rfl fun i hi => by rw [testBit_shift_succ r (Nat.succ_lt_succ (Finset.mem_range.mp hi))]

/-- One step is `reg * x + b * x^d` up to the generator, which is added when the top bit and the data bit differ. -/
theorem regPoly_crcStep {p : Poly} (hd : 1 ≤ p.degree) (r : Nat) (b : Bool) :
    regPoly p.degree (crcStep p r b) = regPoly p.degree r * X + (if b then X ^ p.degree else 0) +
      (if r.testBit (p.degree - 1) = b then 0 else genPoly p) := by
  rw [crcStep_eq, regPoly_xor, regPoly_shift hd]
  cases r.testBit (p.degree - 1) <;> cases b <;>
    simp [regPoly_zero, genPoly, add_assoc, CharTwo.add_cancel_left]

theorem dataPoly_cons (b : Bool) (v : Bv) : dataPoly (b :: v) = (if b then X ^ v.length else 0) + dataPoly v := by
  rw [dataPoly, List.length_cons, Finset.sum_range_succ', add_comm, dataPoly]
  simp only [List.getD_cons_zero, List.getD_cons_succ, Nat.add_sub_cancel, Nat.sub_zero, Nat.sub_sub, Nat.add_comm 1]

/-- R178: up to a multiple of the generator the register is `init * x^n + D(x) * x^d`. -/
theorem genPoly_dvd_crcFrom {p : Poly} (hd : 1 ≤ p.degree) (r : Nat) (v : Bv) :
    genPoly p ∣ regPoly p.degree (crcFrom p r v) -
      (regPoly p.degree r * X ^ v.length + dataPoly v * X ^ p.degree) := by
  induction v generalizing r with
  | nil => simp [dataPoly]
  | cons b v ih =>
    have hstep : genPoly p ∣ regPoly p.degree (crcStep p r b) -
        (regPoly p.degree r * X + (if b then X ^ p.degree else 0)) := by
      rw [regPoly_crcStep hd, add_sub_cancel_left]
      split
      · exact dvd_zero _
      · exact dvd_rfl
    convert dvd_add (ih (crcStep p r b)) (hstep.mul_right (X ^ v.length)) using 1
    rw [crcFrom_cons, dataPoly_cons, List.length_cons]
    cases b <;> simp only [if_true, if_false, Bool.false_eq_true] <;> ring

/-- Settles O17, by induction on the data: each step is off by a multiple of the generator. -/
theorem crcClosedForm : Obligations.CrcClosedForm := by
  unfold Obligations.CrcClosedForm
  intro p start data hp hstart
  obtain ⟨hd, -, hN, -⟩ := (poly_wellFormed_iff p).mp hp
  exact ⟨crcFrom_lt hN hstart data, genPoly_dvd_crcFrom hd start data⟩

end

/-! ### The residue (R179) -/

/-- With a bit 0 in the polynomial, bit 0 of the register after a step is the carry of R176. -/
theorem testBit_zero_crcStep {p : Poly} (hp : p.normal.testBit 0 = true) (r : Nat) (b : Bool) :
    (crcStep p r b).testBit 0 = (r.testBit (p.degree - 1)).xor b := by
  rw [crcStep_eq, Nat.testBit_xor, testBit_shift_zero, Bool.false_xor]
  split
  · next hcarry => rw [hcarry, Bool.xor_self, Nat.zero_testBit]
  · next hcarry => rw [hp, Bool.xor_iff_ne.mpr hcarry]

/-- The shift and the top bit together determine the register. -/
theorem eq_of_shift_eq {d r r' : Nat} (hr : r < 2 ^ d) (hr' : r' < 2 ^ d)
    (htop : r.testBit (d - 1) = r'.testBit (d - 1)) (hshift : 2 * r % 2 ^ d = 2 * r' % 2 ^ d) : r = r' := by
  refine Nat.eq_of_testBit_eq fun i => ?_
  rcases Nat.lt_trichotomy i (d - 1) with hi | rfl | hi
  · rw [← testBit_shift_succ r (show i + 1 < d by omega), hshift, testBit_shift_succ r' (by omega)]
  · exact htop
  · have hpow : 2 ^ d ≤ 2 ^ i := Nat.pow_le_pow_right (by decide) (by omega)
    rw [Nat.testBit_lt_two_pow (hr.trans_le hpow), Nat.testBit_lt_two_pow (hr'.trans_le hpow)]

/-- A step loses nothing: bit 0 of the result tells the top bit, and the rest was shifted. -/
theorem crcStep_injective {p : Poly} (hp : p.normal.testBit 0 = true) {r r' : Nat} (hr : r < 2 ^ p.degree)
    (hr' : r' < 2 ^ p.degree) {b : Bool} (h : crcStep p r b = crcStep p r' b) : r = r' := by
  have htop : r.testBit (p.degree - 1) = r'.testBit (p.degree - 1) := by
    have hcarry := congrArg (·.testBit 0) h
    simpa only [testBit_zero_crcStep hp, Bool.xor_left_inj] using hcarry
  rw [crcStep_eq, crcStep_eq, htop] at h
  exact eq_of_shift_eq hr hr' htop (Nat.xor_left_inj.mp h)

theorem crcFrom_injective {p : Poly} (hp : p.wellFormed = true) {r r' : Nat} (hr : r < 2 ^ p.degree)
    (hr' : r' < 2 ^ p.degree) {v : Bv} (h : crcFrom p r v = crcFrom p r' v) : r = r' := by
  obtain ⟨-, -, hN, hbit⟩ := (poly_wellFormed_iff p).mp hp
  induction v generalizing r r' with
  | nil => exact h
  | cons b v ih => exact crcStep_injective hbit hr hr' (ih (crcStep_lt hN r b) (crcStep_lt hN r' b) h)

/-- A register fed its own bits only shifts: each bit meets itself at the top. -/
theorem crcFrom_shifted_bits (p : Poly) (c : Nat) {w : Nat} (hw : w ≤ p.degree) :
    crcFrom p (c * 2 ^ (p.degree - w) % 2 ^ p.degree) (bits w c) = 0 := by
  induction w with
  | zero => simp [bits]
  | succ w ih =>
    have htop : (c * 2 ^ (p.degree - (w + 1)) % 2 ^ p.degree).testBit (p.degree - 1) = c.testBit w := by
      rw [Nat.testBit_mod_two_pow, Nat.testBit_mul_two_pow, decide_eq_true (by omega), decide_eq_true (by omega),
        Bool.true_and, Bool.true_and, show p.degree - 1 - (p.degree - (w + 1)) = w by omega]
    have hshift : 2 * (c * 2 ^ (p.degree - (w + 1)) % 2 ^ p.degree) % 2 ^ p.degree =
        c * 2 ^ (p.degree - w) % 2 ^ p.degree := by
      rw [Nat.mul_mod_mod, Nat.mul_left_comm, ← Nat.pow_succ', show (p.degree - (w + 1)).succ = p.degree - w by omega]
    rw [bits, crcFrom_cons, crcStep_eq, if_pos htop, Nat.xor_zero, hshift, ih (by omega)]

theorem crcFrom_own_bits {p : Poly} {c : Nat} (hc : c < 2 ^ p.degree) : crcFrom p c (bits p.degree c) = 0 := by
  simpa [Nat.mod_eq_of_lt hc] using crcFrom_shifted_bits p c le_rfl

/-- R179 for a register: d bits leave zero exactly when they are the register's own. -/
theorem crcFrom_bits_eq_zero_iff {p : Poly} (hp : p.wellFormed = true) {r c : Nat} (hr : r < 2 ^ p.degree)
    (hc : c < 2 ^ p.degree) : crcFrom p r (bits p.degree c) = 0 ↔ c = r := by
  constructor
  · intro h
    exact crcFrom_injective hp hc hr ((crcFrom_own_bits hc).trans h.symm)
  · rintro rfl
    exact crcFrom_own_bits hc

/-- Settles O18: what the data leaves in the register is fed its own bits, or others. -/
theorem crcResidue : Obligations.CrcResidue := by
  unfold Obligations.CrcResidue
  intro p start c data hp hstart hc
  obtain ⟨-, -, hN, -⟩ := (poly_wellFormed_iff p).mp hp
  have hreg := crcFrom_lt hN hstart data
  rw [crcFrom_append, crcFrom_append]
  exact ⟨crcFrom_own_bits hreg, crcFrom_bits_eq_zero_iff hp hreg hc⟩

end Sys2Proof.Machine

/-! The proofs of the family `42_frame_codec`: what the checks of FRAME_BUILD let through, the vectors FRAME_DECODE
takes apart, the residue of a frame and of one with a bit changed, and the bytes UPLINK_RESOLVE recognizes. -/

namespace Sys2Proof.Machine

/-! ### The names of a record (R124, R205) -/

/-- No frame type declares a field twice. -/
theorem fieldNames_nodup (t : FrameType) : ((Config.fieldList t).map (·.1)).Nodup := by cases t <;> decide

/-- A record of the right length with every declared name has exactly the declared names: declared names differ. -/
theorem namesMatch_iff (r : Record) (t : FrameType) :
    namesMatch r t = true ↔ (r.map (·.1)).Perm ((Config.fieldList t).map (·.1)) := by
  rw [namesMatch, Bool.and_eq_true, beq_iff_eq]
  constructor
  · rintro ⟨hlen, hall⟩
    have hsub : (Config.fieldList t).map (·.1) ⊆ r.map (·.1) := by
      intro n hn
      obtain ⟨e, he, rfl⟩ := List.mem_map.mp hn
      simpa using List.all_eq_true.mp hall e he
    exact ((List.subperm_of_subset (fieldNames_nodup t) hsub).perm_of_length_le (by simp [hlen])).symm
  · intro hperm
    refine ⟨by simpa using hperm.length_eq, List.all_eq_true.mpr fun e he => ?_⟩
    simpa using hperm.mem_iff.mpr (List.mem_map_of_mem he)

theorem recordGet_of_mem {r : Record} (hnodup : (r.map (·.1)).Nodup) {n : FieldName} {x : Nat} (h : (n, x) ∈ r) :
    recordGet r n = x := by
  obtain ⟨before, after, rfl⟩ := List.append_of_mem h
  have hfirst : ∀ e ∈ before, (n != e.1) = true := by
    intro e he
    rw [List.map_append, List.nodup_append] at hnodup
    obtain ⟨-, -, hdisjoint⟩ := hnodup
    exact bne_iff_ne.mpr (hdisjoint e.1 (List.mem_map_of_mem he) n (by simp)).symm
  rw [recordGet, List.lookup_eq_some_iff.mpr ⟨before, after, rfl, hfirst⟩, Option.getD_some]

/-- Read name by name, a record gives its values in the order of the names, whatever its own order. -/
theorem map_recordGet_of_perm {r : Record} {names : List FieldName} {xs : List Nat} (hr : r.Perm (names.zip xs))
    (hnodup : names.Nodup) (hlen : xs.length = names.length) : names.map (recordGet r) = xs := by
  have hkeys : (r.map (·.1)).Perm names := by
    simpa [List.map_fst_zip, hlen] using hr.map (·.1)
  refine List.ext_getElem (by simp [hlen]) fun i hi hi' => ?_
  rw [List.getElem_map]
  refine recordGet_of_mem (hkeys.nodup_iff.mpr hnodup) (hr.mem_iff.mpr ?_)
  exact List.mem_iff_getElem.mpr ⟨i, by simpa [hlen] using hi', by simp⟩

/-- What a record in any order, with one value for each declared name, gives FRAME_BUILD. -/
theorem record_in_declared_order {r : Record} {t : FrameType} {xs : List Nat}
    (hr : r.Perm (((Config.fieldList t).map (·.1)).zip xs)) (hlen : xs.length = (Config.fieldList t).length) :
    namesMatch r t = true ∧ (Config.fieldList t).map (fun e => recordGet r e.1) = xs := by
  have hlen' : xs.length = ((Config.fieldList t).map (·.1)).length := by rw [hlen, List.length_map]
  constructor
  · rw [namesMatch_iff]
    simpa [List.map_fst_zip, hlen] using hr.map (·.1)
  · rw [← map_recordGet_of_perm hr (fieldNames_nodup t) hlen', List.map_map]
    rfl

/-! ### The range of the fields (R205) -/

theorem length_of_fitWidths {ws xs : List Nat} (h : fitWidths ws xs = true) : xs.length = ws.length := by
  induction ws generalizing xs with
  | nil => cases xs with
    | nil => rfl
    | cons => simp [fitWidths] at h
  | cons w ws ih => cases xs with
    | nil => simp [fitWidths] at h
    | cons x xs =>
      obtain ⟨-, hrest⟩ := Bool.and_eq_true_iff.mp h
      rw [List.length_cons, ih hrest, List.length_cons]

/-- No field is out of range exactly when the values fit the widths. -/
theorem firstOutOfRange_eq_none_iff (r : Record) (fs : List (FieldName × Nat)) :
    firstOutOfRange r fs = none ↔ fitWidths (fs.map (·.2)) (fs.map (fun e => recordGet r e.1)) = true := by
  induction fs with
  | nil => simp [firstOutOfRange, fitWidths]
  | cons e fs ih =>
    rw [firstOutOfRange, List.map_cons, List.map_cons, fitWidths, Bool.and_eq_true, decide_eq_true_eq, ← ih]
    split
    · next hout => simp [Nat.not_lt.mpr hout]
    · next hin => simp [Nat.not_le.mp hin]

/-- Fields in range are passed over. -/
theorem firstOutOfRange_append {r : Record} {fs : List (FieldName × Nat)} (h : firstOutOfRange r fs = none)
    (rest : List (FieldName × Nat)) : firstOutOfRange r (fs ++ rest) = firstOutOfRange r rest := by
  induction fs with
  | nil => rfl
  | cons e fs ih =>
    rw [firstOutOfRange] at h
    split at h
    · cases h
    · next hin => rw [List.cons_append, firstOutOfRange, if_neg hin, ih h]

/-! ### The checks FRAME_BUILD and FRAME_BUILD_CRC share (R205, R206) -/

section
variable {code : Nat} {r : Record} {t : FrameType} {p : Poly} {n : FieldName}

/-- HIT has no polynomial, and above it there is no type. -/
theorem frameOperands_badFrameType (r : Record) (h : 3 ≤ code) :
    frameOperands code r = constructionError .badFrameType .type (.nat code) := by
  obtain rfl | h4 : code = 3 ∨ 4 ≤ code := by omega
  · rfl
  · obtain ⟨k, rfl⟩ := Nat.exists_eq_add_of_le' h4
    rfl

section
variable (ht : frameTypeOf code = some t) (hp : Config.polyOf t = some p)
include ht hp

theorem frameOperands_widthMismatch (h : ¬ (r.map (·.1)).Perm ((Config.fieldList t).map (·.1))) :
    frameOperands code r = constructionError .widthMismatch .fields (.fields r) := by
  have hnames : namesMatch r t = false := by rwa [← Bool.not_eq_true, namesMatch_iff]
  simp only [frameOperands, ht, hp, hnames, Bool.not_false, if_true]

theorem frameOperands_valueRange (hnames : namesMatch r t = true)
    (h : firstOutOfRange r (Config.fieldList t) = some n) :
    frameOperands code r = constructionError .valueRange (.field n) (.nat (recordGet r n)) := by
  simp only [frameOperands, ht, hp, hnames, h, Bool.not_true, Bool.false_eq_true, if_false]

theorem frameOperands_of_fits (hnames : namesMatch r t = true)
    (h : firstOutOfRange r (Config.fieldList t) = none) :
    frameOperands code r = .ok (t, p, (Config.fieldList t).map (fun e => recordGet r e.1)) := by
  simp only [frameOperands, ht, hp, hnames, h, Bool.not_true, Bool.false_eq_true, if_false]

end

/-- What passes the checks is a CRC-protected type with its own polynomial. -/
theorem polyOf_of_frameOperands {xs : List Nat} (h : frameOperands code r = .ok (t, p, xs)) :
    Config.polyOf t = some p := by
  cases hcode : frameTypeOf code with
  | none => simp [frameOperands, hcode, constructionError] at h
  | some t' =>
    cases hpoly : Config.polyOf t' with
    | none => simp [frameOperands, hcode, hpoly, constructionError] at h
    | some p' =>
      by_cases hnames : (r.map (·.1)).Perm ((Config.fieldList t').map (·.1))
      · rw [← namesMatch_iff] at hnames
        cases hrange : firstOutOfRange r (Config.fieldList t') with
        | some n =>
          rw [frameOperands_valueRange hcode hpoly hnames hrange] at h
          cases h
        | none =>
          rw [frameOperands_of_fits hcode hpoly hnames hrange] at h
          cases h
          exact hpoly
      · rw [frameOperands_widthMismatch hcode hpoly hnames] at h
        cases h

theorem frameBuild_of_operands {xs : List Nat} (h : frameOperands code r = .ok (t, p, xs)) :
    frameBuild code r = .ok ⟨t, xs, some (crcOf p (bodyBits t xs))⟩ := by
  simp only [frameBuild, h]

theorem frameBuildCrc_of_operands {xs : List Nat} {c : Nat} (h : frameOperands code r = .ok (t, p, xs))
    (hc : c < 2 ^ p.degree) : frameBuildCrc code r c = .ok ⟨t, xs, some c⟩ := by
  simp only [frameBuildCrc, h, if_neg (Nat.not_le.mpr hc)]

theorem frameBuildCrc_valueRange {xs : List Nat} {c : Nat} (h : frameOperands code r = .ok (t, p, xs))
    (hc : 2 ^ p.degree ≤ c) : frameBuildCrc code r c = constructionError .valueRange .crc (.nat c) := by
  simp only [frameBuildCrc, h, if_pos hc]

/-- Both commands answer the error of a check they share. -/
theorem exec_build_error {s : State} (hidle : s.callerIdle) (c : Nat) {sub : SubCause} {operand : OperandName}
    {v : Operand} (h : frameOperands code r = constructionError sub operand v) :
    exec (.frameBuild code r) s = .next (s.answered (.constructionError ⟨sub, operand, v⟩) .none) ∧
    exec (.frameBuildCrc code r c) s = .next (s.answered (.constructionError ⟨sub, operand, v⟩) .none) := by
  have hbuild : frameBuild code r = constructionError sub operand v := by
    rw [frameBuild, h]
    rfl
  have hbuildCrc : frameBuildCrc code r c = constructionError sub operand v := by
    rw [frameBuildCrc, h]
    rfl
  exact ⟨answerPure_map_error hidle hbuild, answerPure_map_error hidle hbuildCrc⟩

end

/-- Settles O20: one clause per check, in the order of `frameOperands`. -/
theorem frameBuildMeaning : Obligations.FrameBuildMeaning := by
  unfold Obligations.FrameBuildMeaning
  intro code r c s hidle
  refine ⟨fun hcode => exec_build_error hidle c (frameOperands_badFrameType r hcode), fun t p ht hp =>
    ⟨fun hnames => exec_build_error hidle c (frameOperands_widthMismatch ht hp hnames),
      fun xs hr hfit => ?fits, fun xs before n w after x hr hlen hfields hfit hx hw => ?range⟩⟩
  case fits =>
    have hlen : xs.length = (Config.fieldList t).length := by
      rw [length_of_fitWidths hfit, Config.fieldWidths, List.length_map]
    obtain ⟨hnames, hvalues⟩ := record_in_declared_order hr hlen
    have hrange : firstOutOfRange r (Config.fieldList t) = none := by
      rwa [firstOutOfRange_eq_none_iff, hvalues]
    have hoperands := frameOperands_of_fits ht hp hnames hrange
    rw [hvalues] at hoperands
    exact ⟨answerPure_map_ok hidle (frameBuild_of_operands hoperands),
      fun hc => answerPure_map_ok hidle (frameBuildCrc_of_operands hoperands hc),
      fun hc => answerPure_map_error hidle (frameBuildCrc_valueRange hoperands hc)⟩
  case range =>
    obtain ⟨hnames, rfl⟩ := record_in_declared_order hr hlen
    rw [hfields] at hx hfit
    have hbefore : firstOutOfRange r before = none := by
      rw [firstOutOfRange_eq_none_iff]
      simpa [List.map_append] using hfit
    obtain rfl : recordGet r n = x := by simpa using hx
    have hrange : firstOutOfRange r (Config.fieldList t) = some n := by
      rw [hfields, firstOutOfRange_append hbefore, firstOutOfRange, if_pos hw]
    exact exec_build_error hidle c (frameOperands_valueRange ht hp hnames hrange)

/-! ### Encoding (R202, R207) -/

theorem frameBits_eq (f : Frame) : frameBits f = bits (Config.prefixOf f.type).2 (Config.prefixOf f.type).1 ++
    packFields (Config.fieldWidths f.type) f.fields ++ (f.crc.map (bits (Config.crcWidth f.type))).getD [] := by
  obtain ⟨t, xs, c⟩ := f
  cases c <;> rfl

/-- Every frame is whole bytes (R201). -/
theorem frameWidth_mod_eight (t : FrameType) : Config.frameWidth t % 8 = 0 := by cases t <;> decide

/-- Settles O21: the bytes are counted by the bits they hold. -/
theorem frameEncodeMeaning : Obligations.FrameEncodeMeaning := by
  unfold Obligations.FrameEncodeMeaning
  intro f s hf hidle
  have hlen := length_frameBits hf
  have hwhole : (frameBits f).length % 8 = 0 := by rw [hlen, frameWidth_mod_eight]
  refine ⟨decode_code (c := .frameEncode) (by simp [Operand.wellFormed, hf]) rfl, frameBits f, frameBytes f,
    frameBits_eq f, hlen, hwhole, ?bytes, bitsOfBytes_frameBytes hwhole, answerPure_ok hidle _⟩
  case bytes => rw [← length_bitsOfBytes, bitsOfBytes_frameBytes hwhole]

/-! ### Decoding (R209) -/

section
variable {t : FrameType} {v : Bv} (hprefix : v.take (Config.prefixOf t).2 = prefixBits t)
  (hlen : v.length = Config.frameWidth t)
include hlen

/-- What stands after a type's leading bits holds the fields and the crc, and nothing else. -/
theorem length_drop_leading :
    (v.drop (Config.prefixOf t).2).length = (Config.fieldWidths t).sum + Config.crcWidth t := by
  rw [List.length_drop, hlen, Config.frameWidth]
  omega

theorem parseBody_wellFormed : (parseBody t (v.drop (Config.prefixOf t).2)).wellFormed = true := by
  have hbody := length_drop_leading hlen
  have hcrc := bvValue_lt (unpackFields (Config.fieldWidths t) (v.drop (Config.prefixOf t).2)).2
  rw [length_unpackFields_rest, hbody, Nat.add_sub_cancel_left] at hcrc
  rw [Frame.wellFormed, Bool.and_eq_true]
  refine ⟨fitWidths_unpackFields (Config.fieldWidths t) (by omega), ?_⟩
  cases hp : Config.polyOf t with
  | none => simp [parseBody, hp]
  | some p => simpa [parseBody, hp, Config.crcWidth] using hcrc

include hprefix

/-- A parsed frame has the bits it was parsed from (R214). -/
theorem frameBits_parseBody : frameBits (parseBody t (v.drop (Config.prefixOf t).2)) = v := by
  have hbody := length_drop_leading hlen
  have hpack := packFields_unpackFields (Config.fieldWidths t) (v := v.drop (Config.prefixOf t).2) (by omega)
  have hrest := length_unpackFields_rest (Config.fieldWidths t) (v.drop (Config.prefixOf t).2)
  rw [hbody, Nat.add_sub_cancel_left] at hrest
  have hcrc : ((parseBody t (v.drop (Config.prefixOf t).2)).crc.map (bits (Config.crcWidth t))).getD [] =
      (unpackFields (Config.fieldWidths t) (v.drop (Config.prefixOf t).2)).2 := by
    rw [← hrest]
    cases hp : Config.polyOf t with
    | none =>
      have hwidth : Config.crcWidth t = 0 := by rw [Config.crcWidth, hp]
      rw [List.length_eq_zero_iff.mp (hrest.trans hwidth)]
      simp [parseBody, hp]
    | some p => simp [parseBody, hp, bits_bvValue]
  calc frameBits (parseBody t (v.drop (Config.prefixOf t).2))
      = prefixBits t ++ packFields (Config.fieldWidths t)
          (unpackFields (Config.fieldWidths t) (v.drop (Config.prefixOf t).2)).1 ++
          ((parseBody t (v.drop (Config.prefixOf t).2)).crc.map (bits (Config.crcWidth t))).getD [] :=
        frameBits_eq _
    _ = v := by rw [hcrc, List.append_assoc, hpack, ← hprefix, List.take_append_drop]

/-- FRAME_DECODE of a vector of the layout answers the frame value with these bits. -/
theorem frameDecode_of_layout : ∃ f : Frame, f.type = t ∧ f.wellFormed = true ∧ frameBits f = v ∧
    frameDecode t v = .ok (.frame f (crcOkFlag f)) := by
  refine ⟨_, rfl, parseBody_wellFormed hlen, frameBits_parseBody hprefix hlen, ?_⟩
  rcases frameDecode_cases t v with ⟨hlt, -⟩ | ⟨-, hne, -⟩ | ⟨-, hne, -⟩ | ⟨-, -, e⟩
  · have := length_drop_leading hlen
    have hle : (Config.prefixOf t).2 ≤ Config.frameWidth t := by cases t <;> decide
    omega
  · exact absurd hprefix hne
  · exact absurd hlen hne
  · exact e

end

theorem frameDecode_popUnderflow {t : FrameType} {v : Bv} (h : v.length < (Config.prefixOf t).2) :
    frameDecode t v = constructionError .popUnderflow .bv (.bv v) := if_pos h

theorem frameDecode_widthMismatch {t : FrameType} {v : Bv} (hprefix : v.take (Config.prefixOf t).2 = prefixBits t)
    (hlen : v.length ≠ Config.frameWidth t) : frameDecode t v = constructionError .widthMismatch .bv (.bv v) := by
  rcases frameDecode_cases t v with ⟨hlt, -⟩ | ⟨-, hne, -⟩ | ⟨-, -, e⟩ | ⟨-, he, -⟩
  · have hle := congrArg List.length hprefix
    rw [List.length_take, prefixBits, length_bits] at hle
    omega
  · exact absurd hprefix hne
  · exact e
  · exact absurd he hlen

section
variable {code : Nat} {t : FrameType} {v : Bv} {s : State} (hidle : s.callerIdle)
include hidle

/-- A type code above 3 names no type (log 10). -/
theorem execFrameDecode_badFrameType (v : Bv) (h : 3 < code) : exec (.frameDecode code v) s =
    .next (s.answered (.constructionError ⟨.badFrameType, .type, .nat code⟩) .none) := by
  have hnone : frameTypeOf code = none := by
    obtain ⟨k, rfl⟩ := Nat.exists_eq_add_of_le' h
    rfl
  rw [exec, execFrameDecode, hnone]
  exact answerPure_idle hidle _

variable (ht : frameTypeOf code = some t)
include ht

theorem execFrameDecode_error {sub : SubCause} {operand : OperandName} {x : Operand}
    (h : frameDecode t v = constructionError sub operand x) :
    exec (.frameDecode code v) s = .next (s.answered (.constructionError ⟨sub, operand, x⟩) .none) := by
  rw [exec, execFrameDecode, ht]
  simp only [h]
  exact answerPure_idle hidle _

theorem execFrameDecode_prefixMismatch (h : frameDecode t v = .ok .prefixMismatch) :
    exec (.frameDecode code v) s = .next (s.answered .prefixMismatch .none) := by
  rw [exec, execFrameDecode, ht]
  simp only [h]
  exact congrArg _ (endCommand_idle hidle _)

theorem execFrameDecode_frame {f : Frame} {ok : Option Bool} (h : frameDecode t v = .ok (.frame f ok)) :
    exec (.frameDecode code v) s = .next (s.answered .ok (.decoded f ok)) := by
  rw [exec, execFrameDecode, ht]
  simp only [h]
  exact answerPure_ok hidle _

end

/-- Settles O22: one clause per case of `frameDecode_cases`. -/
theorem frameDecodeMeaning : Obligations.FrameDecodeMeaning := by
  unfold Obligations.FrameDecodeMeaning
  intro code v s hidle
  refine ⟨execFrameDecode_badFrameType hidle v, fun t ht =>
    ⟨fun hshort => execFrameDecode_error hidle ht (frameDecode_popUnderflow hshort),
      fun hle hne => execFrameDecode_prefixMismatch hidle ht (frameDecode_of_prefix_ne hle hne),
      fun hprefix hlen => execFrameDecode_error hidle ht (frameDecode_widthMismatch hprefix hlen),
      fun hprefix hlen => ?layout⟩⟩
  case layout =>
    obtain ⟨f, htype, hf, hbits, hdecode⟩ := frameDecode_of_layout hprefix hlen
    exact ⟨f, htype, hf, hbits, execFrameDecode_frame hidle ht hdecode⟩

theorem frameCrcOk_of_flag {f : Frame} {ok : Bool} (h : crcOkFlag f = some ok) : frameCrcOk f = .ok ok := by
  rw [frameCrcOk, h]

/-- Settles O23: a decoded vector is known by `frameDecode_of_layout`. -/
theorem frameRoundTrip : Obligations.FrameRoundTrip := by
  unfold Obligations.FrameRoundTrip
  refine ⟨fun f hf => ⟨frameDecode_frameBits hf, fun hhit => ?flag⟩, fun t v hlen hprefix => ?vector⟩
  case flag =>
    obtain ⟨ok, hok⟩ : ∃ ok, crcOkFlag f = some ok := by
      obtain ⟨t, xs, c⟩ := f
      cases t with
      | dl | ack | rd => exact ⟨_, rfl⟩
      | hit => exact absurd rfl hhit
    exact ⟨ok, hok, frameCrcOk_of_flag hok⟩
  case vector =>
    obtain ⟨f, -, -, hbits, hdecode⟩ := frameDecode_of_layout hprefix hlen
    exact ⟨f, _, hdecode, hbits⟩

/-! ### The flag crc_ok (R210) -/

/-- The polynomials of the ROM are polynomial values (R30, R170). -/
theorem polyOf_wellFormed {t : FrameType} {p : Poly} (h : Config.polyOf t = some p) : p.wellFormed = true := by
  cases t <;> cases h <;> decide

/-- The residue of a frame is zero exactly when it carries the CRC of what stands before it (R179). -/
theorem crcOkFlag_eq_decide {f : Frame} {p : Poly} {c : Nat} (hf : f.wellFormed = true)
    (hp : Config.polyOf f.type = some p) (hc : f.crc = some c) :
    crcOkFlag f = some (decide (c = crcFrom p (2 ^ p.degree - 1) (bodyBits f.type f.fields))) := by
  have hwf := polyOf_wellFormed hp
  obtain ⟨-, -, hN, -⟩ := (poly_wellFormed_iff p).mp hwf
  have hstart : 2 ^ p.degree - 1 < 2 ^ p.degree := Nat.sub_lt (Nat.two_pow_pos _) Nat.one_pos
  have hlt : c < 2 ^ p.degree := by
    obtain ⟨-, hcrc⟩ := Bool.and_eq_true_iff.mp hf
    simpa [hp, hc] using hcrc
  have hbits : frameBits f = bodyBits f.type f.fields ++ bits p.degree c := by
    simp [frameBits, hc, Config.crcWidth, hp]
  rw [crcOkFlag, hp, Option.map_some, hbits, crcOf, crcFrom_append, crcInit]
  congr 1
  rw [Bool.eq_iff_iff, beq_iff_eq, decide_eq_true_iff]
  exact crcFrom_bits_eq_zero_iff hwf (crcFrom_lt hN hstart _) hlt

/-- Settles O24: what FRAME_BUILD builds carries the CRC of its own body. -/
theorem freshFrameVerifies : Obligations.FreshFrameVerifies := by
  unfold Obligations.FreshFrameVerifies
  intro code r f h
  cases hoperands : frameOperands code r with
  | error e =>
    rw [frameBuild, hoperands] at h
    cases h
  | ok x =>
    obtain ⟨t, p, xs⟩ := x
    rw [frameBuild_of_operands hoperands] at h
    cases h
    exact frameCrcOk_of_flag (crcOkFlag_fresh (polyOf_of_frameOperands hoperands) xs)

/-- Settles O25 by the residue (R179). -/
theorem frameCrcOkMeaning : Obligations.FrameCrcOkMeaning := by
  unfold Obligations.FrameCrcOkMeaning
  intro f s hf hidle
  refine ⟨fun hhit => ?hit, fun p c hp hc => ?crc⟩
  case hit =>
    have hnone : frameCrcOk f = constructionError .badFrameType .frame (.frame f) := by
      simp only [frameCrcOk, crcOkFlag, hhit, Config.polyOf, Option.map_none]
    exact answerPure_map_error hidle hnone
  case crc => exact answerPure_map_ok hidle (frameCrcOk_of_flag (crcOkFlag_eq_decide hf hp hc))

/-! ### One bit changed (R210) -/

/-- A step tells the data bits apart. -/
theorem crcStep_not_ne {p : Poly} (hp : p.normal.testBit 0 = true) (r : Nat) (b : Bool) :
    crcStep p r (!b) ≠ crcStep p r b := by
  intro h
  have hcarry := congrArg (·.testBit 0) h
  simp only [testBit_zero_crcStep hp] at hcarry
  cases b <;> simp at hcarry

/-- With one bit of the data changed the register differs from there on: each later step loses nothing. -/
theorem crcFrom_set_not_ne {p : Poly} (hp : p.wellFormed = true) (r : Nat) {v : Bv} {k : Nat} (hk : k < v.length) :
    crcFrom p r (v.set k (!v.getD k false)) ≠ crcFrom p r v := by
  obtain ⟨-, -, hN, hbit⟩ := (poly_wellFormed_iff p).mp hp
  have hset : v.set k (!v.getD k false) = v.take k ++ (!v.getD k false) :: v.drop (k + 1) :=
    List.set_eq_take_cons_drop _ hk
  have hsame : v.take k ++ v.getD k false :: v.drop (k + 1) = v := by
    rw [List.getD_eq_getElem v false hk, List.getElem_cons_drop, List.take_append_drop]
  intro h
  have hsuffix : crcFrom p r (v.take k ++ (!v.getD k false) :: v.drop (k + 1)) =
      crcFrom p r (v.take k ++ v.getD k false :: v.drop (k + 1)) := by rw [← hset, h, hsame]
  rw [crcFrom_append, crcFrom_append, crcFrom_cons, crcFrom_cons] at hsuffix
  exact crcStep_not_ne hbit _ _ (crcFrom_injective hp (crcStep_lt hN ..) (crcStep_lt hN ..) hsuffix)

/-- Settles O26: the vector still has the layout of the type, and its residue is not zero any more. -/
theorem singleBitErrorIsDetected : Obligations.SingleBitErrorIsDetected := by
  unfold Obligations.SingleBitErrorIsDetected
  intro f k hf hok hprefix hk
  rw [← length_frameBits hf] at hk
  have htake : ((frameBits f).set k (!(frameBits f).getD k false)).take (Config.prefixOf f.type).2 =
      prefixBits f.type := by rw [List.take_set_of_le hprefix, frameBits_take_prefix]
  have hlen : ((frameBits f).set k (!(frameBits f).getD k false)).length = Config.frameWidth f.type := by
    rw [List.length_set, length_frameBits hf]
  obtain ⟨g, htype, -, hbits, hdecode⟩ := frameDecode_of_layout htake hlen
  refine ⟨g, ?_⟩
  rw [hdecode]
  cases hp : Config.polyOf f.type with
  | none => simp [crcOkFlag, hp] at hok
  | some p =>
    have hzero : crcOf p (frameBits f) = 0 := by simpa [crcOkFlag, hp] using hok
    have hne : crcOf p (frameBits g) ≠ 0 := by
      rw [hbits, ← hzero]
      exact crcFrom_set_not_ne (polyOf_wellFormed hp) _ hk
    have hflag : crcOkFlag g = some false := by simp [crcOkFlag, htype, hp, hne]
    rw [hflag]

/-! ### Resolving the bytes of an uplink frame (R211) -/

/-- Types whose leading bits do not match are passed over. -/
theorem resolveIn_append {v : Bv} {ts : List FrameType} (h : ∀ t ∈ ts, frameDecode t v = .ok .prefixMismatch)
    (rest : List FrameType) : resolveIn v (ts ++ rest) = resolveIn v rest := by
  induction ts with
  | nil => rfl
  | cons t ts ih =>
    rw [List.cons_append, resolveIn, h t List.mem_cons_self]
    exact ih fun t' ht' => h t' (List.mem_cons_of_mem _ ht')

/-- UPLINK_RESOLVE of the bytes of a frame answers it, where the types probed before its own have other leading bits. -/
theorem uplinkResolve_frameBytes {f : Frame} (hf : f.wellFormed = true) {t : FrameType} (htype : f.type = t)
    {before after : List FrameType} (hprobe : Config.probeOrder = before ++ t :: after)
    (hbefore : ∀ t' ∈ before, (Config.prefixOf t').2 ≤ (Config.prefixOf t).2 ∧
      (prefixBits t).take (Config.prefixOf t').2 ≠ prefixBits t') :
    uplinkResolve (frameBytes f) = .ok (kindOf t, some (f, crcOkFlag f)) := by
  subst htype
  have hwidth : Config.frameWidth f.type = 24 := by
    have hmem : f.type ∈ Config.probeOrder := by simp [hprobe]
    revert hmem
    cases f.type <;> decide
  have hlen := length_frameBits hf
  have hbits : bitsOfBytes (frameBytes f) = frameBits f := bitsOfBytes_frameBytes (by rw [hlen, hwidth])
  have hbytes : (frameBytes f).length = 3 := by rw [frameBytes, length_bytesOfBits, hlen, hwidth]
  have hpass : ∀ t ∈ before, frameDecode t (frameBits f) = .ok .prefixMismatch := by
    intro t ht
    obtain ⟨hle, hne⟩ := hbefore t ht
    refine frameDecode_of_prefix_ne (by rw [hlen, Config.frameWidth]; omega) ?_
    rwa [← frameBits_take_prefix, List.take_take, Nat.min_eq_left hle] at hne
  rw [uplinkResolve, if_neg (not_not.mpr hbytes), hbits, hprobe, resolveIn_append hpass, resolveIn,
    frameDecode_frameBits hf]

/-- Every 3 bytes are the bytes of the word with their value (R74). -/
theorem bytesOfUp_surjective {b : List Byte} (h : b.length = 3) : ∃ w, bytesOfUp w = b := by
  have hlen : (bitsOfBytes b).length = 24 := by rw [length_bitsOfBytes, h]
  have hlt := bvValue_lt (bitsOfBytes b)
  have hback := bits_bvValue (bitsOfBytes b)
  rw [hlen] at hlt hback
  refine ⟨BitVec.ofNat 24 (bvValue (bitsOfBytes b)), ?_⟩
  rw [bytesOfUp, BitVec.toNat_ofNat, Nat.mod_eq_of_lt hlt, hback, ← h]
  simpa using bytesOfBits_bitsOfBytes b []

/-- A word that begins `11` begins `110` or `111`. -/
theorem leading_three_of_leading_11 {w : BitVec 24} (h : w.extractLsb' 22 2 = 0b11#2) :
    w.extractLsb' 21 3 = 0b110#3 ∨ w.extractLsb' 21 3 = 0b111#3 := by
  have hthree : ∀ x : BitVec 3, x.extractLsb' 1 2 = 0b11#2 → x = 0b110#3 ∨ x = 0b111#3 := by decide
  exact hthree _ (by rw [extract_extract _ (by decide), h])

/-- A frame made of the fields of an UplinkAck word is a frame value. -/
theorem ackFrame_wellFormed (k : BitVec 2) (q : BitVec 4) (cp ta sa se oe : BitVec 1) (t : BitVec 6) (c : BitVec 4) :
    Frame.wellFormed ⟨.ack, [k.toNat, q.toNat, cp.toNat, ta.toNat, sa.toNat, se.toNat, oe.toNat, t.toNat],
      some c.toNat⟩ = true := by
  simp only [Frame.wellFormed, Config.fieldWidths, Config.fieldList, Config.polyOf, Config.polyAck, List.map_cons,
    List.map_nil, fitWidths, BitVec.isLt, decide_true, Bool.and_true]

theorem rdFrame_wellFormed (d : BitVec 15) (q c : BitVec 3) :
    Frame.wellFormed ⟨.rd, [d.toNat, q.toNat], some c.toNat⟩ = true := by
  simp only [Frame.wellFormed, Config.fieldWidths, Config.fieldList, Config.polyOf, Config.polyRd, List.map_cons,
    List.map_nil, fitWidths, BitVec.isLt, decide_true, Bool.and_true]

theorem hitFrame_wellFormed (r : BitVec 23) : Frame.wellFormed ⟨.hit, [r.toNat], none⟩ = true := by
  simp only [Frame.wellFormed, Config.fieldWidths, Config.fieldList, Config.polyOf, List.map_cons, List.map_nil,
    fitWidths, BitVec.isLt, decide_true, Bool.and_true]

theorem execUplinkResolve_ok {s : State} (hidle : s.callerIdle) {b : List Byte} {kind : Kind}
    {x : Option (Frame × Option Bool)} (h : uplinkResolve b = .ok (kind, x)) :
    exec (.uplinkResolve b) s = .next (s.answered .ok (.resolved kind x)) := answerPure_map_ok hidle h

/-- Settles O27: the word's bytes are the frame's, and the types probed before its own have other leading
bits. -/
theorem uplinkResolveMeaning : Obligations.UplinkResolveMeaning := by
  unfold Obligations.UplinkResolveMeaning
  intro s hidle
  refine ⟨fun b hb => answerPure_map_error hidle (if_pos hb), fun b hb => bytesOfUp_surjective hb,
    fun r => execUplinkResolve_ok hidle ?hit,
    fun k q cp ta sa se oe t c => execUplinkResolve_ok hidle ?ack,
    fun d q c => execUplinkResolve_ok hidle ?rd,
    fun w hw => execUplinkResolve_ok hidle (uplinkResolve_bytesOfUp (leading_three_of_leading_11 hw))⟩
  case hit =>
    rw [bytesOfUp_of_bits (frameBits_hit24 r)]
    exact uplinkResolve_frameBytes (t := .hit) (before := []) (hitFrame_wellFormed r) rfl rfl (by decide)
  case ack =>
    have hf := ackFrame_wellFormed k q cp ta sa se oe t c
    rw [bytesOfUp_of_bits (frameBits_ack24 k q cp ta sa se oe t c),
      uplinkResolve_frameBytes (t := .ack) (before := [.hit]) hf rfl rfl (by decide), crcOkFlag_eq_decide hf rfl rfl]
    rfl
  case rd =>
    have hf := rdFrame_wellFormed d q c
    rw [bytesOfUp_of_bits (frameBits_rd24 d q c),
      uplinkResolve_frameBytes (t := .rd) (before := [.hit, .ack]) hf rfl rfl (by decide),
      crcOkFlag_eq_decide hf rfl rfl]
    rfl

end Sys2Proof.Machine

/-! The proofs of the family `43_protocol`. First ALIGN: the recurrence of its score matrix (R271), its
traceback as a walk (R273), and what the largest score says of the number of pairs (R275). -/

namespace Sys2Proof.Machine

/-! ### Lists that grow by one entry at a time, each made from those before it

Both the score matrix and each of its rows are built so (R271). -/

section
variable {α β : Type} (f : List β → α → β)

/-- A list `init` grown by one entry per element of `l`. -/
def growFrom (init : List β) (l : List α) : List β := l.foldl (fun acc x => acc ++ [f acc x]) init

theorem growFrom_concat (init : List β) (l : List α) (x : α) :
    growFrom f init (l ++ [x]) = growFrom f init l ++ [f (growFrom f init l) x] := by
  simp [growFrom]

@[simp] theorem length_growFrom (init : List β) (l : List α) :
    (growFrom f init l).length = init.length + l.length := by
  induction l using List.reverseRecOn with
  | nil => rfl
  | append_singleton l x ih => simp [growFrom_concat, ih, Nat.add_assoc]

/-- What it grew from stays. -/
theorem take_growFrom (init : List β) (l : List α) : (growFrom f init l).take init.length = init := by
  induction l using List.reverseRecOn with
  | nil => exact List.take_length
  | append_singleton l x ih =>
    rw [growFrom_concat, List.take_append_of_le_length (by simp), ih]

/-- The entry of an element is made from the entries before it. -/
theorem growFrom_getElem? (init : List β) (l : List α) (i : Nat) : (growFrom f init l)[init.length + i]? =
    l[i]?.map (f ((growFrom f init l).take (init.length + i))) := by
  induction l using List.reverseRecOn with
  | nil => simp [growFrom]
  | append_singleton l x ih =>
    have hlen := length_growFrom f init l
    rw [growFrom_concat]
    obtain hlt | rfl | hgt := Nat.lt_trichotomy i l.length
    · rw [List.getElem?_append_left (by omega), List.getElem?_append_left hlt, ih,
        List.take_append_of_le_length (by omega)]
    · rw [← hlen, List.getElem?_concat_length, List.take_left, List.getElem?_concat_length, Option.map_some]
    · rw [List.getElem?_eq_none (by simp; omega), List.getElem?_eq_none (by simp; omega), Option.map_none]

end

theorem scoreRow_eq_growFrom (rows : List (List Nat)) (x : Nat) (b : List Nat) :
    scoreRow rows x b = growFrom (fun row y => cell rows row x y) [0] b := rfl

theorem scoreMatrix_eq_growFrom (a b : List Nat) :
    scoreMatrix a b = growFrom (fun rows x => scoreRow rows x b) [List.replicate (b.length + 1) 0] a := rfl

/-! ### The recurrence (R271) -/

/-- The largest of a list of numbers is at most `h` exactly when each is. -/
theorem foldl_max_le_iff (l : List Int) (x h : Int) : l.foldl max x ≤ h ↔ x ≤ h ∧ ∀ y ∈ l, y ≤ h := by
  induction l generalizing x with
  | nil => simp
  | cons y l ih => simp [ih, and_assoc]

/-- The largest of 0 and a list of numbers, as a natural number. -/
theorem toNat_foldl_max_le_iff (l : List Int) (h : Int) :
    ((l.foldl max 0).toNat : Int) ≤ h ↔ 0 ≤ h ∧ ∀ y ∈ l, y ≤ h := by
  have hpos : 0 ≤ l.foldl max 0 := ((foldl_max_le_iff l 0 _).mp le_rfl).1
  rw [Int.toNat_of_nonneg hpos, foldl_max_le_iff]

/-- A cell is the least upper bound of the candidates of R271. -/
theorem cell_le_iff (rows : List (List Nat)) (row : List Nat) (x y : Nat) (h : Int) :
    (cell rows row x y : Int) ≤ h ↔
      0 ≤ h ∧
      (cellAt rows (rows.length - 1) (row.length - 1) : Int) + alignScore x y ≤ h ∧
      (∀ g < rows.length, (cellAt rows (rows.length - (g + 1)) row.length : Int) - 2 * (g + 1) ≤ h) ∧
      (∀ g < row.length, (row.getD (row.length - (g + 1)) 0 : Int) - 2 * (g + 1) ≤ h) := by
  simp only [cell, toNat_foldl_max_le_iff, List.forall_mem_cons, List.forall_mem_append, List.forall_mem_map,
    List.mem_range]

theorem scoreMatrix_row {a : List Nat} (b : List Nat) {i : Nat} (h : i < a.length) :
    (scoreMatrix a b).getD (i + 1) [] = scoreRow ((scoreMatrix a b).take (i + 1)) (a.getD i 0) b := by
  have hrow := growFrom_getElem? (fun rows x => scoreRow rows x b) [List.replicate (b.length + 1) 0] a i
  rw [← scoreMatrix_eq_growFrom, List.length_singleton, Nat.add_comm 1 i, List.getElem?_eq_getElem h] at hrow
  simp [List.getD_eq_getElem?_getD, hrow, h]

theorem scoreRow_cell (rows : List (List Nat)) (x : Nat) {b : List Nat} {j : Nat} (h : j < b.length) :
    (scoreRow rows x b).getD (j + 1) 0 = cell rows ((scoreRow rows x b).take (j + 1)) x (b.getD j 0) := by
  have hcell := growFrom_getElem? (fun row y => cell rows row x y) [0] b j
  rw [← scoreRow_eq_growFrom, List.length_singleton, Nat.add_comm 1 j, List.getElem?_eq_getElem h] at hcell
  simp [List.getD_eq_getElem?_getD, hcell, h]

theorem length_scoreMatrix (a b : List Nat) : (scoreMatrix a b).length = a.length + 1 := by
  simp [scoreMatrix_eq_growFrom, Nat.add_comm]

theorem length_scoreRow (rows : List (List Nat)) (x : Nat) (b : List Nat) :
    (scoreRow rows x b).length = b.length + 1 := by
  simp [scoreRow_eq_growFrom, Nat.add_comm]

theorem getD_take {α : Type} (l : List α) {i k : Nat} (h : i < k) (d : α) : (l.take k).getD i d = l.getD i d := by
  simp [List.getD_eq_getElem?_getD, h]

/-- Every score row starts with 0. -/
theorem scoreRow_zero (rows : List (List Nat)) (x : Nat) (b : List Nat) : (scoreRow rows x b).getD 0 0 = 0 := by
  have hinit := take_growFrom (fun row y => cell rows row x y) [0] b
  rw [← getD_take (k := 1) _ Nat.one_pos, scoreRow_eq_growFrom]
  exact congrArg (fun l : List Nat => l.getD 0 0) hinit

theorem cellAt_zero_left (a b : List Nat) (j : Nat) : cellAt (scoreMatrix a b) 0 j = 0 := by
  have hinit := take_growFrom (fun rows x => scoreRow rows x b) [List.replicate (b.length + 1) 0] a
  have hrow : (scoreMatrix a b).getD 0 [] = List.replicate (b.length + 1) 0 := by
    rw [← getD_take (k := 1) _ Nat.one_pos, scoreMatrix_eq_growFrom]
    exact congrArg (fun l : List (List Nat) => l.getD 0 []) hinit
  rw [cellAt, hrow, List.getD_eq_getElem?_getD, List.getElem?_replicate]
  split <;> rfl

theorem cellAt_zero_right (a b : List Nat) (i : Nat) : cellAt (scoreMatrix a b) i 0 = 0 := by
  cases i with
  | zero => exact cellAt_zero_left a b 0
  | succ i =>
    by_cases h : i < a.length
    · rw [cellAt, scoreMatrix_row b h, scoreRow_zero]
    · have hrow : (scoreMatrix a b).getD (i + 1) [] = [] := List.getD_eq_default _ _ (by rw [length_scoreMatrix]; omega)
      rw [cellAt, hrow]
      rfl

/-- A cell off the border is the least upper bound of its candidates (R271). -/
theorem cellAt_succ_le_iff {a b : List Nat} {i j : Nat} (hi : i < a.length) (hj : j < b.length) (h : Int) :
    (cellAt (scoreMatrix a b) (i + 1) (j + 1) : Int) ≤ h ↔
      0 ≤ h ∧
      (cellAt (scoreMatrix a b) i j : Int) + alignScore (a.getD i 0) (b.getD j 0) ≤ h ∧
      (∀ g < i + 1, (cellAt (scoreMatrix a b) (i + 1 - (g + 1)) (j + 1) : Int) - 2 * (g + 1) ≤ h) ∧
      (∀ g < j + 1, (cellAt (scoreMatrix a b) (i + 1) (j + 1 - (g + 1)) : Int) - 2 * (g + 1) ≤ h) := by
  have hrow := scoreMatrix_row b hi
  have hcell : cellAt (scoreMatrix a b) (i + 1) (j + 1) =
      cell ((scoreMatrix a b).take (i + 1)) (((scoreMatrix a b).getD (i + 1) []).take (j + 1)) (a.getD i 0)
        (b.getD j 0) := by
    rw [cellAt, hrow, scoreRow_cell _ _ hj]
  have hrows : ((scoreMatrix a b).take (i + 1)).length = i + 1 := by
    rw [List.length_take, length_scoreMatrix]; omega
  have hcols : (((scoreMatrix a b).getD (i + 1) []).take (j + 1)).length = j + 1 := by
    rw [hrow, List.length_take, length_scoreRow]; omega
  have habove : ∀ k < i + 1, ∀ l, cellAt ((scoreMatrix a b).take (i + 1)) k l = cellAt (scoreMatrix a b) k l :=
    fun k hk l => by rw [cellAt, cellAt, getD_take _ hk]
  have hbefore : ∀ l < j + 1, (((scoreMatrix a b).getD (i + 1) []).take (j + 1)).getD l 0 =
      cellAt (scoreMatrix a b) (i + 1) l := fun l hl => getD_take _ hl _
  rw [hcell, cell_le_iff, hrows, hcols, habove _ (by omega), Nat.add_sub_cancel, Nat.add_sub_cancel]
  refine and_congr_right' (and_congr_right' (and_congr ?above ?before))
  case above => exact forall₂_congr fun g hg => by rw [habove _ (by omega)]
  case before => exact forall₂_congr fun g hg => by rw [hbefore _ (by omega)]

/-- A number between 1 and a bound, by its predecessor. -/
theorem forall_gap_iff {p : Nat → Prop} (k : Nat) : (∀ g < k, p (g + 1)) ↔ ∀ g, 1 ≤ g → g ≤ k → p g := by
  constructor
  · intro h g hpos hle
    obtain ⟨g, rfl⟩ := Nat.exists_eq_add_of_le' hpos
    exact h g (by omega)
  · exact fun h g hg => h (g + 1) (by omega) (by omega)

/-- Settles O41: the border is what the rows grow from, and a cell off it is the least upper bound of its candidates. -/
theorem scoreMatrixRecurrence : Obligations.ScoreMatrixRecurrence := by
  unfold Obligations.ScoreMatrixRecurrence
  intro a b
  refine ⟨cellAt_zero_right a b, cellAt_zero_left a b, fun i j hi hia hj hjb h => ?_⟩
  obtain ⟨i, rfl⟩ := Nat.exists_eq_add_of_le' hi
  obtain ⟨j, rfl⟩ := Nat.exists_eq_add_of_le' hj
  rw [cellAt_succ_le_iff (by omega) (by omega),
    ← forall_gap_iff (p := fun g => (cellAt (scoreMatrix a b) (i + 1 - g) (j + 1) : Int) - 2 * g ≤ h),
    ← forall_gap_iff (p := fun g => (cellAt (scoreMatrix a b) (i + 1) (j + 1 - g) : Int) - 2 * g ≤ h)]
  rfl

/-! ### The traceback as a walk (R273) -/

/-- A point of the traceback: the cell it has reached and the mapping so far. -/
structure TracePoint where
  row : Nat
  col : Nat
  map : List (Option Nat)

/-- One move of the traceback: to the diagonal neighbour, with or without a pair, or along a gap in one list. -/
inductive TraceMove (a b : List Nat) : TracePoint → TracePoint → Prop
  | pair {i j : Nat} {m : List (Option Nat)} (hi : i < a.length) (hj : j < b.length)
      (hvalue : a.getD i 0 = b.getD j 0)
      (hcell : cellAt (scoreMatrix a b) (i + 1) (j + 1) = cellAt (scoreMatrix a b) i j + 3) :
      TraceMove a b ⟨i + 1, j + 1, m⟩ ⟨i, j, m.set i (some j)⟩
  | mismatch {i j : Nat} {m : List (Option Nat)}
      (hcell : cellAt (scoreMatrix a b) (i + 1) (j + 1) + 3 = cellAt (scoreMatrix a b) i j) :
      TraceMove a b ⟨i + 1, j + 1, m⟩ ⟨i, j, m⟩
  | gapUp {i j g : Nat} {m : List (Option Nat)}
      (hcell : cellAt (scoreMatrix a b) i j + 2 * g = cellAt (scoreMatrix a b) (i - g) j) :
      TraceMove a b ⟨i, j, m⟩ ⟨i - g, j, m⟩
  | gapLeft {i j g : Nat} {m : List (Option Nat)}
      (hcell : cellAt (scoreMatrix a b) i j + 2 * g = cellAt (scoreMatrix a b) i (j - g)) :
      TraceMove a b ⟨i, j, m⟩ ⟨i, j - g, m⟩

theorem smallestGap_eq_some {value bound g : Nat} {source : Nat → Nat} (h : smallestGap value source bound = some g) :
    1 ≤ g ∧ g ≤ bound ∧ value + 2 * g = source g := by
  have hmem := List.mem_of_find?_eq_some h
  have hval := List.find?_some h
  simp only [List.mem_map, List.mem_range] at hmem
  obtain ⟨k, hk, rfl⟩ := hmem
  exact ⟨by omega, by omega, by simpa using hval⟩

theorem smallestGap_eq_none {value bound : Nat} {source : Nat → Nat} (h : smallestGap value source bound = none)
    {g : Nat} (hg : g < bound) : value + 2 * (g + 1) ≠ source (g + 1) := by
  have := List.find?_eq_none.mp h (g + 1) (List.mem_map.mpr ⟨g, List.mem_range.mpr hg, rfl⟩)
  simpa using this

/-- A cell that is not 0 has the value of one of its candidates: it is their least upper bound. -/
theorem cellAt_has_source {a b : List Nat} {i j : Nat} (hi : i < a.length) (hj : j < b.length)
    (hne : cellAt (scoreMatrix a b) (i + 1) (j + 1) ≠ 0) :
      (cellAt (scoreMatrix a b) (i + 1) (j + 1) : Int) =
        cellAt (scoreMatrix a b) i j + alignScore (a.getD i 0) (b.getD j 0) ∨
      (∃ g < i + 1, cellAt (scoreMatrix a b) (i + 1) (j + 1) + 2 * (g + 1) =
        cellAt (scoreMatrix a b) (i + 1 - (g + 1)) (j + 1)) ∨
      (∃ g < j + 1, cellAt (scoreMatrix a b) (i + 1) (j + 1) + 2 * (g + 1) =
        cellAt (scoreMatrix a b) (i + 1) (j + 1 - (g + 1))) := by
  by_contra hnone
  push Not at hnone
  obtain ⟨hdiagonal, hup, hleft⟩ := hnone
  obtain ⟨-, hd, hu, hl⟩ := (cellAt_succ_le_iff hi hj _).mp le_rfl
  have hsmaller : (cellAt (scoreMatrix a b) (i + 1) (j + 1) : Int) ≤ cellAt (scoreMatrix a b) (i + 1) (j + 1) - 1 := by
    refine (cellAt_succ_le_iff hi hj _).mpr ⟨by omega, by omega, fun g hg => ?_, fun g hg => ?_⟩
    · have := hu g hg
      have := hup g hg
      omega
    · have := hl g hg
      have := hleft g hg
      omega
  omega

/-- The traceback moves until it meets a cell of value 0, and answers the mapping it has then. -/
theorem traceback_walks (a b : List Nat) {moves i j : Nat} (m : List (Option Nat)) (hi : i ≤ a.length)
    (hj : j ≤ b.length) (hmoves : i + j ≤ moves) : ∃ p : TracePoint,
      Relation.ReflTransGen (TraceMove a b) ⟨i, j, m⟩ p ∧ cellAt (scoreMatrix a b) p.row p.col = 0 ∧
      traceback a b (scoreMatrix a b) moves i j m = p.map := by
  induction moves generalizing i j m with
  | zero =>
    obtain ⟨rfl, rfl⟩ : i = 0 ∧ j = 0 := by omega
    exact ⟨_, .refl, cellAt_zero_left a b 0, rfl⟩
  | succ moves ih =>
    have moved : ∀ {i' j' m'}, TraceMove a b ⟨i, j, m⟩ ⟨i', j', m'⟩ → i' ≤ i → j' ≤ j → i' + j' < i + j →
        ∃ p : TracePoint, Relation.ReflTransGen (TraceMove a b) ⟨i, j, m⟩ p ∧
          cellAt (scoreMatrix a b) p.row p.col = 0 ∧ traceback a b (scoreMatrix a b) moves i' j' m' = p.map := by
      intro i' j' m' hmove hi' hj' hlt
      obtain ⟨p, hwalk, hend, hmap⟩ := ih m' (hi'.trans hi) (hj'.trans hj) (by omega)
      exact ⟨p, .head hmove hwalk, hend, hmap⟩
    rw [traceback]
    split
    case isTrue hstop =>
      refine ⟨_, .refl, ?_, rfl⟩
      rcases hstop with rfl | rfl | hzero
      · exact cellAt_zero_left a b j
      · exact cellAt_zero_right a b i
      · exact hzero
    case isFalse hgo =>
      push Not at hgo
      obtain ⟨hi0, hj0, hne⟩ := hgo
      obtain ⟨i, rfl⟩ := Nat.exists_eq_succ_of_ne_zero hi0
      obtain ⟨j, rfl⟩ := Nat.exists_eq_succ_of_ne_zero hj0
      simp only [Nat.succ_eq_add_one, Nat.add_sub_cancel] at *
      split
      case isTrue hdiagonal =>
        by_cases hvalue : a.getD i 0 = b.getD j 0
        · rw [alignScore, if_pos hvalue] at hdiagonal
          rw [if_pos hvalue]
          exact moved (.pair hi hj hvalue (by omega)) (by omega) (by omega) (by omega)
        · rw [alignScore, if_neg hvalue] at hdiagonal
          rw [if_neg hvalue]
          exact moved (.mismatch (by omega)) (by omega) (by omega) (by omega)
      case isFalse hdiagonal =>
        split
        case h_1 g hgap =>
          obtain ⟨hpos, hle, hcell⟩ := smallestGap_eq_some hgap
          exact moved (.gapUp hcell) (by omega) le_rfl (by omega)
        case h_2 hup =>
          split
          case h_1 g hgap =>
            obtain ⟨hpos, hle, hcell⟩ := smallestGap_eq_some hgap
            exact moved (.gapLeft hcell) le_rfl (by omega) (by omega)
          case h_2 hleft =>
            rcases cellAt_has_source hi hj hne with hd | ⟨g, hg, hcell⟩ | ⟨g, hg, hcell⟩
            · exact absurd hd hdiagonal
            · exact absurd hcell (smallestGap_eq_none hup hg)
            · exact absurd hcell (smallestGap_eq_none hleft hg)

/-! ### The start cell (R272) -/

theorem mem_cellsInOrder {n m i j : Nat} (hi : i < n) (hj : j < m) : (i + 1, j + 1) ∈ cellsInOrder n m := by
  simp [cellsInOrder, hi, hj]

theorem le_of_mem_cellsInOrder {n m : Nat} {c : Nat × Nat} (h : c ∈ cellsInOrder n m) : c.1 ≤ n ∧ c.2 ≤ m := by
  simp only [cellsInOrder, List.mem_flatMap, List.mem_map, List.mem_range] at h
  obtain ⟨i, hi, j, hj, rfl⟩ := h
  exact ⟨hi, hj⟩

/-- The choice R272 makes between the best cell so far and the next one. -/
def betterCell (h : List (List Nat)) (best : Option (Nat × Nat)) (c : Nat × Nat) : Option (Nat × Nat) :=
  if cellAt h c.1 c.2 = 0 then best
  else
    match best with
    | none => some c
    | some d => if cellAt h d.1 d.2 ≤ cellAt h c.1 c.2 then some c else best

theorem startCell_eq_foldl (h : List (List Nat)) (n m : Nat) :
    startCell h n m = (cellsInOrder n m).foldl (betterCell h) none := by
  unfold startCell
  congr 1

/-- The best of some cells is one of the largest among them, or all of them are 0. -/
theorem foldl_betterCell (h : List (List Nat)) (l : List (Nat × Nat)) :
    (l.foldl (betterCell h) none = none ∧ ∀ c ∈ l, cellAt h c.1 c.2 = 0) ∨
    ∃ d ∈ l, l.foldl (betterCell h) none = some d ∧ ∀ c ∈ l, cellAt h c.1 c.2 ≤ cellAt h d.1 d.2 := by
  induction l using List.reverseRecOn with
  | nil => exact .inl ⟨rfl, by simp⟩
  | append_singleton l c ih =>
    simp only [List.foldl_append, List.foldl_cons, List.foldl_nil, List.forall_mem_append, List.forall_mem_singleton]
    by_cases hc : cellAt h c.1 c.2 = 0
    · simp only [betterCell, hc]
      rcases ih with ⟨hnone, hzero⟩ | ⟨d, hd, hbest, hmax⟩
      · exact .inl ⟨hnone, hzero, trivial⟩
      · exact .inr ⟨d, List.mem_append_left _ hd, hbest, hmax, Nat.zero_le _⟩
    · rcases ih with ⟨hnone, hzero⟩ | ⟨d, hd, hbest, hmax⟩
      · simp only [hnone, betterCell, if_neg hc]
        exact .inr ⟨c, List.mem_concat_self, rfl, fun e he => (hzero e he).trans_le (Nat.zero_le _), le_rfl⟩
      · by_cases hle : cellAt h d.1 d.2 ≤ cellAt h c.1 c.2
        · simp only [hbest, betterCell, if_neg hc, if_pos hle]
          exact .inr ⟨c, List.mem_concat_self, rfl, fun e he => (hmax e he).trans hle, le_rfl⟩
        · simp only [hbest, betterCell, if_neg hc, if_neg hle]
          exact .inr ⟨d, List.mem_append_left _ hd, rfl, hmax, by omega⟩

/-- ALIGN walks from a largest cell, with nothing paired, to a cell of value 0, and answers the mapping it has then. -/
theorem align_walks (a b : List Nat) : ∃ i j, ∃ p : TracePoint, i ≤ a.length ∧ j ≤ b.length ∧
    (∀ i' j', i' ≤ a.length → j' ≤ b.length →
      cellAt (scoreMatrix a b) i' j' ≤ cellAt (scoreMatrix a b) i j) ∧
    Relation.ReflTransGen (TraceMove a b) ⟨i, j, List.replicate a.length none⟩ p ∧
    cellAt (scoreMatrix a b) p.row p.col = 0 ∧ align a b = p.map := by
  have largest : ∀ v, (∀ c ∈ cellsInOrder a.length b.length, cellAt (scoreMatrix a b) c.1 c.2 ≤ v) →
      ∀ i' j', i' ≤ a.length → j' ≤ b.length → cellAt (scoreMatrix a b) i' j' ≤ v := by
    intro v hv i' j' hi hj
    cases i' with
    | zero => rw [cellAt_zero_left]; exact Nat.zero_le v
    | succ i' =>
      cases j' with
      | zero => rw [cellAt_zero_right]; exact Nat.zero_le v
      | succ j' => exact hv _ (mem_cellsInOrder hi hj)
  rcases foldl_betterCell (scoreMatrix a b) (cellsInOrder a.length b.length) with ⟨hnone, hzero⟩ | ⟨c, hc, hbest, hmax⟩
  · refine ⟨0, 0, _, Nat.zero_le _, Nat.zero_le _, ?_, .refl, cellAt_zero_left a b 0, ?_⟩
    · rw [cellAt_zero_left]
      exact largest 0 fun c hc => (hzero c hc).le
    · rw [align, startCell_eq_foldl, hnone]
  · obtain ⟨hi, hj⟩ := le_of_mem_cellsInOrder hc
    obtain ⟨p, hwalk, hend, hmap⟩ := traceback_walks a b (List.replicate a.length none) hi hj le_rfl
    refine ⟨c.1, c.2, p, hi, hj, largest _ hmax, hwalk, hend, ?_⟩
    rw [align, startCell_eq_foldl, hbest]
    exact hmap

/-! ### Soundness and order of the mapping (R274) -/

/-- What the mapping has at every point of the traceback: it pairs equal values, all beyond the cell reached, in rising
order. -/
structure TracePoint.Sound (a b : List Nat) (p : TracePoint) : Prop where
  length : p.map.length = a.length
  paired : ∀ k l : Nat, p.map[k]? = some (some l) → p.row ≤ k ∧ p.col ≤ l ∧ ∃ x, a[k]? = some x ∧ b[l]? = some x
  increasing : ∀ k k' l l' : Nat, k < k' → p.map[k]? = some (some l) → p.map[k']? = some (some l') → l < l'

/-- Where nothing is paired nothing is paired wrongly. -/
theorem TracePoint.sound_start (a b : List Nat) (i j : Nat) :
    TracePoint.Sound a b ⟨i, j, List.replicate a.length none⟩ where
  length := List.length_replicate
  paired k l h := by simp [List.getElem?_replicate] at h
  increasing k k' l l' _ h := by simp [List.getElem?_replicate] at h

/-- A move that pairs nothing keeps soundness. -/
theorem TracePoint.Sound.lower {a b : List Nat} {i j i' j' : Nat} {m : List (Option Nat)}
    (h : TracePoint.Sound a b ⟨i, j, m⟩) (hi : i' ≤ i) (hj : j' ≤ j) : TracePoint.Sound a b ⟨i', j', m⟩ where
  length := h.length
  paired k l hkl := by
    obtain ⟨hk, hl, hvalue⟩ := h.paired k l hkl
    exact ⟨hi.trans hk, hj.trans hl, hvalue⟩
  increasing := h.increasing

/-- A pair before all others keeps soundness. -/
theorem TracePoint.Sound.pair {a b : List Nat} {i j : Nat} {m : List (Option Nat)}
    (h : TracePoint.Sound a b ⟨i + 1, j + 1, m⟩) (hi : i < a.length) (hj : j < b.length)
    (hvalue : a.getD i 0 = b.getD j 0) : TracePoint.Sound a b ⟨i, j, m.set i (some j)⟩ := by
  have hlen : i < m.length := h.length.symm ▸ hi
  have entry : ∀ k l : Nat, (m.set i (some j))[k]? = some (some l) →
      (k = i ∧ l = j) ∨ (i + 1 ≤ k ∧ j + 1 ≤ l ∧ m[k]? = some (some l)) := by
    intro k l hkl
    by_cases hk : i = k
    · subst hk
      rw [List.getElem?_set_self hlen, Option.some_inj, Option.some_inj] at hkl
      exact .inl ⟨rfl, hkl.symm⟩
    · rw [List.getElem?_set_ne hk] at hkl
      obtain ⟨hik, hjl, -⟩ := h.paired k l hkl
      exact .inr ⟨hik, hjl, hkl⟩
  refine ⟨(List.length_set ..).trans h.length, fun k l hkl => ?_, fun k k' l l' hkk' hkl hkl' => ?_⟩
  · rcases entry k l hkl with ⟨rfl, rfl⟩ | ⟨hik, hjl, hold⟩
    · refine ⟨le_rfl, le_rfl, a.getD k 0, by simp [hi], ?_⟩
      rw [hvalue]
      simp [hj]
    · obtain ⟨-, -, hx⟩ := h.paired k l hold
      exact ⟨by simp only; omega, by simp only; omega, hx⟩
  · rcases entry k l hkl with ⟨rfl, rfl⟩ | ⟨hik, -, hold⟩ <;>
      rcases entry k' l' hkl' with ⟨rfl, rfl⟩ | ⟨-, hjl', hold'⟩
    · omega
    · omega
    · omega
    · exact h.increasing k k' l l' hkk' hold hold'

theorem TraceMove.sound {a b : List Nat} {p q : TracePoint} (hmove : TraceMove a b p q) (h : p.Sound a b) :
    q.Sound a b := by
  cases hmove with
  | pair hi hj hvalue _ => exact h.pair hi hj hvalue
  | mismatch => exact h.lower (Nat.le_succ _) (Nat.le_succ _)
  | gapUp => exact h.lower (Nat.sub_le ..) le_rfl
  | gapLeft => exact h.lower le_rfl (Nat.sub_le ..)

theorem sound_of_walk {a b : List Nat} {p q : TracePoint} (hwalk : Relation.ReflTransGen (TraceMove a b) p q)
    (h : p.Sound a b) : q.Sound a b := by
  induction hwalk with
  | refl => exact h
  | tail _ hmove ih => exact hmove.sound ih

theorem align_sound (a b : List Nat) : ∃ i j, TracePoint.Sound a b ⟨i, j, align a b⟩ := by
  obtain ⟨i, j, p, -, -, -, hwalk, -, hmap⟩ := align_walks a b
  exact ⟨p.row, p.col, hmap ▸ sound_of_walk hwalk (TracePoint.sound_start a b i j)⟩

@[simp] theorem length_align (a b : List Nat) : (align a b).length = a.length := by
  obtain ⟨i, j, h⟩ := align_sound a b
  exact h.length

theorem align_pairs_equal {a b : List Nat} {i j : Nat} (h : (align a b)[i]? = some (some j)) :
    ∃ x, a[i]? = some x ∧ b[j]? = some x := by
  obtain ⟨_, _, hsound⟩ := align_sound a b
  obtain ⟨-, -, hx⟩ := hsound.paired i j h
  exact hx

theorem align_increasing {a b : List Nat} {i i' j j' : Nat} (hi : i < i') (h : (align a b)[i]? = some (some j))
    (h' : (align a b)[i']? = some (some j')) : j < j' := by
  obtain ⟨_, _, hsound⟩ := align_sound a b
  exact hsound.increasing i i' j j' hi h h'

/-- Settles O42: the mapping is sound at every point of the traceback, so where it ends. -/
theorem mappingIsSoundAndIncreasing : Obligations.MappingIsSoundAndIncreasing := by
  unfold Obligations.MappingIsSoundAndIncreasing
  exact fun a b => ⟨length_align a b, fun i j h => align_pairs_equal h,
    fun i i' j j' hi h h' => align_increasing hi h h'⟩

/-! ### Every score above 3(p - 1) takes p pairs (R271, R273)

Along the traceback only a pair lowers the score, by 3, and the walk ends at 0. So the largest score bounds the number
of pairs from below. -/

/-- The number of positions a mapping pairs. -/
def pairCount (m : List (Option Nat)) : Nat := m.countP Option.isSome

/-- A pair at a position that has none is one more. -/
theorem pairCount_set {m : List (Option Nat)} {i : Nat} (h : m[i]? = some none) (j : Nat) :
    pairCount (m.set i (some j)) = pairCount m + 1 := by
  obtain ⟨hlt, hnone⟩ := List.getElem?_eq_some_iff.mp h
  simp [pairCount, List.countP_set, hlt, hnone]

/-- No move lowers the pairs made and the score left to make, taken together. -/
theorem TraceMove.score_le {a b : List Nat} {p q : TracePoint} (hmove : TraceMove a b p q) (h : p.Sound a b) :
    3 * pairCount p.map + cellAt (scoreMatrix a b) p.row p.col ≤
      3 * pairCount q.map + cellAt (scoreMatrix a b) q.row q.col := by
  cases hmove with
  | @pair i j m hi _ _ hcell =>
    have hlt : i < m.length := h.length.symm ▸ hi
    have hfree : m[i]? = some none := by
      cases hmi : m[i] with
      | none => rw [List.getElem?_eq_getElem hlt, hmi]
      | some l =>
        obtain ⟨hle, -, -⟩ := h.paired i l (by rw [List.getElem?_eq_getElem hlt, hmi])
        exact absurd hle (Nat.not_succ_le_self i)
    simp only [pairCount_set hfree, hcell]
    omega
  | mismatch hcell => simp only; omega
  | gapUp hcell => simp only; omega
  | gapLeft hcell => simp only; omega

theorem score_le_of_walk {a b : List Nat} {p q : TracePoint} (hwalk : Relation.ReflTransGen (TraceMove a b) p q)
    (h : p.Sound a b) : 3 * pairCount p.map + cellAt (scoreMatrix a b) p.row p.col ≤
      3 * pairCount q.map + cellAt (scoreMatrix a b) q.row q.col := by
  induction hwalk with
  | refl => exact le_rfl
  | tail hbefore hmove ih => exact ih.trans (hmove.score_le (sound_of_walk hbefore h))

/-- No score is more than 3 for each pair ALIGN makes. -/
theorem cellAt_le_pairCount {a b : List Nat} {i j : Nat} (hi : i ≤ a.length) (hj : j ≤ b.length) :
    cellAt (scoreMatrix a b) i j ≤ 3 * pairCount (align a b) := by
  obtain ⟨i', j', p, -, -, hmax, hwalk, hend, hmap⟩ := align_walks a b
  have hscore := score_le_of_walk hwalk (TracePoint.sound_start a b i' j')
  rw [hend, ← hmap] at hscore
  have hlargest := hmax i j hi hj
  simp only at hscore
  omega

/-- A run of equal values raises the score by 3 for each. -/
theorem cellAt_add_le {a b : List Nat} {i j k : Nat} (hi : i + k ≤ a.length) (hj : j + k ≤ b.length)
    (h : ∀ d < k, a[i + d]? = b[j + d]?) :
    cellAt (scoreMatrix a b) i j + 3 * k ≤ cellAt (scoreMatrix a b) (i + k) (j + k) := by
  induction k with
  | zero => exact le_rfl
  | succ k ih =>
    have hrun := ih (by omega) (by omega) fun d hd => h d (by omega)
    have hvalue : a.getD (i + k) 0 = b.getD (j + k) 0 := by
      rw [List.getD_eq_getElem?_getD, List.getD_eq_getElem?_getD, h k (by omega)]
    obtain ⟨-, hdiagonal, -, -⟩ := (cellAt_succ_le_iff (a := a) (b := b) (i := i + k) (j := j + k) (by omega) (by omega)
      _).mp le_rfl
    rw [alignScore, if_pos hvalue] at hdiagonal
    rw [← Nat.add_assoc, ← Nat.add_assoc]
    omega

/-- A gap of one position in the second list costs 2. -/
theorem cellAt_le_gap {a b : List Nat} {i j : Nat} (hi : i < a.length) (hj : j ≤ b.length) :
    cellAt (scoreMatrix a b) i j ≤ cellAt (scoreMatrix a b) (i + 1) j + 2 := by
  cases j with
  | zero => rw [cellAt_zero_right]; exact Nat.zero_le _
  | succ j =>
    obtain ⟨-, -, hup, -⟩ := (cellAt_succ_le_iff hi hj _).mp le_rfl
    have hgap := hup 0 (Nat.succ_pos i)
    rw [Nat.zero_add, Nat.add_sub_cancel] at hgap
    omega

/-! ### A mapping without unmatched positions -/

theorem pairCount_add_unmatched (m : List (Option Nat)) :
    pairCount m + (m.filter Option.isNone).length = m.length := by
  have hrest : (fun e : Option Nat => decide ¬e.isSome = true) = Option.isNone := by
    funext e
    cases e <;> rfl
  rw [pairCount, ← List.countP_eq_length_filter, List.length_eq_countP_add_countP Option.isSome, hrest]

theorem pairCount_align_le (a b : List Nat) : pairCount (align a b) ≤ a.length :=
  length_align a b ▸ List.countP_le_length

/-- Where ALIGN pairs every position, it does so by a rising function. -/
theorem align_strictMono {a b : List Nat} (h : pairCount (align a b) = a.length) :
    ∃ f : Fin a.length → Fin b.length, StrictMono f ∧ ∀ i, (align a b)[i.val]? = some (some (f i).val) := by
  have hall := List.countP_eq_length.mp (h.trans (length_align a b).symm)
  have hpaired : ∀ i : Fin a.length, ∃ j : Fin b.length, (align a b)[i.val]? = some (some j.val) := by
    intro i
    have hlt : i.val < (align a b).length := (length_align a b).symm ▸ i.isLt
    obtain ⟨j, hj⟩ := Option.isSome_iff_exists.mp (hall _ (List.getElem_mem hlt))
    have hentry : (align a b)[i.val]? = some (some j) := by rw [List.getElem?_eq_getElem hlt, hj]
    obtain ⟨x, -, hx⟩ := align_pairs_equal hentry
    obtain ⟨hjlt, -⟩ := List.getElem?_eq_some_iff.mp hx
    exact ⟨⟨j, hjlt⟩, hentry⟩
  choose f hf using hpaired
  exact ⟨f, fun i i' hi => align_increasing hi (hf i) (hf i'), hf⟩

/-- ALIGN pairs no more positions than the second list has. -/
theorem pairCount_lt_of_length_lt {a b : List Nat} (h : b.length < a.length) : pairCount (align a b) < a.length := by
  refine (pairCount_align_le a b).lt_of_ne fun hall => ?_
  obtain ⟨f, hf, -⟩ := align_strictMono hall
  have := Fintype.card_le_of_injective f hf.injective
  simp only [Fintype.card_fin] at this
  omega

/-- Settles O43: the diagonal scores 3 a position, so every position is paired, and a rising function of a finite range
to itself is the identity. -/
theorem alignIdentity : Obligations.AlignIdentity := by
  unfold Obligations.AlignIdentity
  intro a
  have hscore := cellAt_add_le (a := a) (b := a) (i := 0) (j := 0) (k := a.length) (by omega) (by omega)
    fun _ _ => rfl
  have hpairs := cellAt_le_pairCount (a := a) (b := a) (i := 0 + a.length) (j := 0 + a.length) (by omega) (by omega)
  have hle := pairCount_align_le a a
  obtain ⟨f, hmono, hf⟩ := align_strictMono (a := a) (b := a) (by omega)
  have hid : f = id := (hmono.range_inj strictMono_id).mp
    ((Finite.surjective_of_injective hmono.injective).range_eq.trans Set.range_id.symm)
  refine List.ext_getElem? fun i => ?_
  by_cases hi : i < a.length
  · rw [hf ⟨i, hi⟩, hid]
    simp [hi]
  · rw [List.getElem?_eq_none (by simpa using hi), List.getElem?_eq_none (by simpa using hi)]

/-! ### One deletion (R275) -/

section
variable {a : List Nat} {k : Nat} (hk : k < a.length)
include hk

theorem length_eraseIdx_add_one : (a.eraseIdx k).length + 1 = a.length := by
  rw [List.length_eraseIdx_of_lt hk]
  omega

/-- Every position but one is paired: the values before the deleted one, a gap and the values after it score more than
one pair less could. -/
theorem pairCount_eraseIdx : pairCount (align a (a.eraseIdx k)) = (a.eraseIdx k).length := by
  have hlen := length_eraseIdx_add_one hk
  have hbefore := cellAt_add_le (a := a) (b := a.eraseIdx k) (i := 0) (j := 0) (k := k) (by omega) (by omega)
    fun d hd => by rw [Nat.zero_add, List.getElem?_eraseIdx_of_lt hd]
  have hgap := cellAt_le_gap (a := a) (b := a.eraseIdx k) (i := k) (j := k) hk (by omega)
  have hafter := cellAt_add_le (a := a) (b := a.eraseIdx k) (i := k + 1) (j := k) (k := (a.eraseIdx k).length - k)
    (by omega) (by omega) fun d _ => by
      rw [List.getElem?_eraseIdx_of_ge (Nat.le_add_right k d), Nat.add_right_comm]
  have hscore := cellAt_le_pairCount (a := a) (b := a.eraseIdx k) (i := k + 1 + ((a.eraseIdx k).length - k))
    (j := k + ((a.eraseIdx k).length - k)) (by omega) (by omega)
  have hlt := pairCount_lt_of_length_lt (a := a) (b := a.eraseIdx k) (by omega)
  rw [Nat.zero_add] at hbefore
  omega

theorem unmatched_eraseIdx : ((align a (a.eraseIdx k)).filter Option.isNone).length = 1 := by
  have hsplit := pairCount_add_unmatched (align a (a.eraseIdx k))
  have hlen := length_eraseIdx_add_one hk
  rw [pairCount_eraseIdx hk, length_align] at hsplit
  omega

end

/-- A mapping with one unmatched position has no second one. -/
theorem eq_of_one_unmatched {m : List (Option Nat)} (hone : (m.filter Option.isNone).length = 1) {i j : Nat}
    (hi : m[i]? = some none) (hj : m[j]? = some none) : i = j := by
  by_contra hne
  have hsplit := pairCount_add_unmatched m
  have hsplit' := pairCount_add_unmatched (m.set i (some 0))
  rw [pairCount_set hi, List.length_set] at hsplit'
  have hzero : ((m.set i (some 0)).filter Option.isNone).length = 0 := by omega
  rw [List.length_eq_zero_iff, List.filter_eq_nil_iff] at hzero
  have hmem : none ∈ m.set i (some 0) := List.mem_of_getElem? (i := j) (by rw [List.getElem?_set_ne hne, hj])
  exact hzero _ hmem rfl

/-- The position a survivor of the deletion has in the shorter list; the deleted one has none. -/
def survivor (k i : Nat) : Option Nat := if i < k then some i else if i = k then none else some (i - 1)

/-- Without repeated values a position is paired, if at all, with its own copy. -/
theorem pair_eq_survivor {a : List Nat} {k i j : Nat} (hnodup : a.Nodup) (hi : i < a.length)
    (h : a[i]? = (a.eraseIdx k)[j]?) : some j = survivor k i := by
  rw [List.getElem?_eraseIdx] at h
  unfold survivor
  split at h
  · obtain rfl := (List.getElem?_inj hi hnodup).mp h
    rw [if_pos ‹_›]
  · obtain rfl := (List.getElem?_inj hi hnodup).mp h
    rw [if_neg (by omega), if_neg (by omega), Nat.add_sub_cancel]

/-- Settles O44: by the number of pairs, and by their values where these do not repeat. -/
theorem alignOneDeletion : Obligations.AlignOneDeletion := by
  unfold Obligations.AlignOneDeletion
  intro a k hk
  have hequal : ∀ i j : Nat, (align a (a.eraseIdx k))[i]? = some (some j) → a[i]? = (a.eraseIdx k)[j]? := by
    intro i j h
    obtain ⟨x, hx, hx'⟩ := align_pairs_equal h
    rw [hx, hx']
  refine ⟨unmatched_eraseIdx hk, hequal, fun hnodup => ?_⟩
  have entry : ∀ i < a.length, (align a (a.eraseIdx k))[i]? = some none ∨
      (align a (a.eraseIdx k))[i]? = some (survivor k i) := by
    intro i hi
    cases h : (align a (a.eraseIdx k))[i]? with
    | none =>
      rw [List.getElem?_eq_none_iff, length_align] at h
      omega
    | some e =>
      cases e with
      | none => exact .inl rfl
      | some j => exact .inr (congrArg some (pair_eq_survivor hnodup hi (hequal i j h)))
  have hdeleted : (align a (a.eraseIdx k))[k]? = some none := by simpa [survivor] using entry k hk
  refine List.ext_getElem? fun i => ?_
  by_cases hi : i < a.length
  · have hentry : (align a (a.eraseIdx k))[i]? = some (survivor k i) := by
      rcases entry i hi with hnone | hcopy
      · obtain rfl := eq_of_one_unmatched (unmatched_eraseIdx hk) hnone hdeleted
        simpa [survivor] using hnone
      · exact hcopy
    rw [hentry]
    simp [hi, survivor]
  · rw [List.getElem?_eq_none (by simpa using hi), List.getElem?_eq_none (by simpa using hi)]

/-- Settles O45: the alignment after one deletion. -/
theorem alignLostMiddle : Obligations.AlignLostMiddle := by
  unfold Obligations.AlignLostMiddle
  intro x y z hxy hxz hyz
  obtain ⟨-, -, hmap⟩ := alignOneDeletion [x, y, z] 1 (by simp)
  exact hmap (by simp [hxy, hxz, hyz])

end Sys2Proof.Machine

/-! The session commands and ADMIT (R241, R242, R244, R315, R316). -/

namespace Sys2Proof.Machine

/-! ### The checks before the first effect, one answer at a time (R241, R341) -/

section
variable {s : State} {t : ThreadId} {phase : RapPhase} {waiting running : Task}

theorem rapBegin_notOpen (hs : s.S.session ≠ .opened) :
    rapBegin t phase waiting running s = s.takeException t .notOpen := by
  simp [rapBegin, SessionState.notReady, hs]

theorem rapBegin_fault (hs : s.S.session = .opened) (hf : s.S.fault = true) :
    rapBegin t phase waiting running s = s.takeException t (.transportError s.S.faultInfo) := by
  simp [rapBegin, SessionState.notReady, hs, hf]

theorem rapBegin_waits (hs : s.S.session = .opened) (hf : s.S.fault = false) (hp : s.S.rapPhase ≠ .idle) :
    rapBegin t phase waiting running s = s.setTask t waiting := by
  simp [rapBegin, SessionState.notReady, hs, hf, hp]

theorem rapBegin_admitted (hs : s.S.session = .opened) (hf : s.S.fault = false) (hp : s.S.rapPhase = .idle) :
    rapBegin t phase waiting running s = (s.withS { s.S with rapPhase := phase }).setTask t running := by
  simp [rapBegin, SessionState.notReady, hs, hf, hp]

/-! ### SESSION_CLOSE up to its hold of the phase (R244) -/

theorem closeBegin_notOpen (hs : s.S.session ≠ .opened) : closeBegin t s = s.takeException t .notOpen := by
  simp [closeBegin, hs]

theorem closeBegin_waits (hs : s.S.session = .opened) (hp : s.S.rapPhase ≠ .idle) :
    closeBegin t s = s.setTask t .closeWait := by
  simp [closeBegin, hs, hp]

theorem closeBegin_holds (hs : s.S.session = .opened) (hp : s.S.rapPhase = .idle) :
    closeBegin t s = (s.withS { s.S with rapPhase := .closing }).setTask t .closeStop := by
  simp [closeBegin, hs, hp]

/-! ### The end of a command in progress -/

/-- The timeout of the command in progress in a thread. -/
theorem timeoutThread_of_task (P : Config.Params) {k : Task} (h : s.taskOf t = some k) :
    timeoutThread P t s = taskTimeout P t k s := by
  simp only [timeoutThread, h]

/-- A command that holds no phase ends with an exception, and nothing else changes. -/
theorem takeException_free {k : Task} (h : s.taskOf t = some k) (hk : k.holdsPhase = false) (st : Status) :
    s.takeException t st = (s.dropTask t).respond t ⟨st, .none⟩ := endCommand_free h hk _

/-- A command that has passed ADMIT ends with an exception, and the phase returns to IDLE. -/
theorem takeException_holding {k : Task} (h : s.taskOf t = some k) (hk : k.holdsPhase = true) (st : Status) :
    s.takeException t st = (({ s with S := { s.S with rapPhase := .idle } } : State).dropTask t).respond t
      ⟨st, .none⟩ := endCommand_holding h hk _

end

/-! ### SESSION_OPEN -/

/-- A session just opened has no value queued from any source (R46, R51). -/
theorem rx_atOpen (chip : BitVec 4) (src : Chan) : (SessionState.atOpen chip).rx src = [] := rfl

/-- Settles O28: the values at SESSION_OPEN are those of `atOpen`. -/
theorem sessionOpenMeaning : Obligations.SessionOpenMeaning := by
  unfold Obligations.SessionOpenMeaning
  intro a s hidle
  have hexec : exec (.sessionOpen a) s = execSessionOpen a s := rfl
  refine ⟨decode_code (c := .sessionOpen) rfl rfl, fun hlarge => ?range, fun ha hs => ?alreadyOpen,
    fun ha hs => ⟨SessionState.atOpen (BitVec.ofNat 4 a), ?opens, rfl, ?chip, rfl, rfl, rfl, rfl, rfl, rfl, rfl, rfl,
      rfl, rfl, rfl, rfl, rfl, rfl, rfl, rfl, rfl, rfl, rfl, rfl, rx_atOpen _, rfl, rfl, rfl, rfl⟩⟩
  case range =>
    rw [hexec, execSessionOpen, if_pos (show 2 ^ Config.chipAddrW ≤ a from hlarge)]
    exact congrArg _ (takeException_idle hidle _)
  case alreadyOpen =>
    rw [hexec, execSessionOpen, if_neg (show ¬ 2 ^ Config.chipAddrW ≤ a from Nat.not_le.mpr ha), if_pos hs]
    exact congrArg _ (takeException_idle hidle _)
  case opens =>
    rw [hexec, execSessionOpen, if_neg (show ¬ 2 ^ Config.chipAddrW ≤ a from Nat.not_le.mpr ha),
      if_neg (not_not.mpr hs)]
    exact congrArg _ (finish_idle (s := s.withS (SessionState.atOpen (BitVec.ofNat 4 a))) hidle _)
  case chip => exact (BitVec.toNat_ofNat ..).trans (Nat.mod_eq_of_lt ha)

/-! ### SESSION_CLOSE -/

/-- Settles O29: `closeBegin` is taken at issue and again in the step that ends the wait. -/
theorem sessionCloseMeaning : Obligations.SessionCloseMeaning := by
  unfold Obligations.SessionCloseMeaning
  refine ⟨fun s hidle => ⟨fun hs => ?notOpen, fun hs hp => ?waits, fun hs hp => ?holds⟩, fun P t s =>
    ⟨fun ht => ⟨fun hp => ?stays, fun hp hs => ?ended, fun hp hs => ?begins, timeoutThread_of_task P ht⟩,
      fun ht => ⟨?left, timeoutThread_of_task P ht⟩⟩⟩
  case notOpen => exact congrArg Host.Outcome.next ((closeBegin_notOpen hs).trans (takeException_idle hidle _))
  case waits =>
    exact ⟨_, congrArg Host.Outcome.next (closeBegin_waits hs hp), rfl, setTask_taskOf_same ..,
      fun t ht => setTask_taskOf_other _ ht _, rfl, rfl, rfl, rfl⟩
  case holds =>
    exact ⟨_, congrArg Host.Outcome.next (closeBegin_holds hs hp), rfl, setTask_taskOf_same ..,
      fun t ht => setTask_taskOf_other _ ht _, rfl, rfl, rfl, rfl⟩
  case stays => rw [advanceThread_of_task P ht, taskStep, if_neg hp]
  case ended =>
    rw [advanceThread_of_task P ht, taskStep, if_pos hp, closeBegin_notOpen hs, takeException_free ht rfl]
  case begins =>
    rw [advanceThread_of_task P ht, taskStep, if_pos hp, closeBegin_holds hs hp]
    rfl
  case left => exact (advanceThread_of_task P ht).trans (takeException_free ht rfl _)

/-! ### SHUTDOWN and JOIN (R315, R316) -/

/-- A command in progress that waits on no session goes on through the stop step. -/
theorem sessionLeft_eq_self {k : Task} (hdemux : ∀ src d, k ≠ .demuxWait src d) (hwrite : ∀ ops, k ≠ .admitWrite ops)
    (hread : ∀ addrs al, k ≠ .admitRead addrs al) (hclose : k ≠ .closeWait)
    (hapart : ∀ c, k = .apart c → c = .admitEnded ∨ c = .demuxEnded) : k.sessionLeft = k := by
  cases k with
  | apart c => rcases hapart c rfl with rfl | rfl <;> rfl
  | admitWrite ops => exact absurd rfl (hwrite ops)
  | admitRead addrs al => exact absurd rfl (hread addrs al)
  | closeWait => exact absurd rfl hclose
  | demuxWait src d => exact absurd rfl (hdemux src d)
  | admitEnded | write | read | closeEnded | closeStop | closeJoin | closeRet | demuxEnded | demuxRoom => rfl

theorem workersEnded_iff (S : SessionState) :
    S.workersEnded = true ↔ S.wSend ≠ .running ∧ S.wPoll ≠ .running ∧ S.wComm ≠ .running := by
  simp [SessionState.workersEnded, and_assoc]

/-- Settles O30: the stop step thread by thread by `sessionLeft`, then the two ends of JOIN. -/
theorem shutdownAndJoin : Obligations.ShutdownAndJoin := by
  unfold Obligations.ShutdownAndJoin
  intro P t s
  refine ⟨fun ht => ?stop, fun ht hsend hpoll hcomm => ?joined, fun ht hrun => ?joining, fun st ht => ?returns,
    fun ht => ?demuxEnded, fun src d ht hs => ?demuxOutside⟩
  case stop =>
    have hstep : advanceThread P t s = shutdownStop t s := advanceThread_of_task P ht
    rw [hstep]
    refine ⟨rfl, setTask_taskOf_same .., fun t' hne => ?others, rfl, rfl⟩
    have hafter := shutdownStop_taskOf_other s hne
    have hleft : ∀ k, s.taskOf t' = some k → (shutdownStop t s).taskOf t' = some k.sessionLeft :=
      fun k hk => hafter.trans (congrArg _ hk)
    refine ⟨fun src d => hleft _, fun src d => hleft _, fun ops => hleft _, fun addrs al => hleft _,
      fun ops => hleft _, fun addrs al => hleft _, hleft _, fun hdemux hwrite hread hclose hapart => ?same⟩
    cases hk : s.taskOf t' with
    | none => exact hafter.trans (congrArg _ hk)
    | some k =>
      simp only [hk, ne_eq, Option.some_inj] at hdemux hwrite hread hclose hapart
      rw [hleft k hk, sessionLeft_eq_self hdemux hwrite hread hclose hapart]
  case joined =>
    have hended := (workersEnded_iff s.S).mpr ⟨hsend, hpoll, hcomm⟩
    rw [advanceThread_of_task P ht, timeoutThread_of_task P ht, taskStep, taskTimeout, if_pos hended, if_pos hended]
    exact ⟨rfl, rfl⟩
  case joining =>
    have hwait : ¬ s.S.workersEnded = true := by
      rw [workersEnded_iff]
      tauto
    rw [advanceThread_of_task P ht, timeoutThread_of_task P ht, taskStep, taskTimeout, if_neg hwait, if_neg hwait]
    exact ⟨rfl, rfl⟩
  case returns => exact ⟨(advanceThread_of_task P ht).trans (endCommand_free ht rfl _), timeoutThread_of_task P ht⟩
  case demuxEnded => exact ⟨(advanceThread_of_task P ht).trans (endCommand_free ht rfl _), timeoutThread_of_task P ht⟩
  case demuxOutside => rw [advanceThread_of_task P ht, taskStep, demuxWaitStep, if_pos hs, endCommand_free ht rfl]

/-! ### ADMIT (R241) -/

section
variable {P : Config.Params} {t : ThreadId} {s : State}

/-- A command that waits in ADMIT, of either kind, holds no phase, has no timeout, and is admitted only in a step that
finds the phase IDLE (R249). -/
theorem advanceThread_admit {ops : List (Nat × Nat)} {addrs : List Nat} {al : Bool}
    (h : s.taskOf t = some (.admitWrite ops) ∨ s.taskOf t = some (.admitRead addrs al)) :
    timeoutThread P t s = s ∧ ∃ k phase waiting running, s.taskOf t = some k ∧ k.holdsPhase = false ∧
      advanceThread P t s = if s.S.rapPhase = .idle then rapBegin t phase waiting running s else s := by
  rcases h with h | h
  · exact ⟨timeoutThread_of_task P h, _, _, _, _, h, rfl, advanceThread_of_task P h⟩
  · exact ⟨timeoutThread_of_task P h, _, _, _, _, h, rfl, advanceThread_of_task P h⟩

/-- The wait that a command stands in once its check of S.fault has passed (assumption logs 7 and 12). -/
def Apart.waiting : Apart → Task
  | .write ops => .admitWrite ops
  | .read addrs al => .admitRead addrs al
  | .demux src timeout => .demuxWait src timeout
  | .admitEnded => .admitEnded
  | .demuxEnded => .demuxEnded

theorem advanceThread_apart_fault {c : Apart} (h : s.taskOf t = some (.apart c)) (hf : s.S.fault = true) :
    advanceThread P t s = (s.dropTask t).respond t ⟨.transportError s.S.faultInfo, .none⟩ := by
  have hstep : apartStep t c s = s.takeException t (.transportError s.S.faultInfo) := by
    simp only [apartStep, if_pos hf]
  rw [advanceThread_of_task P h, taskStep, hstep, takeException_free h rfl]

theorem advanceThread_apart_waits {c : Apart} (h : s.taskOf t = some (.apart c)) (hf : s.S.fault = false) :
    advanceThread P t s = s.setTask t c.waiting := by
  rw [advanceThread_of_task P h, taskStep]
  cases c <;> simp only [apartStep, hf, Bool.false_eq_true, if_false, Apart.waiting]

end

/-- Both commands issued are ADMIT, each with its phase, its wait and its first point after it (R250, R255). -/
theorem exec_rap_eq (ops : List (Nat × Nat)) (addrs : List Nat) (al : Bool) (s : State) :
    exec (.writeRegisters ops) s = .next (rapBegin s.caller .wSend (.admitWrite ops)
      (.write (.counters (writeFrames ops))) s) ∧
    exec (.readRegisters addrs al) s = .next (rapBegin s.caller .rSend (.admitRead addrs al)
      (.read addrs.length al (.counters addrs)) s) := ⟨rfl, rfl⟩

/-- Settles O32: the checks are those of `rapBegin`, at issue and in the step that ends the wait; the lines after them
are one step each. -/
theorem rapAdmission : Obligations.RapAdmission := by
  unfold Obligations.RapAdmission
  intro ops addrs al s
  obtain ⟨hwrite, hread⟩ := exec_rap_eq ops addrs al s
  refine ⟨fun hidle => ?issue, fun P t => ⟨fun ht hf => advanceThread_apart_waits ht hf,
    fun ht hf => advanceThread_apart_waits ht hf, fun c ht hf => advanceThread_apart_fault ht hf, fun ht => ?waiting,
    fun ht hf => advanceThread_apart_waits ht hf, fun ht => ?ended, fun hp hs hf => ⟨fun ht => ?write, fun ht => ?read⟩,
    fun ht => ⟨timeoutThread_of_task P ht, advanceThread_of_task P ht⟩,
    fun ht => ⟨timeoutThread_of_task P ht, advanceThread_of_task P ht⟩,
    fun ht => ⟨timeoutThread_of_task P ht, advanceThread_of_task P ht⟩,
    fun ht => ⟨timeoutThread_of_task P ht, advanceThread_of_task P ht⟩⟩⟩
  case issue =>
    rw [hwrite, hread]
    refine ⟨fun hs => ?_, fun hs hf => ?_, fun hs hf hp => ?_, fun hs hf hp => ?_⟩
    · rw [rapBegin_notOpen hs, rapBegin_notOpen hs, takeException_idle hidle]
      exact ⟨rfl, rfl⟩
    · rw [rapBegin_fault hs hf, rapBegin_fault hs hf, takeException_idle hidle]
      exact ⟨rfl, rfl⟩
    · rw [rapBegin_waits hs hf hp, rapBegin_waits hs hf hp]
      exact ⟨rfl, rfl⟩
    · rw [rapBegin_admitted hs hf hp, rapBegin_admitted hs hf hp]
      exact ⟨rfl, rfl⟩
  case waiting =>
    obtain ⟨htimeout, k, phase, waiting, running, hk, hfree, hadvance⟩ := advanceThread_admit (P := P) ht
    rw [hadvance]
    refine ⟨htimeout, fun hp => if_neg hp, fun hp hs => ?_, fun hp hs hf => ?_⟩
    · rw [if_pos hp, rapBegin_notOpen hs, takeException_free hk hfree]
    · rw [if_pos hp, rapBegin_fault hs hf, takeException_free hk hfree]
  case ended =>
    rw [advanceThread_of_task P ht, taskStep]
    exact ⟨timeoutThread_of_task P ht, fun hp => if_neg hp, fun hp => (if_pos hp).trans (takeException_free ht rfl _)⟩
  case write =>
    rw [advanceThread_of_task P ht, taskStep, if_pos hp, writeBegin, rapBegin_admitted hs hf hp]
    rfl
  case read =>
    rw [advanceThread_of_task P ht, taskStep, if_pos hp, readBegin, rapBegin_admitted hs hf hp]
    rfl

end Sys2Proof.Machine

/-! The sending phase of a register transaction and the drain of a write (R246, R247, R250 to R253, R255). -/

namespace Sys2Proof.Machine

/-! ### The frame SEND_DL builds (R251) -/

section
variable (P : Config.Params) (S : SessionState) (seq : BitVec 4) (rt : Config.ReqKind) {payload : Nat}

/-- The record SEND_DL hands to FRAME_BUILD. -/
def downlinkRecord (payload : Nat) : Record :=
  [(.chipAddress, S.chipAddr.toNat), (.sequenceNumber, seq.toNat), (.requestType, (P.reqCode rt).toNat),
    (.payload, payload)]

/-- Of its fields only the payload can be out of range. -/
theorem firstOutOfRange_downlinkRecord (payload : Nat) :
    firstOutOfRange (downlinkRecord P S seq rt payload) (Config.fieldList .dl) =
      if 2 ^ 15 ≤ payload then some .payload else none := by
  have hchip := S.chipAddr.isLt
  have hseq := seq.isLt
  have hcode := (P.reqCode rt).isLt
  change (if 2 ^ 4 ≤ S.chipAddr.toNat then some FieldName.chipAddress
    else if 2 ^ 4 ≤ seq.toNat then some .sequenceNumber
    else if 2 ^ 2 ≤ (P.reqCode rt).toNat then some .requestType
    else if 2 ^ 15 ≤ payload then some .payload else none) = _
  rw [if_neg (Nat.not_le.mpr hchip), if_neg (Nat.not_le.mpr hseq), if_neg (Nat.not_le.mpr hcode)]

theorem downlinkItem_of_lt (h : payload < 2 ^ 15) : downlinkItem P S seq rt payload =
    .ok ⟨.bytes (frameBytes (downlinkFrame S.chipAddr seq (P.reqCode rt) payload)), P.ctrlDest⟩ := by
  have hrange : firstOutOfRange (downlinkRecord P S seq rt payload) (Config.fieldList .dl) = none := by
    rw [firstOutOfRange_downlinkRecord, if_neg (Nat.not_le.mpr h)]
  have hbuild := frameBuild_of_operands (frameOperands_of_fits (code := 0) rfl rfl rfl hrange)
  exact congrArg _ hbuild

theorem downlinkItem_of_le (h : 2 ^ 15 ≤ payload) : downlinkItem P S seq rt payload =
    constructionError .valueRange (.field .payload) (.nat payload) := by
  have hrange : firstOutOfRange (downlinkRecord P S seq rt payload) (Config.fieldList .dl) = some .payload := by
    rw [firstOutOfRange_downlinkRecord, if_pos h]
  have hoperands := frameOperands_valueRange (code := 0) rfl rfl rfl hrange
  have hbuild : frameBuild 0 (downlinkRecord P S seq rt payload) =
      constructionError .valueRange (.field .payload) (.nat payload) := by
    rw [frameBuild, hoperands]
    rfl
  exact congrArg _ hbuild

end

/-! ### Where a command stands after some steps -/

/-- From `s` the command in thread `t` has come to the point `k` with the session state `S'`; no other command, no
response and no operation of the port has changed. -/
structure State.Reaches (t : ThreadId) (s s' : State) (S' : SessionState) (k : Task) : Prop where
  session : s'.S = S'
  task : s'.taskOf t = some k
  others : ∀ t', t' ≠ t → s'.taskOf t' = s.taskOf t'
  out : s'.out = s.out
  wire : s'.wire = s.wire

theorem State.reaches_setTask (s : State) (t : ThreadId) (S' : SessionState) (k : Task) :
    s.Reaches t ((s.withS S').setTask t k) S' k :=
  ⟨rfl, setTask_taskOf_same .., fun _ h => setTask_taskOf_other _ h _, rfl, rfl⟩

theorem State.reaches_self {s : State} {t : ThreadId} {k : Task} (h : s.taskOf t = some k) : s.Reaches t s s.S k :=
  ⟨rfl, h, fun _ _ => rfl, rfl, rfl⟩

theorem State.Reaches.trans {t : ThreadId} {s s' s'' : State} {S' S'' : SessionState} {k k' : Task}
    (h : s.Reaches t s' S' k) (h' : s'.Reaches t s'' S'' k') : s.Reaches t s'' S'' k' :=
  ⟨h'.session, h'.task, fun t' ht' => (h'.others t' ht').trans (h.others t' ht'), h'.out.trans h.out,
    h'.wire.trans h.wire⟩

/-- From `s` the command in thread `t`, which holds the phase, has ended with the response `r` and the session state
`S'`; no other command and no operation of the port has changed. -/
structure State.Ends (t : ThreadId) (s s' : State) (S' : SessionState) (r : Response) : Prop where
  session : s'.S = S'
  task : s'.taskOf t = none
  others : ∀ t', t' ≠ t → s'.taskOf t' = s.taskOf t'
  out : s'.out = s.out ++ [(t, r)]
  wire : s'.wire = s.wire

/-- A command that holds the phase ends where it stands. -/
theorem State.Reaches.endCommand {t : ThreadId} {s s' : State} {S' : SessionState} {k : Task}
    (h : s.Reaches t s' S' k) (hk : k.holdsPhase = true) (r : Response) :
    s.Ends t (s'.endCommand t r) { S' with rapPhase := .idle } r where
  session := by rw [endCommand_S, phaseAfter_of_task h.task, if_pos hk, h.session]
  task := endCommand_taskOf_same ..
  others t' ht' := (endCommand_taskOf_other _ ht' _).trans (h.others t' ht')
  out := by rw [endCommand_out, h.out]
  wire := h.wire

/-! ### A write's frames (R250, R251) -/

section
variable {P : Config.Params} {t : ThreadId} {s : State} {rt : Config.ReqKind} {payload : Nat}
  {frames : List (Config.ReqKind × Nat)}

/-- A frame takes three steps: the fault check, the number drawn, the build and push. -/
theorem runThread_write_frame (hs : s.taskOf t = some (.write (.send ((rt, payload) :: frames))))
    (hf : s.S.fault = false) (hp : payload < 2 ^ 15) : runThread P t 3 s =
      (s.withS { s.S with
        seq := s.S.seq + 1#4
        sendq := s.S.sendq ++ downlinkItems P s.S.chipAddr s.S.seq [(rt, payload)] }).setTask t
          (.write (.send frames)) := by
  have hsend : advanceThread P t s = s.setTask t (.write (.draw rt payload frames)) := by
    rw [advanceThread_of_task P hs]
    simp [taskStep, writeStep, hf]
  have hdraw : advanceThread P t (s.setTask t (.write (.draw rt payload frames))) =
      (s.withS s.S.seqNext).setTask t (.write (.push s.S.seq rt payload frames)) := by
    rw [advanceThread_setTask]
    simp [taskStep, writeStep, withS_setTask]
  have hpush : ∀ u : State, advanceThread P t (u.setTask t (.write (.push s.S.seq rt payload frames))) =
      (u.withS (u.S.pushSend ⟨.bytes (frameBytes (downlinkFrame u.S.chipAddr s.S.seq (P.reqCode rt) payload)),
        P.ctrlDest⟩)).setTask t (.write (.send frames)) := by
    intro u
    rw [advanceThread_setTask]
    simp [taskStep, writeStep, downlinkItem_of_lt P _ _ _ hp, withS_setTask]
  calc runThread P t 3 s
      = advanceThread P t (advanceThread P t (advanceThread P t s)) := rfl
    _ = _ := by rw [hsend, hdraw, hpush]; rfl

/-- The items of one more frame, and the number the next one starts with. -/
theorem downlinkItems_cons (P : Config.Params) (chip seq : BitVec 4) (f : Config.ReqKind × Nat)
    (fs : List (Config.ReqKind × Nat)) : downlinkItems P chip seq (f :: fs) =
      downlinkItems P chip seq [f] ++ downlinkItems P chip (seq + 1#4) fs := rfl

/-- A number drawn and then `k` more. -/
theorem seq_add_succ {w : Nat} (seq : BitVec w) (k : Nat) :
    seq + 1#w + BitVec.ofNat w k = seq + BitVec.ofNat w (k + 1) := by
  rw [BitVec.ofNat_add, BitVec.add_assoc, BitVec.add_comm 1#w]

/-- The frames of a write, one after the other. -/
theorem runThread_write_frames (hs : s.taskOf t = some (.write (.send frames))) (hf : s.S.fault = false)
    (hp : ∀ f ∈ frames, f.2 < 2 ^ 15) : s.Reaches t (runThread P t (3 * frames.length) s)
      { s.S with
        seq := s.S.seq + BitVec.ofNat 4 frames.length
        sendq := s.S.sendq ++ downlinkItems P s.S.chipAddr s.S.seq frames } (.write (.send [])) := by
  induction frames generalizing s with
  | nil => simpa [runThread, downlinkItems] using State.reaches_self hs
  | cons f frames ih =>
    obtain ⟨hpf, hps⟩ := List.forall_mem_cons.mp hp
    have hcount : 3 * (f :: frames).length = 3 + 3 * frames.length := by rw [List.length_cons]; omega
    have hfirst := State.reaches_setTask s t { s.S with
      seq := s.S.seq + 1#4
      sendq := s.S.sendq ++ downlinkItems P s.S.chipAddr s.S.seq [f] } (.write (.send frames))
    rw [hcount, runThread_add, runThread_write_frame hs hf hpf]
    have hrest := hfirst.trans (ih hfirst.task hf hps)
    simpa [seq_add_succ, downlinkItems_cons P s.S.chipAddr s.S.seq f frames] using hrest

/-- With a fault the next frame is not drawn (R335). -/
theorem advanceThread_write_fault (hs : s.taskOf t = some (.write (.send ((rt, payload) :: frames))))
    (hf : s.S.fault = true) : advanceThread P t s = s.takeException t (.transportError s.S.faultInfo) := by
  rw [advanceThread_of_task P hs]
  simp [taskStep, writeStep, hf]

end

theorem length_writeFrames (ops : List (Nat × Nat)) : (writeFrames ops).length = 2 * ops.length := by
  simp [writeFrames, List.length_flatMap, Nat.mul_comm]

/-- Settles O33: three steps a frame, two frames a pair. -/
theorem writeQueuesEveryFrame : Obligations.WriteQueuesEveryFrame := by
  unfold Obligations.WriteQueuesEveryFrame
  intro P t ops s
  refine ⟨fun hs hf hops => ?_, fun frame frames hs hf => ?_⟩
  · have hfit : ∀ f ∈ writeFrames ops, f.2 < 2 ^ 15 := by
      intro f hmem
      simp only [writeFrames, List.mem_flatMap, List.mem_cons, List.not_mem_nil, or_false] at hmem
      obtain ⟨o, ho, rfl | rfl⟩ := hmem
      · exact (hops o ho).1
      · exact (hops o ho).2
    have hrun := runThread_write_frames (P := P) hs hf hfit
    rw [length_writeFrames, ← Nat.mul_assoc] at hrun
    exact ⟨hrun.session, hrun.task, hrun.others, hrun.out, hrun.wire⟩
  · exact (advanceThread_write_fault hs hf).trans (takeException_holding hs rfl _)

/-! ### A read's requests (R255, R256) -/

/-- The expected number of a request is the low bits of its own (R247). -/
theorem expectedOf_eq_truncate (q : BitVec 4) : expectedOf q = q.truncate 3 := by
  apply BitVec.eq_of_toNat_eq
  simp [expectedOf, Config.rdSeqW]

/-- A counter that saturates on the way ends where one does that saturates at the end. -/
theorem saturate_saturate_add (m n : Nat) : saturate ((saturate m).toNat + n) = saturate (m + n) := by
  simp only [saturate, Config.cntW, BitVec.toNat_ofNat]
  congr 1
  omega

theorem inc_eq_saturate (c : BitVec 16) : inc c = saturate (c.toNat + 1) := by
  rw [← inc_saturate, saturate_toNat]

section
variable {P : Config.Params} {t : ThreadId} {s : State} {n a : Nat} {al : Bool} {addrs : List Nat}

/-- The expected numbers of `k` requests from `seq` on. -/
def expectedFrom (seq : BitVec 4) (k : Nat) : List (BitVec 3) :=
  (List.range k).map (fun i => (seq + BitVec.ofNat 4 i).truncate 3)

theorem expectedFrom_succ (seq : BitVec 4) (k : Nat) :
    expectedFrom seq (k + 1) = expectedOf seq :: expectedFrom (seq + 1#4) k := by
  simp [expectedFrom, List.range_succ_eq_map, seq_add_succ, expectedOf_eq_truncate]

/-- A request takes four steps: the fault check, the number drawn, the build and push, the count. -/
theorem runThread_read_request (hs : s.taskOf t = some (.read n al (.send (a :: addrs)))) (hf : s.S.fault = false)
    (ha : a < 2 ^ 15) : runThread P t 4 s =
      (s.withS { s.S with
        seq := s.S.seq + 1#4
        exp := s.S.exp ++ [expectedOf s.S.seq]
        cReq := inc s.S.cReq
        sendq := s.S.sendq ++ downlinkItems P s.S.chipAddr s.S.seq [(.rdData, a)] }).setTask t
          (.read n al (.send addrs)) := by
  have hsend : advanceThread P t s = s.setTask t (.read n al (.draw a addrs)) := by
    rw [advanceThread_of_task P hs]
    simp [taskStep, readStep, hf]
  have hdraw : advanceThread P t (s.setTask t (.read n al (.draw a addrs))) =
      (s.withS s.S.seqNext).setTask t (.read n al (.push s.S.seq a addrs)) := by
    rw [advanceThread_setTask]
    simp [taskStep, readStep, withS_setTask]
  have hpush : ∀ u : State, advanceThread P t (u.setTask t (.read n al (.push s.S.seq a addrs))) =
      (u.withS { u.S.pushSend ⟨.bytes (frameBytes (downlinkFrame u.S.chipAddr s.S.seq (P.reqCode .rdData) a)),
        P.ctrlDest⟩ with exp := u.S.exp ++ [expectedOf s.S.seq] }).setTask t (.read n al (.count addrs)) := by
    intro u
    rw [advanceThread_setTask]
    simp [taskStep, readStep, downlinkItem_of_lt P _ _ _ ha, withS_setTask]
  have hcount : ∀ u : State, advanceThread P t (u.setTask t (.read n al (.count addrs))) =
      (u.withS { u.S with cReq := inc u.S.cReq }).setTask t (.read n al (.send addrs)) := by
    intro u
    rw [advanceThread_setTask]
    simp [taskStep, readStep, withS_setTask]
  calc runThread P t 4 s
      = advanceThread P t (advanceThread P t (advanceThread P t (advanceThread P t s))) := rfl
    _ = _ := by rw [hsend, hdraw, hpush, hcount]; rfl

/-- The requests of a read, one after the other. -/
theorem runThread_read_requests (hs : s.taskOf t = some (.read n al (.send addrs))) (hf : s.S.fault = false)
    (ha : ∀ a ∈ addrs, a < 2 ^ 15) : s.Reaches t (runThread P t (4 * addrs.length) s)
      { s.S with
        seq := s.S.seq + BitVec.ofNat 4 addrs.length
        exp := s.S.exp ++ expectedFrom s.S.seq addrs.length
        cReq := saturate (s.S.cReq.toNat + addrs.length)
        sendq := s.S.sendq ++ downlinkItems P s.S.chipAddr s.S.seq (addrs.map (fun a => (.rdData, a))) }
      (.read n al (.send [])) := by
  induction addrs generalizing s with
  | nil => simpa [runThread, downlinkItems, expectedFrom, saturate_toNat] using State.reaches_self hs
  | cons a addrs ih =>
    obtain ⟨hfit, hfits⟩ := List.forall_mem_cons.mp ha
    have hcount : 4 * (a :: addrs).length = 4 + 4 * addrs.length := by rw [List.length_cons]; omega
    have hfirst := State.reaches_setTask s t { s.S with
      seq := s.S.seq + 1#4
      exp := s.S.exp ++ [expectedOf s.S.seq]
      cReq := inc s.S.cReq
      sendq := s.S.sendq ++ downlinkItems P s.S.chipAddr s.S.seq [(.rdData, a)] } (.read n al (.send addrs))
    rw [hcount, runThread_add, runThread_read_request hs hf hfit]
    have hrun := hfirst.trans (ih hfirst.task hf hfits)
    simpa [seq_add_succ, expectedFrom_succ, inc_eq_saturate, saturate_saturate_add, Nat.add_assoc, Nat.add_comm 1,
      downlinkItems_cons P s.S.chipAddr s.S.seq (.rdData, a) (addrs.map (fun a => (.rdData, a)))] using hrun

/-- With a fault the next request is not drawn (R335). -/
theorem advanceThread_read_fault (hs : s.taskOf t = some (.read n al (.send (a :: addrs)))) (hf : s.S.fault = true) :
    advanceThread P t s = s.takeException t (.transportError s.S.faultInfo) := by
  rw [advanceThread_of_task P hs]
  simp [taskStep, readStep, hf]

end

/-- Settles O34: four steps a request. -/
theorem readQueuesEveryRequest : Obligations.ReadQueuesEveryRequest := by
  unfold Obligations.ReadQueuesEveryRequest
  intro P t n al addrs s
  refine ⟨fun hs hf ha => ?_, fun a rest hs hf => ?_⟩
  · have hrun := runThread_read_requests (P := P) hs hf ha
    exact ⟨hrun.session, hrun.task, hrun.others, hrun.out, hrun.wire⟩
  · exact (advanceThread_read_fault hs hf).trans (takeException_holding hs rfl _)

/-! ### A payload that does not fit (R251, R342) -/

/-- Settles O35: the build raises, and the end of the command is that of every command holding the phase. -/
theorem outOfRangePayloadEndsCommand : Obligations.OutOfRangePayloadEndsCommand := by
  unfold Obligations.OutOfRangePayloadEndsCommand
  intro P t q payload s hp
  have ends : ∀ k : Task, s.taskOf t = some k → k.holdsPhase = true → advanceThread P t s =
      s.takeException t (.constructionError ⟨.valueRange, .field .payload, .nat payload⟩) →
      (advanceThread P t s).S = { s.S with rapPhase := .idle } ∧ (advanceThread P t s).taskOf t = none ∧
      (advanceThread P t s).out = s.out ++
        [(t, ⟨.constructionError ⟨.valueRange, .field .payload, .nat payload⟩, .none⟩)] ∧
      (advanceThread P t s).wire = s.wire := by
    intro k hs hk hstep
    have hend := (State.reaches_self hs).endCommand hk
      ⟨.constructionError ⟨.valueRange, .field .payload, .nat payload⟩, .none⟩
    rw [hstep]
    exact ⟨hend.session, hend.task, hend.out, hend.wire⟩
  refine ⟨fun rt frames hs => ends _ hs rfl ?_, fun n al addrs hs => ends _ hs rfl ?_⟩
  · rw [advanceThread_of_task P hs]
    simp [taskStep, writeStep, downlinkItem_of_le P _ _ _ hp, constructionError]
  · rw [advanceThread_of_task P hs]
    simp [taskStep, readStep, downlinkItem_of_le P _ _ _ hp, constructionError]

/-! ### The drain of a write whose control channel is quiet (R250, R252, R253) -/

section
variable {P : Config.Params} {t : ThreadId} {s : State}

/-- With nothing pending and no fault the drain comes to its wait. -/
theorem runThread_write_to_wait (hs : s.taskOf t = some (.write (.send []))) (hf : s.S.fault = false)
    (hpend : s.S.pendAck = []) : runThread P t 3 s =
      (s.withS { s.S with rapPhase := .wAck }).setTask t (.write (.drain .wait)) := by
  have hphase : advanceThread P t s =
      (s.withS { s.S with rapPhase := .wAck }).setTask t (.write (.drain .start)) := advanceThread_of_task P hs
  have hstart : ∀ u : State, u.S.pendAck = [] → advanceThread P t (u.setTask t (.write (.drain .start))) =
      u.setTask t (.write (.drain .check)) := by
    intro u hu
    rw [advanceThread_setTask]
    simp [taskStep, writeStep, readFrameStep, SessionState.pend, hu, writeDrain, withS_setTask]
  have hcheck : ∀ u : State, u.S.fault = false → advanceThread P t (u.setTask t (.write (.drain .check))) =
      u.setTask t (.write (.drain .wait)) := by
    intro u hu
    rw [advanceThread_setTask]
    simp [taskStep, writeStep, readFrameStep, hu, writeDrain, withS_setTask]
  calc runThread P t 3 s
      = advanceThread P t (advanceThread P t (advanceThread P t s)) := rfl
    _ = _ := by rw [hphase, hstart _ (by exact hpend), hcheck _ (by exact hf)]

/-- With the control channel empty the wait goes on. -/
theorem advanceThread_write_wait (hrx : s.S.rx P.ctrlSrc = []) (hd : 0 < P.tAck) :
    advanceThread P t (s.setTask t (.write (.drain .wait))) = s.setTask t (.write (.drain .wait)) := by
  rw [advanceThread_setTask]
  simp [taskStep, writeStep, readFrameStep, SessionState.waitPop, hrx, Nat.ne_of_gt hd, writeDrain, withS_setTask]

/-- The timeout then ends it. -/
theorem timeoutThread_write_wait (hrx : s.S.rx P.ctrlSrc = []) :
    timeoutThread P t (s.setTask t (.write (.drain .wait))) = s.setTask t (.write .ret) := by
  rw [timeoutThread_of_task P (setTask_taskOf_same ..)]
  simp [taskTimeout, readFrameTimeout, hrx, writeDrain, withS_setTask]

end

/-- Settles O36: three steps to the wait, the timeout, and the return. -/
theorem quietWriteReturnsOk : Obligations.QuietWriteReturnsOk := by
  unfold Obligations.QuietWriteReturnsOk
  intro P t s hlegal hs hf hpend hrx
  obtain ⟨-, -, -, -, -, hd, -, -⟩ := hlegal
  have hrx' : (s.withS { s.S with rapPhase := .wAck }).S.rx P.ctrlSrc = [] := hrx
  have hend := (State.reaches_setTask s t { s.S with rapPhase := .wAck } (.write .ret)).endCommand rfl ⟨.ok, .none⟩
  have hret : runThread P t 1 ((s.withS { s.S with rapPhase := .wAck }).setTask t (.write .ret)) =
      ((s.withS { s.S with rapPhase := .wAck }).setTask t (.write .ret)).endCommand t ⟨.ok, .none⟩ :=
    advanceThread_setTask ..
  simp only [runThread_write_to_wait (P := P) hs hf hpend, timeoutThread_write_wait hrx', hret]
  exact ⟨advanceThread_write_wait hrx' hd, hend.session, hend.task, hend.out⟩

end Sys2Proof.Machine

/-! READ_FRAME (R252), the read after its last request (R257 to R261), and step 5 with alignment. -/

namespace Sys2Proof.Machine

/-! ### Which frame the bytes of an uplink word are (R211, R252) -/

theorem uplinkResolve_hit24 (r : BitVec 23) :
    uplinkResolve (bytesOfUp (encodeHit24 r)) = .ok (.hit, some (⟨.hit, [r.toNat], none⟩, none)) := by
  rw [bytesOfUp_of_bits (frameBits_hit24 r)]
  exact uplinkResolve_frameBytes (t := .hit) (before := []) (hitFrame_wellFormed r) rfl rfl (by decide)

theorem uplinkResolve_rd24 (d : BitVec 15) (q c : BitVec 3) : uplinkResolve (bytesOfUp (encodeRd24 d q c)) =
    .ok (.rd, some (⟨.rd, [d.toNat, q.toNat], some c.toNat⟩,
      some (decide (c.toNat = crcFrom Config.polyRd 7 (bodyBits .rd [d.toNat, q.toNat]))))) := by
  have hf := rdFrame_wellFormed d q c
  rw [bytesOfUp_of_bits (frameBits_rd24 d q c),
    uplinkResolve_frameBytes (t := .rd) (before := [.hit, .ack]) hf rfl rfl (by decide), crcOkFlag_eq_decide hf rfl rfl]
  rfl

/-- The field values of an UplinkAck word (R102). -/
def ackFields (k : BitVec 2) (q : BitVec 4) (cp ta sa se oe : BitVec 1) (t : BitVec 6) : List Nat :=
  [k.toNat, q.toNat, cp.toNat, ta.toNat, sa.toNat, se.toNat, oe.toNat, t.toNat]

theorem uplinkResolve_ack24 (k : BitVec 2) (q : BitVec 4) (cp ta sa se oe : BitVec 1) (t : BitVec 6) (c : BitVec 4) :
    uplinkResolve (bytesOfUp (encodeAck24 k q cp ta sa se oe t c)) =
      .ok (.ack, some (⟨.ack, ackFields k q cp ta sa se oe t, some c.toNat⟩,
        some (decide (c.toNat = crcFrom Config.polyAck 15 (bodyBits .ack (ackFields k q cp ta sa se oe t)))))) := by
  have hf := ackFrame_wellFormed k q cp ta sa se oe t c
  rw [bytesOfUp_of_bits (frameBits_ack24 k q cp ta sa se oe t c),
    uplinkResolve_frameBytes (t := .ack) (before := [.hit]) hf rfl rfl (by decide), crcOkFlag_eq_decide hf rfl rfl]
  rfl

/-- The `ack` field of an UplinkAck is its first. -/
theorem frameField_ack (k : BitVec 2) (q : BitVec 4) (cp ta sa se oe : BitVec 1) (t : BitVec 6) (c : Option Nat) :
    frameField ⟨.ack, ackFields k q cp ta sa se oe t, c⟩ .ack = k.toNat := rfl

/-! ### A value the control channel delivers (R252) -/

section
variable {P : Config.Params} {kind : CtrlKind} {S : SessionState}

/-- What READ_FRAME does with a value that is no frame: it counts it. -/
def unknownCounted (S : SessionState) : FrameOut × SessionState :=
  (.more .check, { S with cUnknown := inc S.cUnknown })

theorem acceptValue_wrongLength {b : List Byte} (h : b.length ≠ 3) :
    acceptValue P kind (.bytes b) S = unknownCounted S := by
  have hresolve : uplinkResolve b = constructionError .widthMismatch .bytes (.bytes b) := if_pos h
  simp [acceptValue, hresolve, constructionError, unknownCounted]

theorem acceptValue_noFrame {w : BitVec 24} (h : w.extractLsb' 22 2 = 0b11#2) :
    acceptValue P kind (.bytes (bytesOfUp w)) S = unknownCounted S := by
  simp [acceptValue, uplinkResolve_bytesOfUp (leading_three_of_leading_11 h), unknownCounted]

theorem acceptValue_hit24 (r : BitVec 23) : acceptValue P kind (.bytes (bytesOfUp (encodeHit24 r))) S =
    (.more .check, { S with cHit := inc S.cHit }) := by
  simp [acceptValue, uplinkResolve_hit24]

theorem acceptValue_rd24 (d : BitVec 15) (q c : BitVec 3) :
    acceptValue P kind (.bytes (bytesOfUp (encodeRd24 d q c))) S =
      takeFrame P kind .rd ⟨⟨.rd, [d.toNat, q.toNat], some c.toNat⟩,
        decide (c.toNat = crcFrom Config.polyRd 7 (bodyBits .rd [d.toNat, q.toNat]))⟩ S := by
  simp [acceptValue, uplinkResolve_rd24]

theorem acceptValue_ack24 (k : BitVec 2) (q : BitVec 4) (cp ta sa se oe : BitVec 1) (t : BitVec 6) (c : BitVec 4) :
    acceptValue P kind (.bytes (bytesOfUp (encodeAck24 k q cp ta sa se oe t c))) S =
      takeFrame P kind .ack ⟨⟨.ack, ackFields k q cp ta sa se oe t, some c.toNat⟩,
        decide (c.toNat = crcFrom Config.polyAck 15 (bodyBits .ack (ackFields k q cp ta sa se oe t)))⟩ S := by
  simp [acceptValue, uplinkResolve_ack24]

/-- A ReadData frame is counted where its CRC is bad, and then returned where it is wanted and set aside where not. -/
theorem takeFrame_rd (f : Frame) (ok : Bool) : takeFrame P kind .rd ⟨f, ok⟩ S =
    (let S' := if ok then S else { S with cCrcBad := inc S.cCrcBad }
     if kind = .rd then (.frame ⟨f, ok⟩, S') else (.more .check, { S' with pendRd := S'.pendRd ++ [⟨f, ok⟩] })) := by
  cases ok <;> cases kind <;> rfl

/-- An Ack frame is counted by its CRC and its `ack` field, and then returned or set aside likewise. -/
theorem takeFrame_ack (f : Frame) (ok : Bool) : takeFrame P kind .ack ⟨f, ok⟩ S =
    (let S' := if ok then
         (if frameField f .ack = P.ackNack.toNat then { S with cAck := inc S.cAck, cNack := inc S.cNack }
          else { S with cAck := inc S.cAck })
       else { S with cCrcBad := inc S.cCrcBad }
     if kind = .ack then (.frame ⟨f, ok⟩, S') else (.more .check, { S' with pendAck := S'.pendAck ++ [⟨f, ok⟩] })) := by
  cases ok <;> cases kind <;> rfl

/-! ### The look into the pending buffer, the fault check and the wait (R252) -/

theorem readFrameStep_pending {d : Duration} {f : RxFrame} {q : List RxFrame} (h : S.pend kind = f :: q) :
    readFrameStep P kind d .start S = (.frame f, S.setPend kind q) := by
  simp only [readFrameStep, h]

theorem readFrameStep_no_pending {d : Duration} (h : S.pend kind = []) :
    readFrameStep P kind d .start S = (.more .check, S) := by
  simp only [readFrameStep, h]

theorem readFrameStep_fault {d : Duration} (h : S.fault = true) :
    readFrameStep P kind d .check S = (.raised (.transportError S.faultInfo), S) := if_pos h

theorem readFrameStep_delivered {d : Duration} {x : Value} {q : List Value} (h : S.rx P.ctrlSrc = x :: q) :
    readFrameStep P kind d .wait S = (.more (.got x), S.setRx P.ctrlSrc q) := by
  simp only [readFrameStep, SessionState.waitPop, h]

theorem readFrameStep_empty {d : Duration} (h : S.rx P.ctrlSrc = []) :
    readFrameStep P kind d .wait S = (if d = 0 then .nodata else .more .wait, S) := by
  simp only [readFrameStep, SessionState.waitPop, h]
  by_cases hd : d = 0
  · simp only [hd, if_true]
  · simp only [hd, if_false]

theorem readFrameTimeout_empty (h : S.rx P.ctrlSrc = []) : readFrameTimeout P .wait S = (.nodata, S) := by
  simp only [readFrameTimeout, h, List.isEmpty_nil, if_true]

theorem readFrameTimeout_delivered {x : Value} {q : List Value} (h : S.rx P.ctrlSrc = x :: q) :
    readFrameTimeout P .wait S = (.more .wait, S) := by
  simp only [readFrameTimeout, h, List.isEmpty_cons, Bool.false_eq_true, if_false]

end

/-! ### The callers of READ_FRAME after one step of it (R253, R257, R260) -/

section
variable {P : Config.Params} {t : ThreadId} {n : Nat} {al : Bool} {s : State} {pc : FramePc} {left : Nat}

theorem advanceThread_write_drain (hs : s.taskOf t = some (.write (.drain pc))) :
    advanceThread P t s = writeDrain t (readFrameStep P .ack P.tAck pc s.S) s := advanceThread_of_task P hs

theorem advanceThread_collect (hs : s.taskOf t = some (.read n al (.collect left pc))) :
    advanceThread P t s = readCollect t n al left (readFrameStep P .rd P.tResp pc s.S) s := advanceThread_of_task P hs

theorem advanceThread_drainRd (hs : s.taskOf t = some (.read n al (.drainRd pc))) :
    advanceThread P t s = readDrainRd t n al (readFrameStep P .rd P.tDrain pc s.S) s := advanceThread_of_task P hs

theorem advanceThread_drainAck (hs : s.taskOf t = some (.read n al (.drainAck pc))) :
    advanceThread P t s = readDrainAck t n al (readFrameStep P .ack P.tAck pc s.S) s := advanceThread_of_task P hs

/-- Every command that reads frames ends at its fault check where there is a fault (R335). -/
theorem advanceThread_check_fault (hf : s.S.fault = true)
    (hs : s.taskOf t = some (.write (.drain .check)) ∨ ∃ n al pc, s.taskOf t = some (.read n al pc) ∧
      ((∃ left, pc = .collect left .check) ∨ pc = .drainRd .check ∨ pc = .drainAck .check)) :
    ∃ k, s.taskOf t = some k ∧ k.holdsPhase = true ∧
      advanceThread P t s = s.takeException t (.transportError s.S.faultInfo) := by
  rcases hs with hs | ⟨n, al, _, hs, ⟨left, rfl⟩ | rfl | rfl⟩
  · exact ⟨_, hs, rfl, by rw [advanceThread_write_drain hs, readFrameStep_fault hf]; rfl⟩
  · exact ⟨_, hs, rfl, by rw [advanceThread_collect hs, readFrameStep_fault hf]; rfl⟩
  · exact ⟨_, hs, rfl, by rw [advanceThread_drainRd hs, readFrameStep_fault hf]; rfl⟩
  · exact ⟨_, hs, rfl, by rw [advanceThread_drainAck hs, readFrameStep_fault hf]; rfl⟩

end

/-- Settles O37: the steps of READ_FRAME point by point, its callers at a fault, and the value delivered by its kind. -/
theorem readFrameClassifiesAndCounts : Obligations.ReadFrameClassifiesAndCounts := by
  unfold Obligations.ReadFrameClassifiesAndCounts
  refine ⟨fun P d S => ?steps, fun P t s hf hs => ?fault, fun P t pc o S' s hs hstep => ?drain, fun P kind S => ?values⟩
  case steps =>
    exact ⟨fun f q h => readFrameStep_pending (kind := .ack) h, fun f q h => readFrameStep_pending (kind := .rd) h,
      fun h => readFrameStep_no_pending (kind := .ack) h, fun h => readFrameStep_no_pending (kind := .rd) h,
      fun kind => rfl, fun kind x q h => ⟨readFrameStep_delivered h, readFrameTimeout_delivered h⟩,
      fun kind h => ⟨readFrameStep_empty h, readFrameTimeout_empty h⟩, fun kind x => rfl⟩
  case fault =>
    obtain ⟨k, hk, hholds, hstep⟩ := advanceThread_check_fault (P := P) hf hs
    rw [hstep, takeException_holding hk hholds]
  case drain =>
    rw [advanceThread_write_drain hs, hstep]
    exact ⟨by rintro pc' rfl; rfl, by rintro f rfl; rfl, by rintro rfl; rfl⟩
  case values =>
    refine ⟨fun m => rfl, fun b hb => acceptValue_wrongLength hb, fun w hw => acceptValue_noFrame hw, acceptValue_hit24,
      fun d q c => ⟨_, decide_eq_true_iff, ?_⟩, fun k q cp ta sa se oe t c => ⟨_, decide_eq_true_iff, ?_⟩⟩
    · rw [acceptValue_rd24, takeFrame_rd]
    · rw [acceptValue_ack24, takeFrame_ack]
      simp only [frameField_ack, BitVec.toNat_inj]
      rfl

/-! ### The fast path (R258, R259) -/

section
variable {P : Config.Params} {t : ThreadId} {n : Nat} {al : Bool} {s : State}

theorem readGuard_of_holds {otherwise : ReadPc}
    (h : s.S.exp.length = s.S.ret.length ∧ ∀ i : Nat, s.S.exp[i]? = (s.S.ret[i]?).map Prod.fst) :
    readGuard t n al otherwise s = s.setTask t (.read n al .fast) := by
  rw [readGuard, if_pos ((guardHolds_iff ..).mpr h)]

theorem readGuard_of_not_holds {otherwise : ReadPc}
    (h : ¬ (s.S.exp.length = s.S.ret.length ∧ ∀ i : Nat, s.S.exp[i]? = (s.S.ret[i]?).map Prod.fst)) :
    readGuard t n al otherwise s = s.setTask t (.read n al otherwise) := by
  rw [readGuard, if_neg (fun hg => h ((guardHolds_iff ..).mp hg))]

/-- FAST and the return of the data. -/
theorem runThread_fast : s.Ends t (runThread P t 2 (s.setTask t (.read n al .fast)))
    { s.S with rapPhase := .idle, res := s.S.ret.map (fun r => some r.2), cMatched := saturate n }
    ⟨.ok, .reads (s.S.ret.map (fun r => some r.2))⟩ := by
  have hfast : advanceThread P t (s.setTask t (.read n al .fast)) =
      (s.withS (s.S.fastPath n)).setTask t (.read n al .ret) := by
    rw [advanceThread_setTask]
    simp [taskStep, readStep, withS_setTask]
  have hret : runThread P t 2 (s.setTask t (.read n al .fast)) =
      ((s.withS (s.S.fastPath n)).setTask t (.read n al .ret)).endCommand t
        ⟨.ok, .reads (s.S.ret.map (fun r => some r.2))⟩ := by
    rw [runThread_succ, hfast]
    exact advanceThread_setTask ..
  rw [hret]
  exact (State.reaches_setTask s t (s.S.fastPath n) (.read n al .ret)).endCommand rfl _

/-- A read at either guard takes the fast path where it holds. -/
theorem advanceThread_guard_holds
    (hs : s.taskOf t = some (.read n al .guardFirst) ∨ s.taskOf t = some (.read n al .guardAgain))
    (h : s.S.exp.length = s.S.ret.length ∧ ∀ i : Nat, s.S.exp[i]? = (s.S.ret[i]?).map Prod.fst) :
    advanceThread P t s = s.setTask t (.read n al .fast) := by
  rcases hs with hs | hs
  · exact (advanceThread_of_task P hs).trans (readGuard_of_holds h)
  · exact (advanceThread_of_task P hs).trans (readGuard_of_holds h)

/-- Step 5 without alignment (R261, R336). -/
theorem advanceThread_stepFive_failure :
    s.Ends t (advanceThread P t (s.setTask t (.read n false .stepFive))) { s.S with rapPhase := .idle }
      ⟨.readFailure s.S.exp s.S.ret, .none⟩ := by
  rw [advanceThread_setTask]
  exact (State.reaches_setTask s t s.S (.read n false .stepFive)).endCommand rfl _

end

/-- Settles O39, point by point. -/
theorem guardAndReadFailure : Obligations.GuardAndReadFailure := by
  unfold Obligations.GuardAndReadFailure
  intro P t n al s holds goesTo next kept
  have hkept : ∀ S' q d c ok, kept S' ok q d = S'.keep ⟨⟨.rd, [d.toNat, q.toNat], c⟩, ok⟩ :=
    fun S' q d c ok => (keep_rd S' d q c ok).symm
  refine ⟨fun hs => advanceThread_of_task P hs, fun left pc o S' hs hstep => ?collect,
    fun left hs hrx => ?collectTimeout, fun hs => ⟨advanceThread_guard_holds (.inl hs), fun h => ?guardFirst⟩,
    fun hs => advanceThread_of_task P hs,
    fun pc o S' hs hstep => ?drainRd, fun hs hrx => ?drainRdTimeout, fun hs => advanceThread_of_task P hs,
    fun pc o S' hs hstep => ?drainAck, fun hs hrx => ?drainAckTimeout,
    fun hs => ⟨advanceThread_guard_holds (.inr hs), fun h => ?guardAgain⟩, fun hs h hn => ?fast,
    fun hs h hal => ?failure⟩
  case collect =>
    rw [advanceThread_collect hs, hstep]
    exact ⟨by rintro pc' rfl; rfl, by rintro d q c ok rfl; rw [hkept _ _ _ c]; rfl, by rintro rfl; rfl⟩
  case collectTimeout => rw [timeoutThread_of_task P hs, taskTimeout, readFrameTimeout_empty hrx]; rfl
  case guardFirst => exact (advanceThread_of_task P hs).trans (readGuard_of_not_holds h)
  case drainRd =>
    rw [advanceThread_drainRd hs, hstep]
    exact ⟨by rintro pc' rfl; rfl, by rintro d q c ok rfl; rw [hkept _ _ _ c]; rfl, by rintro rfl; rfl⟩
  case drainRdTimeout => rw [timeoutThread_of_task P hs, taskTimeout, readFrameTimeout_empty hrx]; rfl
  case drainAck =>
    rw [advanceThread_drainAck hs, hstep]
    exact ⟨by rintro pc' rfl; rfl, by rintro f rfl; rfl, by rintro rfl; rfl⟩
  case drainAckTimeout => rw [timeoutThread_of_task P hs, taskTimeout, readFrameTimeout_empty hrx]; rfl
  case guardAgain => exact (advanceThread_of_task P hs).trans (readGuard_of_not_holds h)
  case fast =>
    rw [runThread_succ, advanceThread_guard_holds hs h]
    have hend := runThread_fast (P := P) (t := t) (n := n) (al := al) (s := s)
    exact ⟨hend.session, hend.task, hend.others, hend.out, hend.wire⟩
  case failure =>
    subst hal
    have hguard : advanceThread P t s = s.setTask t (.read n false .stepFive) :=
      (advanceThread_of_task P hs).trans (readGuard_of_not_holds h)
    rw [runThread_succ, hguard]
    have hend := advanceThread_stepFive_failure (P := P) (t := t) (n := n) (s := s)
    exact ⟨hend.session, hend.task, hend.others, hend.out, hend.wire⟩

/-! ### Step 5 with alignment (R261) -/

section
variable {P : Config.Params} {t : ThreadId} {n : Nat}

/-- What ALIGN's mapping makes of the responses: the data of the one a position is paired with, or MISSING. -/
def alignedData (ret : List (BitVec 3 × BitVec 15)) (m : List (Option Nat)) : List (Option (BitVec 15)) :=
  m.map (fun j => j.bind (fun j => (ret[j]?).map (·.2)))

/-- The loop of step 5 over a mapping, in one. -/
theorem foldl_fillOne (m : List (Option Nat)) (S : SessionState) : m.foldl SessionState.fillOne S =
    { S with res := S.res ++ alignedData S.ret m, cMatched := saturate (S.cMatched.toNat + pairCount m) } := by
  induction m generalizing S with
  | nil => simp [alignedData, pairCount, saturate_toNat]
  | cons e m ih =>
    rw [List.foldl_cons, ih]
    cases e with
    | none => simp [SessionState.fillOne, alignedData, pairCount]
    | some j =>
      simp [SessionState.fillOne, alignedData, pairCount, inc_eq_saturate, saturate_saturate_add, Nat.add_assoc,
        Nat.add_comm 1]

/-- The loop takes one step a position. -/
theorem runThread_fill (m : List (Option Nat)) (s : State) :
    runThread P t m.length (s.setTask t (.read n true (.fill m))) =
      (s.withS (m.foldl SessionState.fillOne s.S)).setTask t (.read n true (.fill [])) := by
  induction m generalizing s with
  | nil => rfl
  | cons e m ih =>
    have hstep : advanceThread P t (s.setTask t (.read n true (.fill (e :: m)))) =
        (s.withS (s.S.fillOne e)).setTask t (.read n true (.fill m)) := by
      rw [advanceThread_setTask]
      simp [taskStep, readStep, withS_setTask]
    rw [List.length_cons, runThread_succ, hstep, ih]
    rfl

/-- ALIGN's mapping for the numbers a read expects and those it has (R261). -/
def SessionState.mapping (S : SessionState) : List (Option Nat) :=
  align (S.exp.map (·.toNat)) (S.ret.map (·.1.toNat))

theorem length_mapping (S : SessionState) : S.mapping.length = S.exp.length := by
  simp [SessionState.mapping]

/-- Step 5 takes one step to its phase, one for ALIGN, one a position, and the return. -/
theorem runThread_stepFive {s : State} (hs : s.taskOf t = some (.read n true .stepFive)) :
    s.Ends t (runThread P t (s.S.exp.length + 3) s)
      { s.S with
        rapPhase := .idle
        res := s.S.res ++ alignedData s.S.ret s.S.mapping
        cMatched := saturate (s.S.cMatched.toNat + pairCount s.S.mapping) }
      ⟨.ok, .reads (s.S.res ++ alignedData s.S.ret s.S.mapping)⟩ := by
  have hphase : advanceThread P t s = (s.withS { s.S with rapPhase := .rAlign }).setTask t (.read n true .align) :=
    advanceThread_of_task P hs
  have halign : ∀ u : State, advanceThread P t (u.setTask t (.read n true .align)) =
      u.setTask t (.read n true (.fill u.S.mapping)) := by
    intro u
    rw [advanceThread_setTask]
    simp [taskStep, readStep, SessionState.mapping]
  have hcount : s.S.exp.length + 3 = s.S.mapping.length + 1 + 1 + 1 := by rw [length_mapping]
  have hfilled : runThread P t (s.S.exp.length + 3) s =
      advanceThread P t ((s.withS (s.S.mapping.foldl SessionState.fillOne { s.S with rapPhase := .rAlign })).setTask t
        (.read n true (.fill []))) := by
    rw [hcount, runThread_succ, runThread_succ, hphase, halign, runThread_add]
    exact congrArg (advanceThread P t) (runThread_fill ..)
  rw [hfilled, foldl_fillOne, advanceThread_setTask]
  exact (State.reaches_setTask s t _ (.read n true (.fill []))).endCommand rfl _

end

/-- Settles O40: the loop fills the empty result, and counts from 0. -/
theorem alignmentFillsResult : Obligations.AlignmentFillsResult := by
  unfold Obligations.AlignmentFillsResult
  intro P t n s hs hres hmatched m r
  have hend := runThread_stepFive (P := P) hs
  rw [hres, hmatched, List.nil_append] at hend
  refine ⟨length_mapping s.S, hend.out, hend.task, ?_, by rw [hend.session], hend.wire⟩
  rw [hend.session, ← List.countP_eq_length_filter]
  simp [pairCount, m, SessionState.mapping]

end Sys2Proof.Machine

/-! The proofs of the family `44_arbiter`: the order of the items on their way to the transport, the use of the port,
and the steps of the demultiplexer commands and of the three workers. -/

namespace Sys2Proof.Machine

/-! ### The items on their way to TP_Write (R83, R317) -/

/-- The items pushed and not yet handed to TP_Write, in the order of their pushes: in S.wrq, staged, in S.sendq. -/
def SessionState.unsent (S : SessionState) : List Item := S.wrq ++ S.stage.toList ++ S.sendq

theorem pipeline_eq (s : State) : s.pipeline = handedOver s.wire ++ s.S.unsent := by
  simp only [State.pipeline, SessionState.unsent, List.append_assoc]

theorem handedOver_wrote (wire : List TpEvent) (item : Item) (a : WriteAnswer) :
    handedOver (wire ++ [.wrote item a]) = handedOver wire ++ [item] := by
  simp [handedOver]

theorem handedOver_read (wire : List TpEvent) (a : ReadAnswer) :
    handedOver (wire ++ [.read a]) = handedOver wire := by
  simp [handedOver]

/-- SENDW takes an item from one place to the next and changes no order (R305, R306). -/
theorem sendwStep_unsent (S : SessionState) : (sendwStep S).unsent = S.unsent := by
  rcases sendwStep_cases S with e | ⟨-, item, hs, e⟩ | ⟨-, hs, item, q, hq, e⟩ | ⟨-, -, -, -, e⟩ <;> rw [e]
  · simp [SessionState.unsent, hs]
  · simp [SessionState.unsent, hs, hq]
  · rfl

/-- COMM's TP_Write, whatever its answer, takes the oldest item not yet sent (R309, R310). -/
theorem handedOver_write {S S' : SessionState} {item : Item} (wire : List TpEvent) (a : WriteAnswer)
    (h : S.unsent = item :: S'.unsent) :
    handedOver (wire ++ [.wrote item a]) ++ S'.unsent = handedOver wire ++ S.unsent := by
  rw [handedOver_wrote, h, List.append_assoc, List.singleton_append]

section
variable {P : Config.Params} {s : State} {i : Input} {S' : SessionState} {wire : List TpEvent}

/-- How one move takes the items on their way on. -/
theorem Move.fifo (hm : Move P s i S' wire) :
    handedOver wire ++ S'.unsent = handedOver s.wire ++ s.S.unsent ∨
    (∃ item, S'.unsent = s.S.unsent ++ [item] ∧ S'.sendq = s.S.sendq ++ [item] ∧ wire = s.wire) ∨
    (wire = s.wire ∧ (S' = SessionState.reset ∨ ∃ a, S' = SessionState.atOpen a)) := by
  cases hm with
  | push item exp => exact .inr (.inl ⟨item, (List.append_assoc ..).symm, rfl, rfl⟩)
  | reset => exact .inr (.inr ⟨rfl, .inl rfl⟩)
  | opening => exact .inr (.inr ⟨rfl, .inr ⟨_, rfl⟩⟩)
  | sendw => exact .inl (by rw [sendwStep_unsent])
  | pollw =>
    obtain ⟨n, w, -, e⟩ := pollwStep_touches s.S
    exact .inl (by rw [e]; rfl)
  | write item rest hi hw hq | writeFault item rest info hi hw hq =>
    exact .inl (handedOver_write _ _ (by simp only [SessionState.unsent, hq, List.cons_append]))
  | readNothing | readValue | readFault => exact .inl (congrArg (· ++ s.S.unsent) (handedOver_read ..))
  | transaction | pop | draw | stop | commExit => exact .inl rfl

/-! ### The use of the transport port (R290, R294) -/

/-- A move leaves the port history as it is, or is one operation of COMM. -/
theorem Move.port (hm : Move P s i S' wire) :
    wire = s.wire ∨
    (s.S.wComm = .running ∧ (∃ e, wire = s.wire ++ [e]) ∧
      ((∃ x y, i = .comm x y) ∨ (∃ w, i = .up w) ∨ ∃ w, i = .down w)) := by
  cases hm with
  | write item rest hi hw => exact .inr ⟨hw, ⟨_, rfl⟩, hi.imp_right .inr⟩
  | writeFault item rest info hi hw => exact .inr ⟨hw, ⟨_, rfl⟩, .inl hi⟩
  | readValue src v hi hr => exact .inr ⟨((commReads_iff _).mp hr).1, ⟨_, rfl⟩, hi.imp_right .inl⟩
  | readNothing hi hr | readFault info hi hr => exact .inr ⟨((commReads_iff _).mp hr).1, ⟨_, rfl⟩, .inl hi⟩
  | transaction | pop | push | draw | stop | reset | opening | sendw | pollw | commExit => exact .inl rfl

end

/-- Settles O51, move by move: a push adds at the end, SENDW and COMM take the oldest item one place on. -/
theorem writesAreFifo : Obligations.WritesAreFifo := by
  unfold Obligations.WritesAreFifo
  intro s s' h
  rw [pipeline_eq, pipeline_eq]
  rcases step_move h with ⟨rfl, -⟩ | ⟨i, rest, -, hm⟩
  · exact .inl rfl
  rcases hm.fifo with hsame | ⟨item, hunsent, hsendq, hwire⟩ | hsession
  · exact .inl hsame
  · refine .inr (.inl ⟨item, ?_, hsendq, hwire⟩)
    rw [hwire, hunsent, List.append_assoc]
  · exact .inr (.inr hsession)

/-- Settles O55, move by move. -/
theorem onlyCommUsesTheTransport : Obligations.OnlyCommUsesTheTransport := by
  unfold Obligations.OnlyCommUsesTheTransport
  intro s s' h
  rcases step_move h with ⟨rfl, -⟩ | ⟨i, rest, hi, hm⟩
  · exact .inl rfl
  refine hm.port.imp_right fun ⟨hrun, hone, hwho⟩ => ⟨hrun, hone, rest, ?_⟩
  rw [hi]
  rcases hwho with ⟨x, y, rfl⟩ | ⟨w, rfl⟩ | ⟨w, rfl⟩
  · exact .inl ⟨x, y, rfl⟩
  · exact .inr (.inl ⟨w, rfl⟩)
  · exact .inr (.inr ⟨w, rfl⟩)

/-! ### The demultiplexer commands (R300, R301) -/

section
variable {S : SessionState}

theorem notReady_notOpen (h : S.session ≠ .opened) : S.notReady = some .notOpen := if_pos h

theorem notReady_fault (h : S.session = .opened) (hf : S.fault = true) :
    S.notReady = some (.transportError S.faultInfo) := by
  rw [SessionState.notReady, if_neg (not_not.mpr h), if_pos hf]

theorem notReady_ready (h : S.session = .opened) (hf : S.fault = false) : S.notReady = none := by
  rw [SessionState.notReady, if_neg (not_not.mpr h), if_neg (by simp [hf])]

theorem waitPop_cons {src : Chan} {v : Value} {q : List Value} (h : S.rx src = v :: q) (d : Duration) :
    S.waitPop src d = .popped v (S.setRx src q) := by
  simp only [SessionState.waitPop, h]

theorem waitPop_nil {src : Chan} (h : S.rx src = []) (d : Duration) :
    S.waitPop src d = if d = 0 then .nodata else .waiting := by
  simp only [SessionState.waitPop, h]

end

section
variable {s : State} {t : ThreadId} {src : Chan} {d : Duration}

theorem exec_demuxWrite_refused {st : Status} (v : Value) (dest : Chan) (hidle : s.callerIdle)
    (h : s.S.notReady = some st) : exec (.demuxWrite v dest) s = .next (s.answered st .none) := by
  have hexec : exec (.demuxWrite v dest) s = .next (demuxWrite s.caller v dest s) := rfl
  rw [hexec, demuxWrite, h]
  exact congrArg _ (takeException_idle hidle st)

theorem exec_demuxWrite_ready (v : Value) (dest : Chan) (hidle : s.callerIdle) (h : s.S.notReady = none) :
    exec (.demuxWrite v dest) s = .next ((s.withS (s.S.pushSend ⟨v, dest⟩)).answered .ok .none) := by
  have hexec : exec (.demuxWrite v dest) s = .next (demuxWrite s.caller v dest s) := rfl
  rw [hexec, demuxWrite, h]
  exact congrArg _ (finish_idle (s := s.withS (s.S.pushSend ⟨v, dest⟩)) hidle .none)

theorem exec_demuxRead_refused {st : Status} (src : Chan) (d : Duration) (hidle : s.callerIdle)
    (h : s.S.notReady = some st) : exec (.demuxRead src d) s = .next (s.answered st .none) := by
  have hexec : exec (.demuxRead src d) s = execDemuxRead src d s := rfl
  rw [hexec, execDemuxRead, h]
  exact congrArg _ (takeException_idle hidle st)

/-- Where its checks pass, a DEMUX_READ taken in one step goes on to the first look of its wait (assumption log 7). -/
theorem exec_demuxRead_ready (src : Chan) (d : Duration) (h : s.S.notReady = none) :
    exec (.demuxRead src d) s = .next (demuxWaitStep s.caller src d s) := by
  have hexec : exec (.demuxRead src d) s = execDemuxRead src d s := rfl
  rw [hexec, execDemuxRead, h]

theorem demuxWaitStep_pops (hs : s.S.session = .opened) {v : Value} {q : List Value} (hq : s.S.rx src = v :: q) :
    demuxWaitStep t src d s = (s.withS (s.S.setRx src q)).finish t (.item v) := by
  rw [demuxWaitStep, if_neg (not_not.mpr hs), waitPop_cons hq]

theorem demuxWaitStep_nodata (hs : s.S.session = .opened) (hq : s.S.rx src = []) (hd : d = 0) :
    demuxWaitStep t src d s = s.endCommand t ⟨.nodata, .none⟩ := by
  rw [demuxWaitStep, if_neg (not_not.mpr hs), waitPop_nil hq, if_pos hd]

theorem demuxWaitStep_waits (hs : s.S.session = .opened) (hq : s.S.rx src = []) (hd : d ≠ 0) :
    demuxWaitStep t src d s = s.setTask t (.demuxWait src d) := by
  rw [demuxWaitStep, if_neg (not_not.mpr hs), waitPop_nil hq, if_neg hd]

end

/-- Settles O46: the outcome of the two checks decides. -/
theorem demuxWriteMeaning : Obligations.DemuxWriteMeaning := by
  unfold Obligations.DemuxWriteMeaning
  intro v dest s hidle
  exact ⟨decode_code (c := .demuxWrite) rfl rfl,
    fun hs => exec_demuxWrite_refused v dest hidle (notReady_notOpen hs),
    fun hs hf => exec_demuxWrite_refused v dest hidle (notReady_fault hs hf),
    fun hs hf => exec_demuxWrite_ready v dest hidle (notReady_ready hs hf)⟩

/-- Settles O47: past the checks the first look and every later one are `demuxWaitStep`. -/
theorem demuxReadMeaning : Obligations.DemuxReadMeaning := by
  unfold Obligations.DemuxReadMeaning
  intro src d s
  refine ⟨fun hidle => ⟨fun hs => exec_demuxRead_refused src d hidle (notReady_notOpen hs),
      fun hs hf => exec_demuxRead_refused src d hidle (notReady_fault hs hf), fun v q hs hf hq => ?pops,
      fun hs hf hq hd => ?nodata, fun hs hf hq hd => ?waits⟩,
    fun P t ht hf => advanceThread_apart_waits ht hf, fun P t ht hf => advanceThread_apart_waits ht hf,
    fun P t ht hs => ?inWait⟩
  case pops =>
    rw [exec_demuxRead_ready src d (notReady_ready hs hf), demuxWaitStep_pops hs hq,
      finish_idle (s := s.withS (s.S.setRx src q)) hidle]
    exact ⟨_, rfl, rfl, rx_setRx_same .., fun c hc => rx_setRx_other _ hc q, rfl, rfl, rfl, rfl, rfl⟩
  case nodata =>
    rw [exec_demuxRead_ready src d (notReady_ready hs hf), demuxWaitStep_nodata hs hq hd]
    exact congrArg _ (endCommand_idle hidle _)
  case waits => rw [exec_demuxRead_ready src d (notReady_ready hs hf), demuxWaitStep_waits hs hq hd]
  case inWait =>
    have hadvance : advanceThread P t s = demuxWaitStep t src d s := advanceThread_of_task P ht
    have htimeout : timeoutThread P t s = demuxTimeout t src s := timeoutThread_of_task P ht
    rw [hadvance, htimeout, demuxTimeout]
    refine ⟨fun v q hq => ⟨by simp [hq], s.S.setRx src q, rx_setRx_same ..,
      fun c hc => rx_setRx_other _ hc q, rfl, ?_⟩, fun hq => ⟨?_, fun hd => ?_, demuxWaitStep_waits hs hq⟩⟩
    · rw [demuxWaitStep_pops hs hq]
      exact endCommand_free (s := s.withS (s.S.setRx src q)) ht rfl _
    · rw [if_pos (by simp [hq]), endCommand_free ht rfl]
    · rw [demuxWaitStep_nodata hs hq hd, endCommand_free ht rfl]

/-! ### SENDW and POLLW (R305 to R307) -/

/-- Settles O48, branch by branch. -/
theorem sendwAndPollwSteps : Obligations.SendwAndPollwSteps := by
  unfold Obligations.SendwAndPollwSteps
  intro S
  refine ⟨fun hw item hs => ?posts, fun hw hs item q hq => ?stages, fun hw hs hq => ?empty, fun hw => if_pos hw,
    fun hw => if_neg (not_not.mpr hw), fun hw => if_pos hw⟩
  all_goals rw [sendwStep, if_neg (not_not.mpr hw)]
  case posts => simp only [hs]
  case stages => simp only [hs, hq]
  case empty => simp only [hs, hq]

/-! ### COMM (R309 to R313) -/

section
variable {onWrite : WriteAnswer} {onRead : ReadAnswer} {s : State}

theorem commStep_of_not_running (hw : s.S.wComm ≠ .running) : commStep onWrite onRead s = s := if_pos hw

theorem commStep_writes (hw : s.S.wComm = .running) {item : Item} {rest : List Item} (hq : s.S.wrq = item :: rest) :
    commStep onWrite onRead s = commWrite item onWrite (s.withS { s.S with wrq := rest }) := by
  rw [commStep, if_neg (not_not.mpr hw), hq]

theorem commStep_reads (hr : s.S.commReads = true) : commStep onWrite onRead s = commTakeRead onRead s := by
  obtain ⟨hw, hq, -, -⟩ := (commReads_iff _).mp hr
  rw [commStep, if_neg (not_not.mpr hw), hq]
  exact if_pos hr

/-- With nothing to write and nothing to read COMM exits after the stop once SENDW has, and is blocked otherwise. -/
theorem commStep_blocked (hw : s.S.wComm = .running) (hq : s.S.wrq = []) (hr : s.S.commReads ≠ true) :
    commStep onWrite onRead s =
      if s.S.stop = true ∧ s.S.wSend = .exited then s.withS { s.S with wComm := .exited } else s := by
  rw [commStep, if_neg (not_not.mpr hw), hq]
  simp only [if_neg hr, Bool.and_eq_true, beq_iff_eq]

end

/-- Settles O49: the four conditions of COMM_STEP in their order, each with ENV's answers. -/
theorem commStepByPriority : Obligations.CommStepByPriority := by
  unfold Obligations.CommStepByPriority
  intro onWrite onRead s
  refine ⟨commStep_of_not_running, fun hw item rest hq => ?writes, fun hw hq hp hs => ?reads,
    fun hw hq hs => ?stopped, fun hw hq hs hp => ?blocked⟩
  case writes =>
    rw [commStep_writes hw hq]
    exact ⟨fun ha => by rw [ha]; rfl, fun info ha => by rw [ha]; rfl⟩
  case reads =>
    have hr : s.S.commReads = true := (commReads_iff _).mpr ⟨hw, hq, hp, hs⟩
    rw [commStep_reads hr]
    rcases commTakeRead_cases hr onRead with ⟨rfl, e⟩ | ⟨src, v, rfl, e⟩ | ⟨info, rfl, e⟩ <;> rw [e]
    · exact ⟨fun _ => rfl, nofun, nofun⟩
    · refine ⟨nofun, ?_, nofun⟩
      rintro _ _ ⟨⟩
      rfl
    · refine ⟨nofun, nofun, ?_⟩
      rintro _ ⟨⟩
      rfl
  case stopped =>
    have hno : s.S.commReads ≠ true := (not_commReads_iff _).mpr (.inr (.inr (.inr hs)))
    rw [commStep_blocked hw hq hno]
    simp only [hs, true_and]
    rfl
  case blocked =>
    have hno : s.S.commReads ≠ true := (not_commReads_iff _).mpr (.inr (.inr (.inl hp)))
    rw [commStep_blocked hw hq hno, if_neg (by simp [hs])]

end Sys2Proof.Machine

/-! The proofs of the family `60_exceptions`: a reserved command code (R123, R338). -/

namespace Sys2Proof.Machine

/-- The codes of the table of R120 are these 28 numbers. -/
theorem map_code_commandAll : Command.all.map (·.code.toNat) =
    [0x01, 0x02, 0x03, 0x04, 0x05, 0x06, 0x07, 0x08, 0x09, 0x0A, 0x0B, 0x0C, 0x10, 0x11, 0x12,
      0x20, 0x21, 0x22, 0x23, 0x24, 0x25, 0x30, 0x31, 0x33, 0x34, 0x35, 0x40, 0x41] := rfl

/-- A code that no command of R120 has is decoded as a reserved code, whatever its operands (R123). -/
theorem decode_command_reserved {code : BitVec 8} (h : code.toNat ∉ Command.all.map (·.code.toNat))
    (ops : List Operand) : decode (.command code ops) = .error (.reservedCode code) := by
  have hnone : Command.ofCode code = none := by
    cases hc : Command.ofCode code with
    | none => rfl
    | some c =>
      have hcode : c.code.toNat = code.toNat := congrArg BitVec.toNat (code_of_ofCode hc)
      exact absurd (List.mem_map.mpr ⟨c, List.mem_of_find?_eq_some hc, hcode⟩) h
  simp only [decode, decodeCommand, hnone]

/-- Settles O4: both ways of issue bring the code to the decoder, which finds it reserved before any instruction is
reached, so the session is never looked at. -/
theorem reservedCodeIsIllegalCommand : Obligations.ReservedCodeIsIllegalCommand := by
  unfold Obligations.ReservedCodeIsIllegalCommand
  intro s t code ops rest hcode hidle hinputs
  have hdecode : decode (.command code ops) = .error (.reservedCode code) :=
    decode_command_reserved (map_code_commandAll ▸ hcode) ops
  have hidle' : ({ s with inputs := rest } : State).taskOf t = none := hidle
  rcases hinputs with hissue | hapart
  · exact (step_cons hissue).trans (issueBy_reserved hidle' hdecode)
  · exact (step_cons hapart).trans (issueBy_reserved hidle' hdecode)

end Sys2Proof.Machine

/-! The proofs of the family `70_reset_and_hazards`: RST (R360). -/

namespace Sys2Proof.Machine

/-- After RST no thread has a command in progress (R360). -/
@[simp] theorem blockReset_taskOf (s : State) (t : ThreadId) : s.blockReset.taskOf t = none := rfl

/-- RST answers every command in progress with NOT_OPEN (R360), after the responses already given. -/
@[simp] theorem blockReset_out (s : State) :
    s.blockReset.out = s.out ++ s.threads.map (fun e => (e.1, ⟨.notOpen, .none⟩)) := rfl

/-- RST is taken in every state: nothing guards it (R360). -/
theorem step_rst {s : State} {rest : List Input} (h : s.inputs = .rst :: rest) :
    step s = .next ({ s with inputs := rest } : State).blockReset := step_cons h

/-- Settles O57: the choice is taken off the list, which RST does not read, and each item of the state is then as the
block reset leaves it. -/
theorem blockResetMeaning : Obligations.BlockResetMeaning := by
  unfold Obligations.BlockResetMeaning
  intro s rest h
  exact ⟨_, step_rst h, blockReset_S _, blockReset_wire _, blockReset_inputs _, blockReset_taskOf _, blockReset_out _⟩

end Sys2Proof.Machine
